-- ==== Sys2Proof/Word.lean ====
section
/-! DEFINITION. The word types of the block: every value is an unsigned natural number in a register of a
fixed width (`00_scope.md` R10). -/

namespace Sys2Proof

/-- A byte, a value in `0..255` (`00_scope.md` R10). -/
abbrev Byte := BitVec 8

/-- A code-valued register or operand: `CODE_BITS` = 25 bits, enough for `0..2^24` (`00_scope.md` R8, R10). -/
abbrev Code := BitVec 25

end Sys2Proof
end

