-- ==== Sys2Proof/Config.lean ====
section
/-! DEFINITION. What an implementation of the block fixes when it is built (`00_scope.md` R8, R9). The three open
parameters are plain data that a state carries and no step writes, so a claim about all states is a claim about all
parameters. Nothing here is a free value: the spec leaves no result of this block open. -/

namespace Sys2Proof

/-- `MIN_WIDTH` (`00_scope.md` R8). -/
def minWidth : Nat := 8

/-- `MAX_WIDTH` (`00_scope.md` R8). -/
def maxWidth : Nat := 24

/-- `MAX_CHUNK_LEN` in hardware (`00_scope.md` R8). -/
def maxChunkLen : Nat := 2 ^ 32 - 1

/-- The open parameters of one built block (`00_scope.md` R8). -/
structure Params where
  /-- `DICT_CAPACITY`, also the scratch buffer's size (`SCRATCH_SIZE`) and the value of `NOCODE`. -/
  capacity : Nat
  /-- `RESTORE_WIDTH`. -/
  restoreWidth : Nat
  /-- `STRICT_EOF`: true in a strict build, false in a relaxed one. -/
  strictEof : Bool
  deriving DecidableEq, Repr

/-- The constraints of `00_scope.md` R8 and R9 on the open parameters. -/
abbrev Params.WF (p : Params) : Prop :=
  257 ≤ p.capacity ∧ p.capacity ≤ 2 ^ 24 ∧ minWidth ≤ p.restoreWidth ∧ p.restoreWidth ≤ maxWidth

/-- `NOCODE`, the "no code" sentinel: the number `DICT_CAPACITY` (`20_memory.md` R63). -/
def Params.noCode (p : Params) : Code := BitVec.ofNat 25 p.capacity

/-- The reference values of `00_scope.md` R8: capacity 65536, restore width 17, a relaxed build.
DESIGN CHOICE (log entry 1): the spec leaves the first and the third open. -/
def Params.reference : Params := { capacity := 65536, restoreWidth := 17, strictEof := false }

end Sys2Proof
end

