-- ==== Sys2Proof/Syntax.lean ====
section
/-! DEFINITION. What the block executes: the host commands, the classes of a code word and the component operations
(`00_scope.md` R7), one constructor of `Instr` for each row of the opcode table. -/

namespace Sys2Proof

/-- A dictionary entry, `(prefix, trailing_byte)` (`10_state.md` R31). -/
structure Entry where
  /-- The prefix: a 25-bit code, or `NOCODE`. -/
  prefixCode : Code
  /-- The trailing byte. -/
  byte : Byte
  deriving DecidableEq, Repr

/-- The `mode` register's two values (`10_state.md` R29). -/
inductive Mode where
  | grow
  | stringOnly
  deriving DecidableEq, Repr

/-- One thing the block executes; one constructor for each row of the opcode table. -/
inductive Instr where
  /-- The command INIT (`44_host_commands.md` R236). -/
  | init
  /-- The command RESTORE with the entries of indices 256 upward (`44_host_commands.md` R240). -/
  | restore (entries : List Entry)
  /-- The command DECODE_CHUNK with the chunk's bytes (`44_host_commands.md` R245). -/
  | decodeChunk (chunk : List Byte)
  /-- The reserved command code 3 (`30_encoding.md` R107). -/
  | reservedCmd3
  /-- A word of class FIRST (`42_decode_engine.md` R173). -/
  | first (code : Code)
  /-- A word of class KNOWN (`42_decode_engine.md` R174). -/
  | known (code : Code)
  /-- A word of class NEXT (`42_decode_engine.md` R176). -/
  | next (code : Code)
  /-- A word of class STRING (`42_decode_engine.md` R184). -/
  | string (code : Code)
  /-- A word of class INVALID (`42_decode_engine.md` R177). -/
  | invalid (code : Code)
  /-- The chunk ended before a whole word was held (`42_decode_engine.md` R171). -/
  | noData
  /-- The Bit Reader's operation (`40_bit_reader.md` R121). -/
  | readBits (n : Nat)
  /-- The Dictionary's chain walk (`41_dictionary.md` R141). -/
  | resolveToBytes (code : Code)
  /-- The Dictionary's append (`41_dictionary.md` R145). -/
  | add (prefixCode : Code) (trailingByte : Byte)
  /-- The Dictionary's overflow reset (`41_dictionary.md` R150). -/
  | reset
  /-- The Output Sink's operation (`43_output_sink.md` R220). -/
  | emit (run : List Byte)
  deriving DecidableEq, Repr

/-- What engine step 1 finds at the stream cursor: a word in its class, or the end of the chunk
(`30_encoding.md` R97). -/
inductive ReadWord where
  | first (code : Code)
  | known (code : Code)
  | next (code : Code)
  | string (code : Code)
  | invalid (code : Code)
  | noData
  deriving DecidableEq, Repr

/-- One command as the host presents it: the 2-bit command code and the operand sequences beside it
(`30_encoding.md` R107). A command that has no such operand leaves the sequence unread. -/
structure HostCommand where
  /-- The command code. -/
  code : BitVec 2
  /-- The operand of RESTORE. -/
  entries : List Entry
  /-- The operand of DECODE_CHUNK. -/
  chunk : List Byte
  deriving DecidableEq, Repr

end Sys2Proof
end

