-- ==== Sys2Proof/WellFormed.lean ====
section
/-! DEFINITION. The operand ranges the spec gives each row of the opcode table, as a check on the instruction alone. -/

namespace Sys2Proof

/-- A code word's value fits the widest word format, W24 (`30_encoding.md` R91). -/
def Code.fitsWord (code : Code) : Bool := code.toNat < 2 ^ maxWidth

/-- The operand ranges of the opcode table: a chunk the command port can express (`30_encoding.md` R107), a word of at
most 24 bits (R91), `read_bits` of at most 24 bits (`40_bit_reader.md` R121), a prefix that is a code or `NOCODE`
(`41_dictionary.md` R145), a run of at least one byte (`43_output_sink.md` R220). -/
def Instr.wf : Instr → Bool
  | .init => true
  | .restore _ => true
  | .decodeChunk chunk => chunk.length ≤ maxChunkLen
  | .reservedCmd3 => true
  | .first code => Code.fitsWord code
  | .known code => Code.fitsWord code
  | .next code => Code.fitsWord code
  | .string code => Code.fitsWord code
  | .invalid code => Code.fitsWord code
  | .noData => true
  | .readBits n => n ≤ maxWidth
  | .resolveToBytes _ => true
  | .add prefixCode _ => prefixCode.toNat ≤ 2 ^ maxWidth
  | .reset => true
  | .emit run => !run.isEmpty

end Sys2Proof
end

