-- ==== Sys2Proof/Decode.lean ====
section
/-! DEFINITION. The two encodings of the block and their readers: the 2-bit command code with its operands
(`30_encoding.md` R107), and the code word, whose width and class come from registers and not from its bits
(R91, R94, R97). The encoder stands after the decoder. -/

namespace Sys2Proof

/-! ## The host commands -/

/-- The command a 2-bit code and its operands stand for (`30_encoding.md` R107). Total: code 3 is the reserved row. -/
def decodeCommand (c : HostCommand) : Instr :=
  match c.code.toNat with
  | 0 => .init
  | 1 => .restore c.entries
  | 2 => .decodeChunk c.chunk
  | _ => .reservedCmd3

/-! ## The code words -/

/-- The registers that decide a word's class (`30_encoding.md` R97). -/
structure ClassRegs where
  mode : Mode
  maxCode : Code
  prevCode : Code
  noCode : Code
  deriving DecidableEq, Repr

/-- The class of a word (`30_encoding.md` R97, R100): compared unsigned with `max_code` and `max_code + 1`, with no
wrap-around (`42_decode_engine.md` R172). -/
def classify (r : ClassRegs) (code : Code) : ReadWord :=
  if code.toNat ≤ r.maxCode.toNat then
    match r.mode with
    | .stringOnly => .string code
    | .grow => if r.prevCode = r.noCode then .first code else .known code
  else if code.toNat = r.maxCode.toNat + 1 ∧ r.mode = .grow ∧ r.prevCode ≠ r.noCode then .next code
  else .invalid code

/-- The row of the opcode table a classified word stands for. -/
def ReadWord.instr : ReadWord → Instr
  | .first code => .first code
  | .known code => .known code
  | .next code => .next code
  | .string code => .string code
  | .invalid code => .invalid code
  | .noData => .noData

/-- The unsigned number a bit string stands for, its first bit most significant (`30_encoding.md` R92). -/
def bitsValue (bits : List Bool) : Nat := bits.foldl (fun v b => 2 * v + b.toNat) 0

/-! ## The encoder -/

/-- The `w` bits of a word of value `v`, most significant first (`30_encoding.md` R91, R92). -/
def wordBits (w v : Nat) : List Bool := (List.range w).map fun i => v.testBit (w - 1 - i)

/-- The bit sequence of a byte sequence: bit `8*j + i` is bit `7 - i` of byte `j` (`30_encoding.md` R92). -/
def streamBits (bytes : List Byte) : List Bool := bytes.flatMap fun b => wordBits 8 b.toNat

/-- The value of the word of width `w` that starts at bit position `p` of a byte sequence (`30_encoding.md` R92). -/
def wordAt (bytes : List Byte) (p w : Nat) : Nat := bitsValue (((streamBits bytes).drop p).take w)

/-- Bytes of a bit sequence, the last one filled up with zero bits; `acc` holds the `k` bits of the byte begun. -/
def packBits (acc k : Nat) : List Bool → List Byte
  | [] => if k = 0 then [] else [BitVec.ofNat 8 (acc * 2 ^ (8 - k))]
  | b :: bits =>
    if k = 7 then BitVec.ofNat 8 (2 * acc + b.toNat) :: packBits 0 0 bits
    else packBits (2 * acc + b.toNat) (k + 1) bits

/-- A code word `v/w`: a value written in a width (`30_encoding.md` R105). -/
structure CodeWord where
  value : Nat
  width : Nat
  deriving DecidableEq, Repr

/-- The bits of a stream of words, one after another (`30_encoding.md` R105). -/
def wordsBits (words : List CodeWord) : List Bool := words.flatMap fun x => wordBits x.width x.value

/-- `pack(words)`: the byte sequence of a stream, padded with zero bits (`30_encoding.md` R105). -/
def pack (words : List CodeWord) : List Byte := packBits 0 0 (wordsBits words)

/-- The encoded form of an instruction: a command with its operands, a word's bits, or none (an internal operation,
or the NODATA condition, which is not a word: `30_encoding.md` R97). -/
inductive Encoding where
  | command (c : HostCommand)
  | word (bits : List Bool)
  | internal
  deriving DecidableEq, Repr

/-- The encoding of an instruction, a word being written in `width` bits (`30_encoding.md` R91, R107). -/
def encode (width : Nat) : Instr → Encoding
  | .init => .command { code := 0, entries := [], chunk := [] }
  | .restore entries => .command { code := 1, entries := entries, chunk := [] }
  | .decodeChunk chunk => .command { code := 2, entries := [], chunk := chunk }
  | .reservedCmd3 => .command { code := 3, entries := [], chunk := [] }
  | .first code => .word (wordBits width code.toNat)
  | .known code => .word (wordBits width code.toNat)
  | .next code => .word (wordBits width code.toNat)
  | .string code => .word (wordBits width code.toNat)
  | .invalid code => .word (wordBits width code.toNat)
  | .noData => .internal
  | .readBits _ => .internal
  | .resolveToBytes _ => .internal
  | .add _ _ => .internal
  | .reset => .internal
  | .emit _ => .internal

/-- The instruction an encoded form stands for under the registers that decide a word's class; an internal operation
has no encoded form to read. -/
def decode (r : ClassRegs) : Encoding → Option Instr
  | .command c => some (decodeCommand c)
  | .word bits => some (classify r (BitVec.ofNat 25 (bitsValue bits))).instr
  | .internal => none

/-! ## The opcode table's words -/

/-- The command a table word stands for: its two low bits are the command code (the table's mask is `0x3`), and the
operands, which the table gives no bits, are empty. -/
def tableCommand (w : Nat) : HostCommand := { code := BitVec.ofNat 2 w, entries := [], chunk := [] }

/-- The instruction the decoder reads from a table word of `nbits` bits: a command needs its two bits, and fewer than two
are no command code. A code word's class is not in its bits (`30_encoding.md` R91), so no table word stands for one. -/
def decodeTableWord (nbits w : Nat) : Option Instr :=
  if nbits < 2 then none else some (decodeCommand (tableCommand w))

end Sys2Proof
end

