-- ==== Sys2Proof/Machine/State.lean ====
section
/-! DEFINITION. The state of one block: the Decoder State (`10_state.md` R20), the command in progress with its stream
cursor (R33), the sink (R35), and the host's side of the command interface. Plain data. -/

namespace Sys2Proof.Machine

/-- The `phase` register's four values (`10_state.md` R27). -/
inductive Phase where
  | awaitingFirstCode
  | running
  | exhausted
  | faulted
  deriving DecidableEq, Repr

/-- The three fault kinds (`60_exceptions.md` R270). The register `fault_kind` is an `Option` of them, its value None
being `none` (`10_state.md` R28). -/
inductive FaultKind where
  | dictionaryFull
  | invalidCode
  | inputTruncated
  deriving DecidableEq, Repr

/-- The `status` half of DECODE_CHUNK's outcome (`30_encoding.md` R108). -/
inductive Status where
  | needMoreInput
  | fault (kind : FaultKind)
  deriving DecidableEq, Repr

/-- What the last command gave back to the host (`30_encoding.md` R107, R108). -/
inductive CommandResult where
  /-- No command has given a result, or the last one was INIT, which gives none. -/
  | none
  /-- RESTORE: accepted. -/
  | accepted
  /-- RESTORE: refused with a fault (`44_host_commands.md` R242). -/
  | restoreFault (kind : FaultKind)
  /-- DECODE_CHUNK: `(status, consumed_count)`. -/
  | chunk (status : Status) (consumed : Nat)
  deriving DecidableEq, Repr

/-- What a component operation, executed by itself, gave back to its caller. The spec does not store these
(`10_state.md` R34): the field that holds one is the model's own (log entry 3). -/
inductive Returned where
  | none
  /-- `read_bits`: the code read. -/
  | code (value : Code)
  /-- `read_bits`: NoData. -/
  | noData
  /-- `resolve_to_bytes`: where the string stands in the scratch buffer. -/
  | string (start length : Nat)
  /-- `resolve_to_bytes`: Fail. -/
  | fail
  /-- `add`: the new code, the pseudo-code, or `NOCODE`. -/
  | newCode (value : Code)
  deriving DecidableEq, Repr

/-- Why the model stops. The block's own three faults are NOT among these: raising one is a next state, in phase
Faulted (`60_exceptions.md` R275). -/
inductive Fault where
  /-- Raised by DECODE_CHUNK when the engine's loop makes no progress: `code_width_bits` is 0, a value the register never
  holds (`10_state.md` R23), and `mode` is StringOnly, so that nothing changes the width. Safe: the model stops where the
  loop would not end. -/
  | engineStuck
  deriving DecidableEq, Repr

/-- Why an instruction has no meaning in a state. -/
inductive Refusal where
  /-- An instruction not modelled yet, by its mnemonic; raised by no arm. Safe. -/
  | notModelled (mnemonic : String)
  /-- Raised by INIT, RESTORE and DECODE_CHUNK while a command is executing: the host must not issue one, and the spec
  gives it no transition (`44_host_commands.md` R235, `93_implementation_defined.md` U16). Safe. -/
  | commandInProgress
  /-- Raised by a word class, or by NODATA, in a state that does not meet the class's condition: a word's class is decided
  by the state, so no such word exists there (`30_encoding.md` R97). Safe. -/
  | notOfThisClass
  /-- Raised by `read_bits` of more than 24 bits, and by an engine iteration whose `code_width_bits` is above 24: outside
  the contract, which a model refuses (`40_bit_reader.md` R125 (b)). Safe. -/
  | readBitsTooWide
  /-- Raised by `emit` of an empty run: a run has at least one byte (`43_output_sink.md` R220). Safe. -/
  | emptyRun
  deriving DecidableEq, Repr

/-- The state of one block and of its two ports. -/
structure State where
  /-- The parameters the block was built with (`00_scope.md` R8); no step writes them. -/
  params : Params
  /-- `prev_code` (`10_state.md` R21). -/
  prevCode : Code
  /-- `max_code` (`10_state.md` R22). -/
  maxCode : Code
  /-- `code_width_bits` (`10_state.md` R23). -/
  codeWidth : BitVec 5
  /-- `bit_accumulator` (`10_state.md` R24). -/
  acc : BitVec 32
  /-- `bit_count` (`10_state.md` R24, R25). -/
  bitCount : BitVec 5
  /-- `first_char` (`10_state.md` R26). -/
  firstChar : Byte
  /-- `phase` (`10_state.md` R27). -/
  phase : Phase
  /-- `fault_kind` (`10_state.md` R28). -/
  faultKind : Option FaultKind
  /-- `mode` (`10_state.md` R29). -/
  mode : Mode
  /-- The learned entries that hold a value, by index, rising (`10_state.md` R31). -/
  dict : List (Nat × Entry)
  /-- The scratch buffer (`10_state.md` R32), by index, rising; an index not listed reads as 0 (log entry 4). -/
  scratch : List Host.Cell
  /-- A DECODE_CHUNK command is executing (`44_host_commands.md` R235). -/
  busy : Bool
  /-- The chunk of the command in progress (`10_state.md` R33); empty between commands. -/
  chunk : List Byte
  /-- `in_pos` (`10_state.md` R33); 0 between commands. -/
  inPos : Nat
  /-- `out`, the runs the sink has received, oldest first (`10_state.md` R35). -/
  out : List (List Byte)
  /-- What the last command gave back (`30_encoding.md` R108). -/
  outcome : CommandResult
  /-- What the last component operation executed by itself gave back (the model's own field, log entry 3). -/
  returned : Returned
  /-- The commands the host has yet to issue, next first (the model's own field, log entry 2). -/
  commands : List HostCommand
  deriving DecidableEq, Repr

/-- The block built with parameters `p`, right after a hardware reset (`10_state.md` R39, `70_reset_and_hazards.md` R310),
with nothing received by the sink and no command to come. -/
def State.resetWith (p : Params) : State where
  params := p
  prevCode := p.noCode
  maxCode := 255
  codeWidth := 8
  acc := 0
  bitCount := 0
  firstChar := 0
  phase := .awaitingFirstCode
  faultKind := none
  mode := .grow
  dict := []
  scratch := []
  busy := false
  chunk := []
  inPos := 0
  out := []
  outcome := .none
  returned := .none
  commands := []

/-- The machine right after reset, built with the reference parameters (log entry 1). -/
def State.reset : State := State.resetWith Params.reference

end Sys2Proof.Machine
end

