-- ==== Sys2Proof/Machine/Ops.lean ====
section
/-! DEFINITION. The named operations over memory and registers, and the block's trap entry, raising a fault. -/

namespace Sys2Proof.Machine

/-! ## Keyed memories: a list of (index, value), indices strictly rising -/

/-- The value listed at an index, if any. -/
def Memory.find {α : Type} : List (Nat × α) → Nat → Option α
  | [], _ => none
  | (k, v) :: rest, a => if a = k then some v else Memory.find rest a

/-- List a value at an index, in rising order, in place of the one listed there. -/
def Memory.insert {α : Type} : List (Nat × α) → Nat → α → List (Nat × α)
  | [], a, v => [(a, v)]
  | (k, w) :: rest, a, v =>
    if a < k then (a, v) :: (k, w) :: rest
    else if a = k then (a, v) :: rest
    else (k, w) :: Memory.insert rest a v

/-- Take an index off the list. -/
def Memory.erase {α : Type} : List (Nat × α) → Nat → List (Nat × α)
  | [], _ => []
  | (k, w) :: rest, a => if a = k then Memory.erase rest a else (k, w) :: Memory.erase rest a

/-- The indices rise strictly. -/
abbrev Memory.Rising {α : Type} (m : List (Nat × α)) : Prop := m.Pairwise fun x y => x.1 < y.1

/-! ## The scratch buffer: a byte memory -/

/-- What an index of the scratch buffer reads as when nothing has written it. DESIGN CHOICE (log entry 4): the spec
leaves it unspecified, and no rule reads such a byte (`93_implementation_defined.md` U9). -/
def unlistedByte : Byte := 0

/-- The byte of a byte memory at an index. -/
def Memory.readByte (m : List Host.Cell) (a : Nat) : Byte := (Memory.find m a).getD unlistedByte

/-- Write a byte: the value an unlisted index reads as takes the index off the list. -/
def Memory.writeByte (m : List Host.Cell) (a : Nat) (b : Byte) : List Host.Cell :=
  if b = unlistedByte then Memory.erase m a else Memory.insert m a b

/-- The canonical form of a byte memory: indices strictly rising, and no entry equal to what an unlisted index reads
as. -/
abbrev Memory.wf (m : List Host.Cell) : Prop := Memory.Rising m ∧ ∀ c ∈ m, c.2 ≠ unlistedByte

/-! ## Registers and parameters -/

/-- `NOCODE` of this block (`20_memory.md` R63). -/
def noCode (s : State) : Code := s.params.noCode

/-- `SCRATCH_SIZE`, equal to `DICT_CAPACITY` (`00_scope.md` R8). -/
def scratchSize (s : State) : Nat := s.params.capacity

/-- The registers that decide a word's class (`30_encoding.md` R97). -/
def classRegs (s : State) : ClassRegs :=
  { mode := s.mode, maxCode := s.maxCode, prevCode := s.prevCode, noCode := noCode s }

/-- The registers at the values INIT and a hardware reset give them; every learned entry loses its value
(`10_state.md` R39, `44_host_commands.md` R236). -/
def initRegs (s : State) : State :=
  { s with
    prevCode := noCode s, maxCode := 255, codeWidth := 8, acc := 0, bitCount := 0, firstChar := 0,
    phase := .awaitingFirstCode, faultKind := none, mode := .grow, dict := [] }

/-! ## The end of a command, and raising a fault -/

/-- DECODE_CHUNK ends and gives `(status, in_pos)` back; the chunk and its cursor live only for the duration of the
command (`10_state.md` R33, `44_host_commands.md` R247, R248). -/
def endCommand (status : Status) (s : State) : State :=
  { s with busy := false, outcome := .chunk status s.inPos, chunk := [], inPos := 0 }

/-- Entry to phase Faulted: `phase` and `fault_kind`, and nothing else (`60_exceptions.md` R275). -/
def enterFaulted (kind : FaultKind) (s : State) : State :=
  { s with phase := .faulted, faultKind := some kind }

/-- `raise K` inside DECODE_CHUNK: enter phase Faulted and end the command with `(Fault(K), in_pos)`
(`60_exceptions.md` R275). There is no return from a fault (R280). -/
def raise (kind : FaultKind) (s : State) : State := endCommand (.fault kind) (enterFaulted kind s)

end Sys2Proof.Machine
end

