-- ==== Sys2Proof/Machine/Operands.lean ====
section
/-! DEFINITION. The operand forms: how each storage space is reached (`20_memory.md` R60, `42_decode_engine.md` R190),
with the results a component operation gives back. -/

namespace Sys2Proof.Machine

/-- What `read_bits` gives back (`40_bit_reader.md` R121, R122). -/
inductive BitsRead where
  | code (value : Code)
  | noData
  deriving DecidableEq, Repr

/-- Where `resolve_to_bytes` left a string in the scratch buffer (`41_dictionary.md` R141). -/
structure StringAt where
  start : Nat
  length : Nat
  deriving DecidableEq, Repr

/-- The bytes of the chunk from `in_pos` on (`10_state.md` R33). -/
def unreadBytes (s : State) : List Byte := s.chunk.drop s.inPos

/-- The valid bits of the accumulator, oldest first: the low `bit_count` bits (`10_state.md` R24). -/
def validBits (s : State) : List Bool := wordBits s.bitCount.toNat s.acc.toNat

/-- The dictionary read `dict[i]` (`41_dictionary.md` R140): a hardwired literal, a learned entry, or no value. -/
def readEntry (s : State) (i : Nat) : Option Entry :=
  if i ≤ 255 then some { prefixCode := noCode s, byte := BitVec.ofNat 8 i }
  else if i ≤ s.maxCode.toNat then Memory.find s.dict i
  else none

/-- The dictionary write of a learned entry at an index (`41_dictionary.md` R145). -/
def writeEntry (i : Nat) (e : Entry) (s : State) : State := { s with dict := Memory.insert s.dict i e }

/-- The byte of the scratch buffer at an index (`20_memory.md` R72). -/
def readScratch (s : State) (i : Nat) : Byte := Memory.readByte s.scratch i

/-- The slice of the scratch buffer a string stands in, read upward from its start (`20_memory.md` R72). -/
def scratchBytes (s : State) (r : StringAt) : List Byte := (List.range' r.start r.length).map (readScratch s)

end Sys2Proof.Machine
end

