-- ==== Sys2Proof/Machine/Flags.lean ====
section
/-! DEFINITION. The block's conditions. It has no arithmetic flags (`10_state.md` R34); these are the tests the engine
makes, each on exact natural numbers (`00_scope.md` R11). -/

namespace Sys2Proof.Machine

/-- The condition under which `read_bits(n)` finds NoData: the chunk is exhausted and fewer than `n` bits are held
(`40_bit_reader.md` R122). -/
def outOfData (n : Nat) (s : State) : Bool := (unreadBytes s).isEmpty && s.bitCount.toNat < n

/-- The strict build's test at the end of a chunk: at least one bit is buffered (`42_decode_engine.md` R171). -/
def truncated (s : State) : Bool := s.params.strictEof && s.bitCount != 0

/-- The condition under which `add` with a real prefix finds the dictionary full (`41_dictionary.md` R147). -/
def dictionaryFull (s : State) : Bool := s.params.capacity ≤ s.maxCode.toNat + 1

/-- Step 5's test (`42_decode_engine.md` R180). -/
def widthGrows (s : State) : Bool :=
  s.mode == .grow && s.maxCode.toNat + 1 == 2 ^ s.codeWidth.toNat && s.codeWidth.toNat < maxWidth

/-- Step 6's test (`42_decode_engine.md` R181). -/
def overflows (s : State) : Bool := s.mode == .grow && s.maxCode.toNat + 1 == s.params.capacity

end Sys2Proof.Machine
end

