-- ==== Sys2Proof/Machine/BitReader.lean ====
section
/-! DEFINITION. The Bit Reader (`40_bit_reader.md`). -/

namespace Sys2Proof.Machine

/-- Shift one byte into the accumulator from the low end (`40_bit_reader.md` R121, `00_scope.md` R11 (a), (b)). -/
def shiftIn (b : Byte) (s : State) : State :=
  { s with
    acc := BitVec.ofNat 32 (s.acc.toNat * 256 + b.toNat),
    inPos := s.inPos + 1,
    bitCount := BitVec.ofNat 5 (s.bitCount.toNat + 8) }

/-- The loop of `read_bits(n)` over the unread bytes: shift bytes in until `n` bits are held (true) or the chunk runs out
(false). -/
def fill (n : Nat) : List Byte → State → Bool × State
  | [], s => (decide (n ≤ s.bitCount.toNat), s)
  | b :: rest, s => if n ≤ s.bitCount.toNat then (true, s) else fill n rest (shiftIn b s)

/-- Take the `n` oldest valid bits, leaving them in the accumulator as stale bits (`40_bit_reader.md` R123,
`00_scope.md` R11 (c)). -/
def takeBits (n : Nat) (s : State) : Code × State :=
  let left := s.bitCount.toNat - n
  (BitVec.ofNat 25 (s.acc.toNat / 2 ^ left % 2 ^ n), { s with bitCount := BitVec.ofNat 5 left })

/-- `read_bits(n)`, for `n ≤ 24` (`40_bit_reader.md` R121). -/
def readBits (n : Nat) (s : State) : BitsRead × State :=
  match fill n (unreadBytes s) s with
  | (false, s1) => (.noData, s1)
  | (true, s1) => (.code (takeBits n s1).1, (takeBits n s1).2)

/-- What the caller of `read_bits` is given back. -/
def BitsRead.returned : BitsRead → Returned
  | .code value => .code value
  | .noData => .noData

/-- The meaning of `read_bits` executed by itself: outside `0..24` a model refuses it (`40_bit_reader.md` R125 (b)). -/
def execReadBits (n : Nat) (s : State) : Host.Outcome State Fault Refusal :=
  if maxWidth < n then .refused .readBitsTooWide
  else .next { (readBits n s).2 with returned := (readBits n s).1.returned }

end Sys2Proof.Machine
end

