-- ==== Sys2Proof/Machine/Dictionary.lean ====
section
/-! DEFINITION. The Dictionary (`41_dictionary.md`): the chain walk, the append and the overflow reset. -/

namespace Sys2Proof.Machine

/-- The loop of `resolve_to_bytes`: walk the chain from `c` with `i` scratch bytes still free, writing from the end.
The start of the string, or none for Fail, and the scratch buffer written so far (`41_dictionary.md` R141, R143). -/
def walk (s : State) : Nat → Code → List Host.Cell → Option Nat × List Host.Cell
  | 0, c, m => (if c = noCode s then some 0 else none, m)
  | i + 1, c, m =>
    if c = noCode s then (some (i + 1), m)
    else
      match readEntry s c.toNat with
      | none => (none, m)
      | some e => walk s i e.prefixCode (Memory.writeByte m i e.byte)

/-- `resolve_to_bytes(code)`: where the string stands, or none for Fail; only the scratch buffer is written
(`41_dictionary.md` R141). -/
def resolveToBytes (code : Code) (s : State) : Option StringAt × State :=
  match walk s (scratchSize s) code s.scratch with
  | (none, m) => (none, { s with scratch := m })
  | (some start, m) => (some { start := start, length := scratchSize s - start }, { s with scratch := m })

/-- `add(prefix_code, trailing_byte)`: the pseudo-code of a first word, `NOCODE` for a full dictionary, or the new code
(`41_dictionary.md` R145 to R147). -/
def addEntry (prefixCode : Code) (trailingByte : Byte) (s : State) : Code × State :=
  if prefixCode = noCode s then (trailingByte.setWidth 25, s)
  else if dictionaryFull s then (noCode s, s)
  else
    let new := BitVec.ofNat 25 (s.maxCode.toNat + 1)
    (new, writeEntry new.toNat { prefixCode := prefixCode, byte := trailingByte } { s with maxCode := new })

/-- `reset()`: the literal-only dictionary at the minimum width, and no previous code; the buffered bits stay
(`41_dictionary.md` R150, R151). -/
def resetDictionary (s : State) : State :=
  { s with maxCode := 255, codeWidth := 8, prevCode := noCode s, phase := .awaitingFirstCode, dict := [] }

/-- What the caller of `resolve_to_bytes` is given back. -/
def resolvedReturned : Option StringAt → Returned
  | none => .fail
  | some r => .string r.start r.length

/-- The meaning of `resolve_to_bytes` executed by itself (`41_dictionary.md` R141). -/
def execResolveToBytes (code : Code) (s : State) : Host.Outcome State Fault Refusal :=
  .next { (resolveToBytes code s).2 with returned := resolvedReturned (resolveToBytes code s).1 }

/-- The meaning of `add` executed by itself (`41_dictionary.md` R145). -/
def execAdd (prefixCode : Code) (trailingByte : Byte) (s : State) : Host.Outcome State Fault Refusal :=
  .next { (addEntry prefixCode trailingByte s).2 with returned := .newCode (addEntry prefixCode trailingByte s).1 }

/-- The meaning of `reset` executed by itself (`41_dictionary.md` R150). -/
def execReset (s : State) : Host.Outcome State Fault Refusal := .next (resetDictionary s)

end Sys2Proof.Machine
end

