-- ==== Sys2Proof/Machine/Sink.lean ====
section
/-! DEFINITION. The Output Sink adapter (`43_output_sink.md`). -/

namespace Sys2Proof.Machine

/-- `emit(s)`: append one run to what the sink has received (`43_output_sink.md` R220); it always succeeds (R223). -/
def emitRun (run : List Byte) (s : State) : State := { s with out := s.out ++ [run] }

/-- The decoded output of the sink: all runs in order (`43_output_sink.md` R221). -/
def flatOut (s : State) : List Byte := s.out.flatten

/-- The meaning of `emit` executed by itself; its operand has at least one byte (`43_output_sink.md` R220). -/
def execEmit (run : List Byte) (s : State) : Host.Outcome State Fault Refusal :=
  if run.isEmpty then .refused .emptyRun else .next (emitRun run s)

end Sys2Proof.Machine
end

