-- ==== Sys2Proof/Machine/Words.lean ====
section
/-! DEFINITION. The Decode Engine's word classes (`42_decode_engine.md`): one meaning for each, from the state `read_bits`
left (step 1 reads the word before its class is known) to the end of step 6. -/

namespace Sys2Proof.Machine

/-! ## The parts of an iteration

An `Except State State` answers `.ok` while the iteration goes on and `.error` in the state a `raise` left. -/

/-- Resolve a code, emit its string as one run and remember the string's first byte; a failing chain raises InvalidCode
with nothing emitted (`42_decode_engine.md` R174, R175). -/
def deliver (code : Code) (s : State) : Except State State :=
  match resolveToBytes code s with
  | (none, s1) => .error (raise .invalidCode s1)
  | (some r, s1) => .ok { emitRun (scratchBytes s1 r) s1 with firstChar := readScratch s1 r.start }

/-- The deferred dictionary update: `add(prev_code, first_char)`, a full dictionary raising DictionaryFull
(`42_decode_engine.md` R174, R179). -/
def addDeferred (s : State) : Except State State :=
  if (addEntry s.prevCode s.firstChar s).1 = noCode s then
    .error (raise .dictionaryFull (addEntry s.prevCode s.firstChar s).2)
  else .ok (addEntry s.prevCode s.firstChar s).2

/-- Step 4 (`42_decode_engine.md` R178). -/
def setPrevious (code : Code) (s : State) : State := { s with prevCode := code, phase := .running }

/-- Step 5 (`42_decode_engine.md` R180). -/
def growWidth (s : State) : State :=
  if widthGrows s then { s with codeWidth := BitVec.ofNat 5 (s.codeWidth.toNat + 1) } else s

/-- Step 6 (`42_decode_engine.md` R181). -/
def handleOverflow (s : State) : State := if overflows s then resetDictionary s else s

/-- Steps 4, 5 and 6, after a class rule that raised nothing. -/
def completeWord (code : Code) (s : State) : State := handleOverflow (growWidth (setPrevious code s))

/-- The iteration's state, whether it completed or a `raise` ended it. -/
def settled : Except State State → State
  | .ok s => s
  | .error s => s

/-- The body of class FIRST (`42_decode_engine.md` R173): `add(NOCODE, first_char)` creates nothing. -/
def firstBody (code : Code) (s : State) : Except State State := do
  let s1 ← deliver code s
  return completeWord code (addEntry (noCode s1) s1.firstChar s1).2

/-- The body of class KNOWN (`42_decode_engine.md` R174): the run is emitted before the entry is added. -/
def knownBody (code : Code) (s : State) : Except State State := do
  let s1 ← deliver code s
  let s2 ← addDeferred s1
  return completeWord code s2

/-- The body of class NEXT (`42_decode_engine.md` R176): the entry is added before it is resolved. -/
def nextBody (code : Code) (s : State) : Except State State := do
  let s1 ← addDeferred s
  let s2 ← deliver code s1
  return completeWord code s2

/-- The body of class STRING (`42_decode_engine.md` R184): no `add`. -/
def stringBody (code : Code) (s : State) : Except State State := do
  let s1 ← deliver code s
  return completeWord code s1

/-! ## The meanings -/

/-- A word has its class's meaning in a state that gives it that class, and none elsewhere (`30_encoding.md` R97). -/
def whenClass (w : ReadWord) (code : Code) (s : State) (t : State) : Host.Outcome State Fault Refusal :=
  if classify (classRegs s) code = w then .next t else .refused .notOfThisClass

/-- Class FIRST (`42_decode_engine.md` R173). -/
def execFirst (code : Code) (s : State) : Host.Outcome State Fault Refusal :=
  whenClass (.first code) code s (settled (firstBody code s))

/-- Class KNOWN (`42_decode_engine.md` R174). -/
def execKnown (code : Code) (s : State) : Host.Outcome State Fault Refusal :=
  whenClass (.known code) code s (settled (knownBody code s))

/-- Class NEXT (`42_decode_engine.md` R176). -/
def execNext (code : Code) (s : State) : Host.Outcome State Fault Refusal :=
  whenClass (.next code) code s (settled (nextBody code s))

/-- Class STRING (`42_decode_engine.md` R184). -/
def execString (code : Code) (s : State) : Host.Outcome State Fault Refusal :=
  whenClass (.string code) code s (settled (stringBody code s))

/-- Class INVALID (`42_decode_engine.md` R177): InvalidCode. -/
def execInvalid (code : Code) (s : State) : Host.Outcome State Fault Refusal :=
  whenClass (.invalid code) code s (raise .invalidCode s)

/-- NODATA, after the `read_bits` that found the chunk exhausted (`42_decode_engine.md` R171). -/
def execNoData (s : State) : Host.Outcome State Fault Refusal :=
  if outOfData s.codeWidth.toNat s then
    .next (if truncated s then raise .inputTruncated s else endCommand .needMoreInput { s with phase := .exhausted })
  else .refused .notOfThisClass

end Sys2Proof.Machine
end

