-- ==== Sys2Proof/Machine/Engine.lean ====
section
/-! DEFINITION. The Decode Engine's loop (`42_decode_engine.md` R182, R183). -/

namespace Sys2Proof.Machine

/-- Step 1: read a word of `code_width_bits` bits at the stream cursor and classify it (`42_decode_engine.md` R171, R172);
none where the width is outside `read_bits`' contract (`40_bit_reader.md` R125 (b)). -/
def readWord (s : State) : Option (ReadWord × State) :=
  if maxWidth < s.codeWidth.toNat then none
  else
    match readBits s.codeWidth.toNat s with
    | (.noData, s1) => some (.noData, s1)
    | (.code code, s1) => some (classify (classRegs s1) code, s1)

/-- The class rule of a word read, and steps 4 to 6. -/
def runWord (w : ReadWord) (s : State) : Host.Outcome State Fault Refusal :=
  match w with
  | .first code => execFirst code s
  | .known code => execKnown code s
  | .next code => execNext code s
  | .string code => execString code s
  | .invalid code => execInvalid code s
  | .noData => execNoData s

/-- One iteration (`42_decode_engine.md` R183). -/
def iteration (s : State) : Host.Outcome State Fault Refusal :=
  match readWord s with
  | none => .refused .readBitsTooWide
  | some (w, s1) => runWord w s1

/-- The loop: iterations until one ends the command (`42_decode_engine.md` R182). `fuel` bounds their number; a loop it
does not suffice for never ends. -/
def engineLoop : Nat → State → Host.Outcome State Fault Refusal
  | 0, s => if s.busy then .fault .engineStuck else .next s
  | fuel + 1, s =>
    if s.busy then
      match iteration s with
      | .next t => engineLoop fuel t
      | .fault r => .fault r
      | .refused r => .refused r
    else .next s

/-- More iterations than a loop that ends can take: one that does not end the command consumes at least one bit, or, at
width 0, adds an entry; and one more ends it (`70_reset_and_hazards.md` R330 has the bound of widths from 8 up). -/
def enoughIterations (s : State) : Nat :=
  8 * (unreadBytes s).length + s.bitCount.toNat + s.params.capacity + 1

end Sys2Proof.Machine
end

