-- ==== Sys2Proof/Machine/Commands.lean ====
section
/-! DEFINITION. The host commands (`44_host_commands.md`). Each is one atomic transition (`00_scope.md` R13), and none is
issued while a command is executing (R235). -/

namespace Sys2Proof.Machine

/-- A command is taken only when no command is executing (`44_host_commands.md` R235). -/
def whenIdle (s : State) (o : Host.Outcome State Fault Refusal) : Host.Outcome State Fault Refusal :=
  if s.busy then .refused .commandInProgress else o

/-- INIT (`44_host_commands.md` R236): legal in every phase; it gives no result. -/
def execInit (s : State) : Host.Outcome State Fault Refusal :=
  whenIdle s (.next { initRegs s with outcome := .none })

/-- The learned entries a table gives, index `256 + j` for entry `j` (`44_host_commands.md` R240). -/
def tableEntries (i : Nat) : List Entry → List (Nat × Entry)
  | [] => []
  | e :: rest => (i, e) :: tableEntries (i + 1) rest

/-- RESTORE's one structural bound: the table fits the learned slots (`44_host_commands.md` R242). -/
def tableFits (entries : List Entry) (s : State) : Bool := entries.length ≤ s.params.capacity - 256

/-- An accepted table loaded over the INIT state (`44_host_commands.md` R240). -/
def loadTable (entries : List Entry) (s : State) : State :=
  { initRegs s with
    dict := tableEntries 256 entries,
    maxCode := BitVec.ofNat 25 (255 + entries.length),
    codeWidth := BitVec.ofNat 5 s.params.restoreWidth,
    mode := .stringOnly,
    outcome := .accepted }

/-- A refused table: the INIT state in phase Faulted, with DictionaryFull (`44_host_commands.md` R242). -/
def refuseTable (s : State) : State :=
  { enterFaulted .dictionaryFull (initRegs s) with outcome := .restoreFault .dictionaryFull }

/-- RESTORE (`44_host_commands.md` R240, R242). -/
def execRestore (entries : List Entry) (s : State) : Host.Outcome State Fault Refusal :=
  whenIdle s (.next (if tableFits entries s then loadTable entries s else refuseTable s))

/-- The phase a command finds the engine in: `Exhausted` was terminal only for the command that entered it
(`44_host_commands.md` R246). -/
def resumedPhase (s : State) : Phase :=
  if s.phase = .exhausted then (if s.prevCode = noCode s then .awaitingFirstCode else .running) else s.phase

/-- DECODE_CHUNK begins: the cursor at the chunk's first byte (`44_host_commands.md` R245). -/
def beginChunk (chunk : List Byte) (s : State) : State :=
  { s with phase := resumedPhase s, busy := true, chunk := chunk, inPos := 0 }

/-- The status that reports `fault_kind` (`30_encoding.md` R108: the same codes, None meaning `NeedMoreInput`). -/
def statusOf : Option FaultKind → Status
  | none => .needMoreInput
  | some kind => .fault kind

/-- DECODE_CHUNK in phase Faulted: the same fault again, and no effect (`44_host_commands.md` R249). -/
def reportFault (s : State) : State := { s with outcome := .chunk (statusOf s.faultKind) 0 }

/-- DECODE_CHUNK (`44_host_commands.md` R245). -/
def execDecodeChunk (chunk : List Byte) (s : State) : Host.Outcome State Fault Refusal :=
  whenIdle s
    (if s.phase = .faulted then .next (reportFault s)
     else engineLoop (enoughIterations (beginChunk chunk s)) (beginChunk chunk s))

/-- The reserved command code 3: not a command, and an implementation must ignore it (`30_encoding.md` R107). -/
def execReservedCmd3 (s : State) : Host.Outcome State Fault Refusal := .next s

end Sys2Proof.Machine
end

