-- ==== Sys2Proof/Machine/Dispatch.lean ====
section
/-! DEFINITION. The meaning of every instruction, one arm for each constructor of `Instr`. -/

namespace Sys2Proof.Machine

def exec (i : Instr) (s : State) : Host.Outcome State Fault Refusal :=
  match i with
  | .init => Sys2Proof.Machine.execInit s
  | .restore entries => Sys2Proof.Machine.execRestore entries s
  | .decodeChunk chunk => Sys2Proof.Machine.execDecodeChunk chunk s
  | .reservedCmd3 => Sys2Proof.Machine.execReservedCmd3 s
  | .first code => Sys2Proof.Machine.execFirst code s
  | .known code => Sys2Proof.Machine.execKnown code s
  | .next code => Sys2Proof.Machine.execNext code s
  | .string code => Sys2Proof.Machine.execString code s
  | .invalid code => Sys2Proof.Machine.execInvalid code s
  | .noData => Sys2Proof.Machine.execNoData s
  | .readBits n => Sys2Proof.Machine.execReadBits n s
  | .resolveToBytes code => Sys2Proof.Machine.execResolveToBytes code s
  | .add prefixCode trailingByte => Sys2Proof.Machine.execAdd prefixCode trailingByte s
  | .reset => Sys2Proof.Machine.execReset s
  | .emit run => Sys2Proof.Machine.execEmit run s

end Sys2Proof.Machine
end

