-- ==== Sys2Proof/Machine/Fetch.lean ====
section
/-! DEFINITION. Where the next instruction comes from: while a command executes, the word at the stream cursor; otherwise
the host's next command (`00_scope.md` R7, `44_host_commands.md` R235). -/

namespace Sys2Proof.Machine

/-- What a step finds to execute. -/
inductive Fetched where
  /-- No command executes and the host issues none: the block holds its state (`60_exceptions.md` R285). -/
  | idle
  /-- An instruction, and the state after it was fetched. -/
  | instr (i : Instr) (s : State)
  /-- The engine's width is outside the contract of `read_bits`. -/
  | tooWide

/-- Fetch. -/
def fetch (s : State) : Fetched :=
  if s.busy then
    match readWord s with
    | none => .tooWide
    | some (w, s1) => .instr w.instr s1
  else
    match s.commands with
    | [] => .idle
    | c :: rest => .instr (decodeCommand c) { s with commands := rest }

/-- `s` with a table word as the command the host issues next, in place of the one it was to issue; a block with a command
in progress takes none, so no command is in progress. -/
def placeCommand (w : Nat) (s : State) : State :=
  { s with busy := false, commands := tableCommand w :: s.commands.tail }

end Sys2Proof.Machine
end

