-- ==== Sys2Proof/Machine/Step.lean ====
section
/-! DEFINITION. One step: fetch an instruction and execute it. From an idle state a step is one whole command, an atomic
transition (`00_scope.md` R13); from a state between two iterations of a command it is the next iteration. -/

namespace Sys2Proof.Machine

def step (s : State) : Host.Outcome State Fault Refusal :=
  match fetch s with
  | .idle => .next s
  | .instr i s1 => exec i s1
  | .tooWide => .refused .readBitsTooWide

/-- `s` with a table word of `nbits` bits where the next step fetches: as the host's next command. -/
def State.withFetchWord (s : State) (_nbits w : Nat) : State := placeCommand w s

end Sys2Proof.Machine
end

