-- ==== Sys2Proof/Machine/Status.lean ====
section
/-! DEFINITION. The status port (`44_host_commands.md` R253, `10_state.md` R40): what the host may read while no command
executes, the numeric codes of the control registers, and saving a dictionary through these reads. Reads have no side
effect, so each is a function of the state. -/

namespace Sys2Proof.Machine

/-- The registers the host may read (`44_host_commands.md` R253); of the accumulator, the valid bits. -/
structure StatusView where
  phase : Phase
  faultKind : Option FaultKind
  mode : Mode
  maxCode : Code
  codeWidth : BitVec 5
  bitCount : BitVec 5
  valid : List Bool
  prevCode : Code
  firstChar : Byte
  deriving DecidableEq, Repr

/-- The status read; the host may not read while a command executes (`70_reset_and_hazards.md` R320). -/
def readStatus (s : State) : Option StatusView :=
  if s.busy then none
  else
    some
      { phase := s.phase, faultKind := s.faultKind, mode := s.mode, maxCode := s.maxCode, codeWidth := s.codeWidth,
        bitCount := s.bitCount, valid := validBits s, prevCode := s.prevCode, firstChar := s.firstChar }

/-- The dictionary read of the status port: `dict[i]` for `i ≤ max_code` (`44_host_commands.md` R253). -/
def readStatusEntry (i : Nat) (s : State) : Option Entry := if s.busy then none else readEntry s i

/-- The table a host saves: the entries `256..max_code` in index order (`44_host_commands.md` R243). -/
def savedTable (s : State) : List Entry :=
  (List.range' 256 (s.maxCode.toNat - 255)).filterMap fun i => readStatusEntry i s

/-- The code of a phase (`10_state.md` R30). -/
def Phase.code : Phase → BitVec 2
  | .awaitingFirstCode => 0
  | .running => 1
  | .exhausted => 2
  | .faulted => 3

/-- The code of `fault_kind`; as a status, 0 means `NeedMoreInput` (`10_state.md` R30, `30_encoding.md` R108). -/
def faultCode : Option FaultKind → BitVec 2
  | none => 0
  | some .dictionaryFull => 1
  | some .invalidCode => 2
  | some .inputTruncated => 3

/-- The code of a mode (`10_state.md` R30). -/
def modeCode : Mode → BitVec 1
  | .grow => 0
  | .stringOnly => 1

end Sys2Proof.Machine
end

