-- ==== Sys2Proof/Safety.lean ====
section
/-! DEFINITION. The terms claims are stated in: the string of a code, the ranges of the registers, the invariants of a
session, and what a completed word leaves behind. -/

namespace Sys2Proof.Machine

/-! ## The string of a code -/

/-- The string of a code by recursion on its chain, over at most the given number of entries: empty at `NOCODE`, none
where an entry holds no value or the chain is longer (`41_dictionary.md` R141, R143). -/
def chainBytes (s : State) : Nat → Code → Option (List Byte)
  | 0, c => if c = noCode s then some [] else none
  | k + 1, c =>
    if c = noCode s then some []
    else (readEntry s c.toNat).bind fun e => (chainBytes s k e.prefixCode).map (· ++ [e.byte])

/-- `str(c)`: the string of a code, of at most `SCRATCH_SIZE` bytes (`41_dictionary.md` R141). -/
def stringOf (s : State) (c : Code) : Option (List Byte) := chainBytes s (scratchSize s) c

/-! ## Ranges and invariants -/

/-- The ranges of the registers (`10_state.md` R20, `00_scope.md` R8). -/
structure InRange (s : State) : Prop where
  params : s.params.WF
  prev_le : s.prevCode.toNat ≤ s.params.capacity
  max_ge : 255 ≤ s.maxCode.toNat
  max_lt : s.maxCode.toNat < s.params.capacity
  width_ge : minWidth ≤ s.codeWidth.toNat
  width_le : s.codeWidth.toNat ≤ maxWidth

/-- The number of the next word in its Grow-mode epoch: word 1 has no previous code, and word `k` from 2 on is read with
`max_code + 1 = 254 + k` (`30_encoding.md` R95). -/
def epochWord (s : State) : Nat := if s.prevCode = noCode s then 1 else s.maxCode.toNat + 1 - 254

/-- The invariants of a Grow-mode session, items 1 to 5 of `10_state.md` R38. -/
structure GrowInv (s : State) : Prop where
  /-- Item 1. -/
  room : s.maxCode.toNat + 1 < s.params.capacity
  /-- Item 2. -/
  fresh : s.prevCode = noCode s → s.maxCode = 255 ∧ s.codeWidth = 8
  /-- Item 3: the previous code. -/
  prev_valid : s.prevCode ≠ noCode s → s.prevCode.toNat ≤ s.maxCode.toNat
  /-- Item 3: the width. -/
  width : s.prevCode ≠ noCode s →
    9 ≤ s.codeWidth.toNat ∧ 2 ^ (s.codeWidth.toNat - 1) ≤ s.maxCode.toNat + 1 ∧
      s.maxCode.toNat + 1 < 2 ^ s.codeWidth.toNat
  /-- Item 4: every chain goes down. -/
  chains : ∀ x ∈ s.dict, x.2.prefixCode.toNat < x.1
  /-- Item 5. -/
  first : s.prevCode ≠ noCode s → ∃ rest, stringOf s s.prevCode = some (s.firstChar :: rest)

/-- The invariant of every session, Grow or StringOnly, in every phase, between two commands and between two iterations
of a command. -/
structure SessionInv (s : State) : Prop where
  ranges : InRange s
  /-- `bit_count` is below the width of the next word (`10_state.md` R25, R38 item 7). -/
  count : s.bitCount.toNat < s.codeWidth.toNat
  /-- At most 7 bits are buffered once an iteration of the command in progress has completed (`10_state.md` R25). -/
  count_iter : s.busy = true → s.inPos ≠ 0 → s.bitCount.toNat ≤ 7
  /-- `fault_kind` is None unless the phase is Faulted (`10_state.md` R28). -/
  fault : s.phase = .faulted ↔ s.faultKind ≠ none
  /-- `10_state.md` R38 item 6. -/
  awaiting : s.phase = .awaitingFirstCode → s.prevCode = noCode s
  running : s.phase = .running → s.prevCode ≠ noCode s
  /-- The engine runs in the two phases that are not terminal (`42_decode_engine.md` R187). -/
  busy_phase : s.busy = true → s.phase = .awaitingFirstCode ∨ s.phase = .running
  /-- The learned entries that hold a value are `256..max_code` (`20_memory.md` R62). -/
  learned : s.dict.map Prod.fst = List.range' 256 (s.maxCode.toNat - 255)
  /-- The scratch buffer is in canonical form and within its size (`20_memory.md` R60). -/
  scratch : Memory.wf s.scratch ∧ ∀ c ∈ s.scratch, c.1 < scratchSize s
  /-- The cursor is in the chunk, and there is no chunk between commands (`10_state.md` R33). -/
  cursor : s.inPos ≤ s.chunk.length ∧ (s.busy = false → s.chunk = [] ∧ s.inPos = 0)
  /-- Every run the sink has received has a byte (`43_output_sink.md` R220). -/
  runs : ∀ run ∈ s.out, run ≠ []
  /-- A StringOnly session keeps the restore width (`42_decode_engine.md` R185). -/
  restored : s.mode = .stringOnly → s.codeWidth.toNat = s.params.restoreWidth
  /-- A Grow session has the invariants of `10_state.md` R38. -/
  grow : s.mode = .grow → GrowInv s

/-! ## What a word leaves behind -/

/-- What a completed word never writes. -/
def WordFrame (s t : State) : Prop :=
  t.params = s.params ∧ t.acc = s.acc ∧ t.bitCount = s.bitCount ∧ t.faultKind = s.faultKind ∧ t.mode = s.mode ∧
    t.busy = s.busy ∧ t.chunk = s.chunk ∧ t.inPos = s.inPos ∧ t.outcome = s.outcome ∧ t.returned = s.returned ∧
    t.commands = s.commands

/-- The scratch buffer of `t` holds a run at its end, and below the run and above the buffer what it held in `s`
(`20_memory.md` R72). -/
def ScratchHolds (run : List Byte) (s t : State) : Prop :=
  scratchBytes t { start := scratchSize s - run.length, length := run.length } = run ∧
    ∀ a, a < scratchSize s - run.length ∨ scratchSize s ≤ a → readScratch t a = readScratch s a

/-- One run was emitted: the sink has it, the scratch buffer holds it, and its first byte is remembered
(`42_decode_engine.md` R174). -/
def RunEmitted (run : List Byte) (s t : State) : Prop :=
  t.out = s.out ++ [run] ∧ run.head? = some t.firstChar ∧ ScratchHolds run s t

/-- Steps 4 to 6 in Grow mode, for a word of code `code` whose class rule left `max_code` at `m`
(`42_decode_engine.md` R178, R180, R181). -/
def GrowStepsDone (code : Code) (m : Nat) (s t : State) : Prop :=
  if m + 1 = s.params.capacity then
    t.prevCode = noCode s ∧ t.phase = .awaitingFirstCode ∧ t.maxCode = 255 ∧ t.codeWidth = 8
  else
    t.prevCode = code ∧ t.phase = .running ∧ t.maxCode.toNat = m ∧
      t.codeWidth.toNat =
        if m + 1 = 2 ^ s.codeWidth.toNat ∧ s.codeWidth.toNat < maxWidth then s.codeWidth.toNat + 1
        else s.codeWidth.toNat

/-- The dictionary gained the entry of index `max_code + 1` and no other, unless the overflow reset took every learned
entry's value (`42_decode_engine.md` R174, R181). -/
def EntryAdded (e : Entry) (s t : State) : Prop :=
  ∀ i, readEntry t i =
    if s.maxCode.toNat + 2 = s.params.capacity ∧ 256 ≤ i then none
    else if i = s.maxCode.toNat + 1 then some e
    else readEntry s i

/-- A fault of this kind ended the command in progress, and wrote nothing else over the state `u` it was raised in
(`60_exceptions.md` R275). -/
def FaultEnds (kind : FaultKind) (u t : State) : Prop :=
  t = { u with
        phase := .faulted, faultKind := some kind, busy := false, outcome := .chunk (.fault kind) u.inPos,
        chunk := [], inPos := 0 }

/-- Two states that differ only in bits of the accumulator that are not valid (`10_state.md` R24). -/
def SameButStale (s t : State) : Prop := t = { s with acc := t.acc } ∧ validBits t = validBits s

/-- Two answers of a step that are the same stop, or next states in a relation. -/
def SameAnswer (r : State → State → Prop) : Host.Outcome State Fault Refusal → Host.Outcome State Fault Refusal → Prop
  | .next s, .next t => r s t
  | .fault a, .fault b => a = b
  | .refused a, .refused b => a = b
  | _, _ => False

end Sys2Proof.Machine
end

