-- ==== Sys2Proof/Certificates/Slice0/Obligations.lean ====
section
/-! DEFINITION. The statements for the provers. Each docstring names the rules of the spec it states, or the sections it
rests on. -/

open Sys2Proof Sys2Proof.Machine Host.Outcome

/-! ## Encodings -/

/-- The four command codes (`30_encoding.md` R107), the example of `pack` (R105) and the words read back from its bytes
(R92) decode to what they stand for. -/
def Obligations.SampleWordsDecode : Prop :=
  decodeTableWord 8 0 = some .init ∧ decodeTableWord 8 1 = some (.restore []) ∧
    decodeTableWord 8 2 = some (.decodeChunk []) ∧ decodeTableWord 8 3 = some .reservedCmd3 ∧
    pack [⟨0x41, 8⟩, ⟨0x100, 9⟩, ⟨0x41, 9⟩] = [0x41, 0x80, 0x10, 0x40] ∧
    wordAt [0x41, 0x80, 0x10, 0x40] 0 8 = 0x41 ∧ wordAt [0x41, 0x80, 0x10, 0x40] 8 9 = 0x100 ∧
    wordAt [0x41, 0x80, 0x10, 0x40] 17 9 = 0x41 ∧
    decode ⟨.grow, 255, 65536, 65536⟩ (.word [false, true, false, false, false, false, false, true]) =
      some (.first 0x41) ∧
    decode ⟨.grow, 255, 0x54, 65536⟩ (.word [false, false, true, false, false, true, true, true, true]) =
      some (.known 0x4F) ∧
    decode ⟨.grow, 255, 0x41, 65536⟩ (.word [true, false, false, false, false, false, false, false, false]) =
      some (.next 0x100) ∧
    decode ⟨.grow, 255, 0x41, 65536⟩ (.word [true, false, false, false, false, false, false, false, true]) =
      some (.invalid 0x101) ∧
    decode ⟨.stringOnly, 257, 65536, 65536⟩ (.word (wordBits 17 257)) = some (.string 257)

/-- Decode and encode agree: a command with its operands, and a word of any class at any width of the word formats, decodes
to the instruction it encodes, and the bits of a decoded word are those of its encoding; an internal operation has no encoded
form (`30_encoding.md` R91, R92, R97, R107). -/
def Obligations.DecodeEncodeAgree : Prop :=
  ∀ (r : ClassRegs) (w : Nat), 8 ≤ w → w ≤ 24 →
    (∀ i, (i = .init ∨ (∃ entries, i = .restore entries) ∨ (∃ chunk, i = .decodeChunk chunk) ∨ i = .reservedCmd3) →
      decode r (encode w i) = some i) ∧
    (∀ code : Code, code.toNat < 2 ^ w →
      decode r (encode w (classify r code).instr) = some (classify r code).instr) ∧
    (∀ bits i, bits.length = w → decode r (.word bits) = some i → encode w i = .word bits) ∧
    (∀ i, encode w i = .internal → decode r (encode w i) = none)

/-- The class of a word (`30_encoding.md` R97, R100): the five conditions in numbers, for any registers. -/
def Obligations.WordClassByRegisters : Prop :=
  ∀ (r : ClassRegs) (c : Code),
    (classify r c = .first c ↔ r.mode = .grow ∧ r.prevCode = r.noCode ∧ c.toNat ≤ r.maxCode.toNat) ∧
    (classify r c = .known c ↔ r.mode = .grow ∧ r.prevCode ≠ r.noCode ∧ c.toNat ≤ r.maxCode.toNat) ∧
    (classify r c = .next c ↔ r.mode = .grow ∧ r.prevCode ≠ r.noCode ∧ c.toNat = r.maxCode.toNat + 1) ∧
    (classify r c = .string c ↔ r.mode = .stringOnly ∧ c.toNat ≤ r.maxCode.toNat) ∧
    (classify r c = .invalid c ↔
      r.maxCode.toNat + 1 < c.toNat ∨
        (c.toNat = r.maxCode.toNat + 1 ∧ (r.mode = .stringOnly ∨ r.prevCode = r.noCode)))

/-- Decode and encode agree through the machine: wherever the next word of a stream starts, on a byte boundary or inside a
byte, the engine's step 1 reads it at its width and leaves the words behind it, and whatever bits follow them, to be read in
the same way; a step executes the word in its class; and a packed stream is such a stream, padded with fewer than 8 zero bits
(`30_encoding.md` R92, R105). -/
def Obligations.PackedWordIsFetched : Prop :=
  (∀ (s : State) (x : CodeWord) (rest : List CodeWord) (more : List Bool),
    8 ≤ x.width → x.width ≤ 24 → x.value < 2 ^ x.width → s.codeWidth.toNat = x.width →
    validBits s ++ streamBits (unreadBytes s) = wordsBits (x :: rest) ++ more →
    ∃ t, readWord s = some (classify (classRegs s) (BitVec.ofNat 25 x.value), t) ∧
      validBits t ++ streamBits (unreadBytes t) = wordsBits rest ++ more ∧
      t = { s with acc := t.acc, bitCount := t.bitCount, inPos := t.inPos } ∧
      (s.busy = true → step s = exec (classify (classRegs s) (BitVec.ofNat 25 x.value)).instr t)) ∧
  ∀ words : List CodeWord, ∃ pad, pad < 8 ∧ streamBits (pack words) = wordsBits words ++ List.replicate pad false

/-- The numeric codes of the control registers (`10_state.md` R30) name each value once. -/
def Obligations.ControlCodes : Prop :=
  (Phase.code .awaitingFirstCode = 0 ∧ Phase.code .running = 1 ∧ Phase.code .exhausted = 2 ∧ Phase.code .faulted = 3) ∧
    (faultCode none = 0 ∧ faultCode (some .dictionaryFull) = 1 ∧ faultCode (some .invalidCode) = 2 ∧
      faultCode (some .inputTruncated) = 3) ∧
    (modeCode .grow = 0 ∧ modeCode .stringOnly = 1)

/-! ## The Bit Reader -/

/-- `read_bits(n)` reads the stream (`30_encoding.md` R92, `40_bit_reader.md` R121 to R123): with the valid bits and the
chunk's unread bits in order, it gives the first `n` as a number, most significant first, and leaves the others; where there
are fewer, it gives NoData, and the chunk's bits are all buffered. Nothing but the accumulator, `bit_count` and `in_pos` is
written, and the result returned, in the model's own field (log entry 3). -/
def Obligations.ReadBitsReadsTheStream : Prop :=
  ∀ (n : Nat) (s : State), n ≤ 24 → s.inPos ≤ s.chunk.length →
    ∃ t, exec (.readBits n) s = next t ∧
      t = { s with acc := t.acc, bitCount := t.bitCount, inPos := t.inPos, returned := t.returned } ∧
      if n ≤ (validBits s ++ streamBits (unreadBytes s)).length then
        t.returned = .code (BitVec.ofNat 25 (bitsValue ((validBits s ++ streamBits (unreadBytes s)).take n))) ∧
        validBits t ++ streamBits (unreadBytes t) = (validBits s ++ streamBits (unreadBytes s)).drop n
      else
        t.returned = .noData ∧ validBits t = validBits s ++ streamBits (unreadBytes s) ∧
        t.inPos = s.chunk.length

/-- How many bytes `read_bits(n)` takes, and what it leaves buffered (`40_bit_reader.md` R121, R122, R124). -/
def Obligations.ReadBitsTakesBytesItNeeds : Prop :=
  ∀ (n : Nat) (s : State), n ≤ 24 →
    ∃ t, exec (.readBits n) s = next t ∧
      let needed := (n - s.bitCount.toNat + 7) / 8
      if needed ≤ (unreadBytes s).length then
        t.inPos = s.inPos + needed ∧ t.bitCount.toNat = s.bitCount.toNat + 8 * needed - n ∧
          (s.bitCount.toNat < n → t.bitCount.toNat ≤ 7)
      else
        t.inPos = s.inPos + (unreadBytes s).length ∧
          t.bitCount.toNat = s.bitCount.toNat + 8 * (unreadBytes s).length ∧ t.bitCount.toNat < n

/-- The corner cases of `read_bits` (`40_bit_reader.md` R125), and the widths the engine calls it with, never 0 and never above
24. -/
def Obligations.ReadBitsCorners : Prop :=
  ∀ (n : Nat) (s : State),
    exec (.readBits 0) s = next { s with returned := .code 0 } ∧
    (24 < n → exec (.readBits n) s = refused .readBitsTooWide) ∧
    (n ≤ 24 → s.bitCount.toNat < n → s.chunk = [] → s.inPos = 0 →
      exec (.readBits n) s = next { s with returned := .noData }) ∧
    (n ≤ 24 → n ≤ s.bitCount.toNat →
      exec (.readBits n) s =
        next { s with
          bitCount := BitVec.ofNat 5 (s.bitCount.toNat - n),
          returned := .code (BitVec.ofNat 25 (bitsValue ((validBits s).take n))) }) ∧
    (SessionInv s → s.codeWidth.toNat ≠ 0 ∧ s.codeWidth.toNat ≤ 24)

/-! ## The Dictionary -/

/-- Which indices hold a value (`20_memory.md` R61, R62): the literals, and `256..max_code`. -/
def Obligations.EntriesThatHoldAValue : Prop :=
  ∀ (s : State), SessionInv s →
    (∀ i, i ≤ 255 → readEntry s i = some { prefixCode := noCode s, byte := BitVec.ofNat 8 i }) ∧
    (∀ i, 256 ≤ i → ((readEntry s i).isSome = true ↔ i ≤ s.maxCode.toNat))

/-- `resolve_to_bytes` (`41_dictionary.md` R141, R142): where the chain's string exists it stands at the end of the scratch
buffer, and Fail is given where it does not; no register, no entry and no run is written. -/
def Obligations.ResolveLeavesTheString : Prop :=
  ∀ (code : Code) (s : State),
    ∃ t, exec (.resolveToBytes code) s = next t ∧
      t = { s with scratch := t.scratch, returned := t.returned } ∧
      match stringOf s code with
      | some bytes =>
        t.returned = .string (scratchSize s - bytes.length) bytes.length ∧ bytes.length ≤ scratchSize s ∧
          (code ≠ noCode s → 1 ≤ bytes.length) ∧ ScratchHolds bytes s t
      | none => t.returned = .fail

/-- The string of a literal, and the string of a learned entry by its chain (`41_dictionary.md` R141, R142). -/
def Obligations.StringByTheChain : Prop :=
  ∀ (s : State) (c : Code), SessionInv s → s.mode = .grow → c.toNat ≤ s.maxCode.toNat →
    (c.toNat ≤ 255 → stringOf s c = some [BitVec.ofNat 8 c.toNat]) ∧
    (256 ≤ c.toNat → ∃ e bytes, readEntry s c.toNat = some e ∧ stringOf s e.prefixCode = some bytes ∧
      stringOf s c = some (bytes ++ [e.byte]) ∧ bytes.length + 1 ≤ c.toNat - 254)

/-- A walk fails on a chain that turns back on itself, and on a prefix that holds no value (`41_dictionary.md` R143). -/
def Obligations.CorruptChainFails : Prop :=
  ∀ (s : State) (c : Code) (e : Entry), c ≠ noCode s → readEntry s c.toNat = some e →
    (e.prefixCode = c ∨ (e.prefixCode ≠ noCode s ∧ readEntry s e.prefixCode.toNat = none)) →
    ∃ t, exec (.resolveToBytes c) s = next t ∧ t.returned = .fail ∧
      t = { s with scratch := t.scratch, returned := .fail }

/-- `add` (`41_dictionary.md` R145 to R147): the sentinel's pseudo-code, the full dictionary's `NOCODE`, and the new entry,
with every other entry as it was. -/
def Obligations.AddThreePaths : Prop :=
  ∀ (p : Code) (b : Byte) (s : State), InRange s →
    ∃ t, exec (.add p b) s = next t ∧
      if p = noCode s then
        t = { s with returned := .newCode (b.setWidth 25) } ∧ (b.setWidth 25).toNat ≤ 255 ∧ b.setWidth 25 ≠ noCode s
      else if s.params.capacity ≤ s.maxCode.toNat + 1 then t = { s with returned := .newCode (noCode s) }
      else
        t = { s with
              maxCode := BitVec.ofNat 25 (s.maxCode.toNat + 1), dict := t.dict,
              returned := .newCode (BitVec.ofNat 25 (s.maxCode.toNat + 1)) } ∧
        t.maxCode.toNat = s.maxCode.toNat + 1 ∧
        ∀ i, readEntry t i =
          if i = s.maxCode.toNat + 1 then some { prefixCode := p, byte := b } else readEntry s i

/-- `reset()` (`41_dictionary.md` R150, R151): four registers written, every learned entry without a value, and all else
as it was. -/
def Obligations.ResetLeavesLiteralsAlone : Prop :=
  ∀ (s : State),
    ∃ t, exec .reset s = next t ∧
      t = { s with
            maxCode := 255, codeWidth := 8, prevCode := noCode s, phase := .awaitingFirstCode, dict := t.dict } ∧
      ∀ i, readEntry t i = if i ≤ 255 then readEntry s i else none

/-! ## The Output Sink -/

/-- `emit` appends one run and writes nothing else (`43_output_sink.md` R220); the decoded output grows by its bytes
(R221). An empty run is outside the operand's range and stops by name (log entry 11). -/
def Obligations.EmitAppendsOneRun : Prop :=
  ∀ (run : List Byte) (s : State),
    (run ≠ [] → exec (.emit run) s = next { s with out := s.out ++ [run] } ∧
      flatOut { s with out := s.out ++ [run] } = flatOut s ++ run) ∧
    exec (.emit []) s = refused .emptyRun

/-! ## The word classes -/

/-- Class FIRST (`42_decode_engine.md` R173, with steps 4 to 6): one run, no entry. -/
def Obligations.FirstWordEffect : Prop :=
  ∀ (code : Code) (s : State) (run : List Byte), InRange s →
    s.mode = .grow → s.prevCode = noCode s → code.toNat ≤ s.maxCode.toNat → stringOf s code = some run →
    ∃ t, exec (.first code) s = next t ∧ RunEmitted run s t ∧ GrowStepsDone code s.maxCode.toNat s t ∧
      (∀ i, readEntry t i =
        if s.maxCode.toNat + 1 = s.params.capacity ∧ 256 ≤ i then none else readEntry s i) ∧
      WordFrame s t

/-- Class KNOWN (`42_decode_engine.md` R174, with steps 4 to 6): one run, then the deferred entry. -/
def Obligations.KnownWordEffect : Prop :=
  ∀ (code : Code) (s : State) (b : Byte) (rest : List Byte), InRange s →
    s.mode = .grow → s.prevCode ≠ noCode s → code.toNat ≤ s.maxCode.toNat →
    s.maxCode.toNat + 1 < s.params.capacity → stringOf s code = some (b :: rest) →
    ∃ t, exec (.known code) s = next t ∧ RunEmitted (b :: rest) s t ∧
      GrowStepsDone code (s.maxCode.toNat + 1) s t ∧ EntryAdded { prefixCode := s.prevCode, byte := b } s t ∧
      WordFrame s t

/-- Class NEXT, the KwKwK case (`42_decode_engine.md` R176, with steps 4 to 6): the entry first, then the run it is, the
previous string with the remembered first byte behind it. -/
def Obligations.NextWordEffect : Prop :=
  ∀ (code : Code) (s : State) (last : List Byte), InRange s →
    s.mode = .grow → s.prevCode ≠ noCode s → code.toNat = s.maxCode.toNat + 1 →
    s.maxCode.toNat + 1 < s.params.capacity → stringOf s s.prevCode = some last → last.length < s.params.capacity →
    ∃ t, exec (.next code) s = next t ∧ RunEmitted (last ++ [s.firstChar]) s t ∧
      GrowStepsDone code (s.maxCode.toNat + 1) s t ∧
      EntryAdded { prefixCode := s.prevCode, byte := s.firstChar } s t ∧ WordFrame s t

/-- Class STRING (`42_decode_engine.md` R184, R185): one run, and neither the dictionary nor the width moves. -/
def Obligations.StringWordEffect : Prop :=
  ∀ (code : Code) (s : State) (run : List Byte), InRange s →
    s.mode = .stringOnly → code.toNat ≤ s.maxCode.toNat → stringOf s code = some run →
    ∃ t, exec (.string code) s = next t ∧ RunEmitted run s t ∧
      t = { s with
            out := t.out, firstChar := t.firstChar, scratch := t.scratch, prevCode := code, phase := .running }

/-- Class INVALID (`42_decode_engine.md` R177, `60_exceptions.md` R275): InvalidCode, and nothing emitted or added. -/
def Obligations.InvalidWordRaises : Prop :=
  ∀ (code : Code) (s : State),
    s.maxCode.toNat + 1 < code.toNat ∨
      (code.toNat = s.maxCode.toNat + 1 ∧ (s.mode = .stringOnly ∨ s.prevCode = noCode s)) →
    ∃ t, exec (.invalid code) s = next t ∧ FaultEnds .invalidCode s t

/-- NODATA (`42_decode_engine.md` R171): the end of the chunk ends the command, clean in a relaxed build and where no bit
is buffered, and with InputTruncated in a strict build otherwise. -/
def Obligations.NoDataEndsTheCommand : Prop :=
  ∀ (s : State), unreadBytes s = [] → s.bitCount.toNat < s.codeWidth.toNat →
    ∃ t, exec .noData s = next t ∧
      if s.params.strictEof = true ∧ s.bitCount ≠ 0 then FaultEnds .inputTruncated s t
      else t = { s with
                 phase := .exhausted, busy := false, outcome := .chunk .needMoreInput s.inPos, chunk := [], inPos := 0 }

/-- DictionaryFull (`42_decode_engine.md` R179, `60_exceptions.md` R271 (a), R276): a KNOWN word has delivered its run, a
NEXT word nothing; no entry is added. -/
def Obligations.FullDictionaryRaises : Prop :=
  ∀ (code : Code) (s : State) (run : List Byte), InRange s →
    s.mode = .grow → s.prevCode ≠ noCode s → s.params.capacity ≤ s.maxCode.toNat + 1 →
    (code.toNat ≤ s.maxCode.toNat → stringOf s code = some run →
      ∃ u t, exec (.known code) s = next t ∧ RunEmitted run s u ∧
        u = { s with out := u.out, firstChar := u.firstChar, scratch := u.scratch } ∧
        FaultEnds .dictionaryFull u t) ∧
    (code.toNat = s.maxCode.toNat + 1 → ∃ t, exec (.next code) s = next t ∧ FaultEnds .dictionaryFull s t)

/-- A corrupt or dangling chain in class FIRST, KNOWN or STRING (`42_decode_engine.md` R175, `60_exceptions.md` R276):
InvalidCode with nothing emitted, no entry added, and no register written but those of the fault. -/
def Obligations.CorruptChainRaises : Prop :=
  ∀ (code : Code) (s : State) (i : Instr), InRange s → code.toNat ≤ s.maxCode.toNat → stringOf s code = none →
    (s.mode = .stringOnly ∧ i = .string code) ∨ (s.mode = .grow ∧ s.prevCode = noCode s ∧ i = .first code) ∨
      (s.mode = .grow ∧ s.prevCode ≠ noCode s ∧ i = .known code) →
    ∃ t u, exec i s = next t ∧ u = { s with scratch := u.scratch } ∧ FaultEnds .invalidCode u t

/-- A corrupt or dangling chain in class NEXT (`42_decode_engine.md` R175, `60_exceptions.md` R276): the entry has been added
and stays, and nothing is emitted. -/
def Obligations.CorruptChainInNextRaises : Prop :=
  ∀ (code : Code) (s : State), InRange s → s.mode = .grow → s.prevCode ≠ noCode s →
    code.toNat = s.maxCode.toNat + 1 → s.maxCode.toNat + 1 < s.params.capacity → stringOf s s.prevCode = none →
    ∃ t u, exec (.next code) s = next t ∧ FaultEnds .invalidCode u t ∧
      u = { s with maxCode := code, dict := u.dict, scratch := u.scratch } ∧
      ∀ i, readEntry u i =
        if i = code.toNat then some { prefixCode := s.prevCode, byte := s.firstChar } else readEntry s i

/-- A word of another class than the state gives it stops by name, and so does NODATA where the chunk is not exhausted: what
stands at the cursor is decided by the state (`30_encoding.md` R97). The stop is the model's choice (log entry 6). -/
def Obligations.WordOfAnotherClassStops : Prop :=
  ∀ (w : ReadWord) (code : Code) (s : State),
    ((w = .first code ∨ w = .known code ∨ w = .next code ∨ w = .string code ∨ w = .invalid code) →
      classify (classRegs s) code ≠ w → exec w.instr s = refused .notOfThisClass) ∧
    (unreadBytes s ≠ [] ∨ s.codeWidth.toNat ≤ s.bitCount.toNat → exec .noData s = refused .notOfThisClass)

/-! ## The host commands -/

/-- INIT (`44_host_commands.md` R236): legal in every phase; every register at the value a hardware reset gives it, no learned
entry, the sink left alone, no result. Nothing is said of the scratch buffer, which the spec leaves unspecified. -/
def Obligations.InitEffect : Prop :=
  ∀ (s : State), s.busy = false →
    ∃ t, exec .init s = next t ∧
      t = { s with
            prevCode := noCode s, maxCode := 255, codeWidth := 8, acc := 0, bitCount := 0, firstChar := 0,
            mode := .grow, phase := .awaitingFirstCode, faultKind := none, dict := t.dict, scratch := t.scratch,
            outcome := .none } ∧
      (∀ i, 256 ≤ i → readEntry t i = none) ∧
      t = { State.resetWith s.params with
            scratch := t.scratch, chunk := s.chunk, inPos := s.inPos, out := s.out, returned := s.returned,
            commands := s.commands }

/-- Hardware reset (`70_reset_and_hazards.md` R310): the block is as INIT leaves it, every register at its value, no learned
entry; it waits for a command. Three things here are the model's own: the sink's list of runs starts empty (log entry 18),
the queue of commands starts empty, so that a step changes nothing (log entry 2), and no command is in progress (log entries 5
and 15). -/
def Obligations.ResetIsInit : Prop :=
  ∀ (p : Params),
    (∃ t, exec .init (State.resetWith p) = next t ∧ t = { State.resetWith p with scratch := t.scratch }) ∧
      step (State.resetWith p) = next (State.resetWith p) ∧ (State.resetWith p).out = [] ∧
      (State.resetWith p).busy = false ∧ (State.resetWith p).maxCode = 255 ∧ (State.resetWith p).codeWidth = 8 ∧
      (State.resetWith p).prevCode = p.noCode ∧ (State.resetWith p).acc = 0 ∧ (State.resetWith p).bitCount = 0 ∧
      (State.resetWith p).firstChar = 0 ∧ (State.resetWith p).phase = .awaitingFirstCode ∧
      (State.resetWith p).faultKind = none ∧ (State.resetWith p).mode = .grow ∧
      ∀ i, 256 ≤ i → readEntry (State.resetWith p) i = none

/-- RESTORE accepted (`44_host_commands.md` R240): the table at indices 256 upward, whatever its prefixes are (R241), at the
restore width, in StringOnly mode. -/
def Obligations.RestoreAccepted : Prop :=
  ∀ (entries : List Entry) (s : State), s.busy = false → s.params.WF →
    entries.length ≤ s.params.capacity - 256 →
    ∃ t, exec (.restore entries) s = next t ∧
      t = { s with
            prevCode := noCode s, maxCode := t.maxCode, codeWidth := t.codeWidth, acc := 0, bitCount := 0,
            firstChar := 0, mode := .stringOnly, phase := .awaitingFirstCode, faultKind := none, dict := t.dict,
            scratch := t.scratch, outcome := .accepted } ∧
      t.maxCode.toNat = 255 + entries.length ∧ t.codeWidth.toNat = s.params.restoreWidth ∧
      (∀ j, 256 + j < 256 + entries.length → readEntry t (256 + j) = entries[j]?) ∧
      ∀ i, 256 + entries.length ≤ i → readEntry t i = none

/-- RESTORE refused (`44_host_commands.md` R242): a table of more entries than learned slots loads nothing and leaves the
INIT state in phase Faulted. -/
def Obligations.RestoreRefused : Prop :=
  ∀ (entries : List Entry) (s : State), s.busy = false → s.params.capacity - 256 < entries.length →
    ∃ t, exec (.restore entries) s = next t ∧
      t = { s with
            prevCode := noCode s, maxCode := 255, codeWidth := 8, acc := 0, bitCount := 0, firstChar := 0,
            mode := .grow, phase := .faulted, faultKind := some .dictionaryFull, dict := t.dict, scratch := t.scratch,
            outcome := .restoreFault .dictionaryFull } ∧
      ∀ i, 256 ≤ i → readEntry t i = none

/-- DECODE_CHUNK in phase Faulted (`44_host_commands.md` R249): the same fault with count 0, and no other change; INIT and an
accepted RESTORE are the ways out. -/
def Obligations.FaultedChunkReports : Prop :=
  ∀ (chunk : List Byte) (s : State) (kind : FaultKind), s.busy = false → s.phase = .faulted →
    s.faultKind = some kind →
    exec (.decodeChunk chunk) s = next { s with outcome := .chunk (.fault kind) 0 } ∧
    (∃ t, exec .init s = next t ∧ t.phase = .awaitingFirstCode) ∧
    (∃ t, exec (.restore []) s = next t ∧ t.phase = .awaitingFirstCode)

/-- An empty chunk (`44_host_commands.md` R251). -/
def Obligations.EmptyChunkEnds : Prop :=
  ∀ (s : State), SessionInv s → s.busy = false → s.phase ≠ .faulted →
    ∃ t, exec (.decodeChunk []) s = next t ∧
      if s.params.strictEof = true ∧ s.bitCount ≠ 0 then
        t = { s with
              phase := .faulted, faultKind := some .inputTruncated, outcome := .chunk (.fault .inputTruncated) 0 }
      else t = { s with phase := .exhausted, outcome := .chunk .needMoreInput 0 }

/-- Resumption (`44_host_commands.md` R246): a command that finds phase Exhausted does what it does from the phase the
previous code gives, AwaitingFirstCode or Running; after INIT or an accepted RESTORE a command finds AwaitingFirstCode. -/
def Obligations.ExhaustedResumes : Prop :=
  ∀ (chunk : List Byte) (s : State),
    (s.phase = .exhausted →
      exec (.decodeChunk chunk) s =
        exec (.decodeChunk chunk)
          { s with phase := if s.prevCode = noCode s then .awaitingFirstCode else .running }) ∧
    ∀ t, (exec .init s = next t ∨ ∃ entries, exec (.restore entries) s = next t ∧ t.outcome = .accepted) →
      t.phase = .awaitingFirstCode

/-- DECODE_CHUNK always ends (`42_decode_engine.md` R182), with `(NeedMoreInput, in_len)` in phase Exhausted or with
`(Fault(K), count)` in phase Faulted (`44_host_commands.md` R247, R248). -/
def Obligations.ChunkAlwaysEnds : Prop :=
  ∀ (chunk : List Byte) (s : State), SessionInv s → s.busy = false → s.phase ≠ .faulted →
    ∃ t, exec (.decodeChunk chunk) s = next t ∧ t.busy = false ∧
      ((t.outcome = .chunk .needMoreInput chunk.length ∧ t.phase = .exhausted ∧ t.faultKind = none) ∨
        ∃ kind count, t.outcome = .chunk (.fault kind) count ∧ t.phase = .faulted ∧ t.faultKind = some kind ∧
          count ≤ chunk.length ∧
          (kind = .inputTruncated → s.params.strictEof = true ∧ count = chunk.length) ∧
          (kind ≠ .inputTruncated → 1 ≤ count))

/-- DECODE_CHUNK completes in every state whose width is one `read_bits` takes and that reads at least one bit, whatever the
other registers and the dictionary hold; a width above 24 is outside the contract and stops by name (`42_decode_engine.md`
R182, `40_bit_reader.md` R125 (b), log entry 10). -/
def Obligations.ChunkCompletesAtEveryWidth : Prop :=
  ∀ (chunk : List Byte) (s : State), s.busy = false → s.phase ≠ .faulted →
    (1 ≤ s.codeWidth.toNat → s.codeWidth.toNat ≤ 24 → ∃ t, exec (.decodeChunk chunk) s = next t ∧ t.busy = false) ∧
    (24 < s.codeWidth.toNat → exec (.decodeChunk chunk) s = refused .readBitsTooWide)

/-- The reserved command code is ignored (`30_encoding.md` R107), and the three commands are not taken while one is
executing (`44_host_commands.md` R235); the stop is the model's form of that (log entry 19). -/
def Obligations.CommandsWhileBusy : Prop :=
  ∀ (s : State) (entries : List Entry) (chunk : List Byte),
    exec .reservedCmd3 s = next s ∧
    (s.busy = true → exec .init s = refused .commandInProgress ∧
      exec (.restore entries) s = refused .commandInProgress ∧
      exec (.decodeChunk chunk) s = refused .commandInProgress)

/-! ## Steps -/

/-- A step runs the decoded instruction: the host's next command when the block is idle, the word at the stream cursor when
a command is executing, and nothing when no command comes. The queue of commands is the model's (log entry 2). -/
def Obligations.StepRunsTheDecoded : Prop :=
  ∀ (s : State),
    (s.busy = false → s.commands = [] → step s = next s) ∧
    (∀ c rest, s.busy = false → s.commands = c :: rest →
      step s = exec (decodeCommand c) { s with commands := rest }) ∧
    (∀ w t, s.busy = true → readWord s = some (w, t) → step s = exec w.instr t) ∧
    (s.busy = true → readWord s = none → step s = refused .readBitsTooWide) ∧
    (∀ nbits w i, decodeTableWord nbits w = some i →
      step (s.withFetchWord nbits w) = exec i { s with busy := false, commands := s.commands.tail })

/-- Every step keeps the invariant, over all of its clauses (`10_state.md` R38, R25, R28; `20_memory.md` R62). -/
def Obligations.StepKeepsInvariant : Prop :=
  ∀ (s t : State), SessionInv s → step s = next t → SessionInv t

/-- The machine right after reset meets the invariant, whatever parameters it was built with. -/
def Obligations.ResetMeetsInvariant : Prop := ∀ (p : Params), p.WF → SessionInv (State.resetWith p)

/-- A state that meets the invariant never stops: a step answers a next state, whatever the host issues and whatever the
chunk holds. -/
def Obligations.StepNeverStops : Prop := ∀ (s : State), SessionInv s → ∃ t, step s = next t

/-- The atomic command is its iterations (`00_scope.md` R13, `42_decode_engine.md` R182): DECODE_CHUNK answers exactly the
state in which the step-by-step run of its words first has no command executing (the steps inside a command are the model's,
log entry 5). -/
def Obligations.ChunkIsItsIterations : Prop :=
  ∀ (chunk : List Byte) (s t : State), s.busy = false → s.phase ≠ .faulted → s.codeWidth ≠ 0 →
    (exec (.decodeChunk chunk) s = next t ↔
      ∃ k, core.run k (beginChunk chunk s) = next t ∧ t.busy = false ∧
        ∀ j, j < k → ∃ u, core.run j (beginChunk chunk s) = next u ∧ u.busy = true)

/-- Chunk-boundary invariance (`44_host_commands.md` R250): two chunks one after the other do what their concatenation does,
with the same runs, the same state, the same fault and a count that names the same byte. In a relaxed build this is so of any
two chunks; in a strict build it is so unless the first ends with bits buffered, which is InputTruncated there
(`90_conflicts.md` C4). -/
def Obligations.ChunkBoundaryInvariance : Prop :=
  ∀ (x y : List Byte) (s t1 t2 t : State), SessionInv s → s.busy = false → s.phase ≠ .faulted →
    exec (.decodeChunk x) s = next t1 → exec (.decodeChunk y) t1 = next t2 →
    exec (.decodeChunk (x ++ y)) s = next t →
    (t1.faultKind = some .inputTruncated → s.params.strictEof = true ∧ t1.bitCount ≠ 0) ∧
    (s.params.strictEof = true → t1.phase ≠ .faulted → t1.bitCount = 0) ∧
    (t1.phase = .faulted → t2 = { t1 with outcome := .chunk (statusOf t1.faultKind) 0 } ∧
      (t1.faultKind ≠ some .inputTruncated → t = t1)) ∧
    (t1.phase ≠ .faulted → t2 = { t with outcome := t2.outcome } ∧
      ∃ status count, t2.outcome = .chunk status count ∧ t.outcome = .chunk status (x.length + count))

/-- The stale bits of the accumulator are no architectural state (`10_state.md` R24): from two states that differ only
there, a step gives the same answer, up to stale bits. -/
def Obligations.StaleBitsAreInvisible : Prop :=
  ∀ (s t : State), SameButStale s t → SameAnswer SameButStale (step s) (step t)

/-- One completed iteration in Grow mode (`42_decode_engine.md` R188): exactly one run of at least one byte, and exactly one
new entry, but none for the first word of an epoch; entries that hold a value keep it (`20_memory.md` R64) unless the
overflow reset takes it. -/
def Obligations.IterationEmitsOneRun : Prop :=
  ∀ (s t : State), SessionInv s → s.mode = .grow → s.busy = true → step s = next t → t.busy = true →
    (∃ run, run ≠ [] ∧ t.out = s.out ++ [run]) ∧
    let m := if s.prevCode = noCode s then s.maxCode.toNat else s.maxCode.toNat + 1
    if m + 1 = s.params.capacity then t.maxCode = 255 ∧ t.prevCode = noCode s
    else t.maxCode.toNat = m ∧ ∀ i, i ≤ s.maxCode.toNat → readEntry t i = readEntry s i

/-- The width schedule of Grow mode in closed form (`30_encoding.md` R95): a step of a session leaves the width that the
next word's place in its epoch calls for; and an iteration goes on to the next place, or, after word `DICT_CAPACITY - 255`, to
word 1 of a new epoch. -/
def Obligations.WidthFollowsMaxCode : Prop :=
  ∀ (s t : State), SessionInv s → step s = next t → t.mode = .grow →
    (t.codeWidth.toNat = if t.prevCode = noCode t then 8 else Nat.log2 (t.maxCode.toNat + 1) + 1) ∧
    (t.prevCode = noCode t → t.maxCode = 255) ∧
    (s.busy = true → t.busy = true →
      epochWord t = if epochWord s = s.params.capacity - 255 then 1 else epochWord s + 1)

/-- The first word of an epoch (`30_encoding.md` R98): it is read at 8 bits with `max_code` 255, and whatever the stream holds
it is a literal: a step on it emits that one byte and learns nothing. -/
def Obligations.FirstWordIsALiteral : Prop :=
  ∀ (s : State), SessionInv s → s.mode = .grow → s.busy = true → s.prevCode = noCode s →
    s.maxCode = 255 ∧ s.codeWidth = 8 ∧ ∃ t, step s = next t ∧ t.maxCode = 255 ∧
      (t.busy = true → t.out = s.out ++ [[t.firstChar]] ∧ t.prevCode = t.firstChar.setWidth 25 ∧ t.codeWidth = 9) ∧
      (t.busy = false → t.out = s.out ∧ t.prevCode = noCode s ∧ t.codeWidth = 8 ∧
        t.faultKind ≠ some .invalidCode ∧ t.faultKind ≠ some .dictionaryFull)

/-- The engine never finds the dictionary full (`60_exceptions.md` R271): from a state that meets the invariant,
DECODE_CHUNK ends with no DictionaryFull. -/
def Obligations.EngineNeverFindsFull : Prop :=
  ∀ (chunk : List Byte) (s t : State), SessionInv s → s.phase ≠ .faulted → exec (.decodeChunk chunk) s = next t →
    t.faultKind ≠ some .dictionaryFull

/-- A StringOnly session (`42_decode_engine.md` R185): DECODE_CHUNK leaves `max_code`, `code_width_bits`, the mode and every
entry as RESTORE gave them. -/
def Obligations.StringOnlyNeverGrows : Prop :=
  ∀ (chunk : List Byte) (s t : State), s.mode = .stringOnly → exec (.decodeChunk chunk) s = next t →
    t.maxCode = s.maxCode ∧ t.codeWidth = s.codeWidth ∧ t.mode = s.mode ∧ t.dict = s.dict

/-- After a fault (`43_output_sink.md` R224, `60_exceptions.md` R280): no step emits, and only INIT and RESTORE leave phase
Faulted. The queue a step takes its command from is the model's (log entry 2). -/
def Obligations.FaultedIsSilent : Prop :=
  ∀ (s t : State), s.phase = .faulted → s.busy = false → step s = next t →
    t.out = s.out ∧
    ((t.phase = .faulted ∧ t.faultKind = s.faultKind) ∨
      ∃ c rest, s.commands = c :: rest ∧ (c.code = 0 ∨ c.code = 1))

/-- The sink is append only (`43_output_sink.md` R220, R222): every step keeps the runs already received, in order, and no
command clears them. The queue a step takes its command from is the model's (log entry 2). -/
def Obligations.OutputOnlyGrows : Prop :=
  ∀ (s t : State), step s = next t → ∃ runs, t.out = s.out ++ runs ∧
    (s.busy = false → (∀ c rest, s.commands = c :: rest → c.code ≠ 2) → runs = [])

/-- No step writes the parameters (`00_scope.md` R8), and the commands in the model's queue are taken one at a time, in order,
none of them inside a command. The queue is the model's own (log entry 2), and the clause about it is no rule of the spec. -/
def Obligations.ParametersNeverChange : Prop :=
  ∀ (s t : State), step s = next t →
    t.params = s.params ∧ t.commands = if s.busy = true then s.commands else s.commands.tail

/-- Saving and restoring a dictionary (`44_host_commands.md` R243): the saved table is accepted, and every entry, and so
every string, reads as it did, in a StringOnly session. -/
def Obligations.SavedTableRestores : Prop :=
  ∀ (s : State), SessionInv s → s.busy = false →
    ∃ t, exec (.restore (savedTable s)) s = next t ∧ t.outcome = .accepted ∧ t.mode = .stringOnly ∧
      t.maxCode = s.maxCode ∧
      (∀ i, readEntry t i = readEntry s i) ∧ ∀ c, stringOf t c = stringOf s c

/-- The phase transitions of an iteration (`42_decode_engine.md` R187): an iteration that completes leaves Running, or
AwaitingFirstCode on the overflow reset, which only a Running engine in Grow mode reaches; one that ends the command leaves
Exhausted or Faulted. -/
def Obligations.IterationPhases : Prop :=
  ∀ (s t : State), SessionInv s → s.busy = true → step s = next t →
    (t.busy = true →
      (s.phase = .awaitingFirstCode → t.phase = .running) ∧
      (s.phase = .running → t.phase =
        if s.mode = .grow ∧ s.maxCode.toNat + 2 = s.params.capacity then .awaitingFirstCode else .running)) ∧
    (t.busy = false → t.phase = .exhausted ∨ t.phase = .faulted)

/-- Every instruction keeps the scratch buffer in canonical form and within its size (`20_memory.md` R60, R72). -/
def Obligations.ScratchKeepsItsForm : Prop :=
  ∀ (i : Instr) (s t : State), Memory.wf s.scratch → (∀ c ∈ s.scratch, c.1 < scratchSize s) → exec i s = next t →
    Memory.wf t.scratch ∧ ∀ c ∈ t.scratch, c.1 < scratchSize t

/-- The status read (`44_host_commands.md` R253): an idle block gives every register, of the accumulator the valid bits
alone, and the entries of index up to `max_code`; the stale bits are seen by no read (`10_state.md` R24). -/
def Obligations.StatusReadsTheRegisters : Prop :=
  ∀ (s : State), s.busy = false →
    readStatus s =
      some
        { phase := s.phase, faultKind := s.faultKind, mode := s.mode, maxCode := s.maxCode, codeWidth := s.codeWidth,
          bitCount := s.bitCount, valid := validBits s, prevCode := s.prevCode, firstChar := s.firstChar } ∧
    (∀ i, readStatusEntry i s = readEntry s i) ∧
    ∀ t, SameButStale s t → readStatus t = readStatus s ∧ ∀ i, readStatusEntry i t = readStatusEntry i s
end

