-- ==== Sys2Proof/Laws/Bits.lean ====
section
/-! SUPPORT. Bit strings and the numbers they stand for: a word's bits, their value, and the bytes they are packed into. -/

namespace Sys2Proof

@[simp] theorem wordBits_length (w v : Nat) : (wordBits w v).length = w := by simp [wordBits]

theorem wordBits_getElem (w v i : Nat) (h : i < (wordBits w v).length) :
    (wordBits w v)[i] = v.testBit (w - 1 - i) := by simp [wordBits]

/-- The oldest bits of a word are those of its high part. -/
theorem wordBits_take (w v n : Nat) (h : n ≤ w) : (wordBits w v).take n = wordBits n (v / 2 ^ (w - n)) := by
  apply List.ext_getElem
  · simp [h]
  · intro i h1 h2
    simp only [wordBits_length] at h2
    simp only [List.getElem_take, wordBits_getElem, Nat.testBit_div_two_pow]
    congr 1; omega

/-- The youngest bits of a word are those of its low part. -/
theorem wordBits_drop (w v n : Nat) : (wordBits w v).drop n = wordBits (w - n) v := by
  apply List.ext_getElem
  · simp
  · intro i h1 h2
    simp only [List.getElem_drop, wordBits_getElem]
    congr 1; simp at h2; omega

/-- Only the low `w` bits of a number are in its `w`-bit word. -/
theorem wordBits_mod (w v m : Nat) (h : w ≤ m) : wordBits w (v % 2 ^ m) = wordBits w v := by
  apply List.ext_getElem
  · simp
  · intro i h1 h2
    simp only [wordBits_length] at h1
    simp only [wordBits_getElem, Nat.testBit_mod_two_pow]
    simp; omega

/-- Shifting a word in from the low end appends its bits. -/
theorem wordBits_append (w k a b : Nat) (hb : b < 2 ^ k) :
    wordBits (w + k) (a * 2 ^ k + b) = wordBits w a ++ wordBits k b := by
  have hd : (a * 2 ^ k + b) / 2 ^ k = a := by
    rw [Nat.mul_comm, Nat.mul_add_div (Nat.two_pow_pos k), Nat.div_eq_of_lt hb, Nat.add_zero]
  have hm : (a * 2 ^ k + b) % 2 ^ k = b := by
    rw [Nat.mul_comm, Nat.mul_add_mod, Nat.mod_eq_of_lt hb]
  rw [← List.take_append_drop w (wordBits (w + k) (a * 2 ^ k + b)), wordBits_take _ _ _ (by omega),
    wordBits_drop, show w + k - w = k by omega, hd, ← wordBits_mod k _ k (le_refl k), hm]

theorem bitsValue_append (x y : List Bool) : bitsValue (x ++ y) = bitsValue x * 2 ^ y.length + bitsValue y := by
  suffices h : ∀ (y : List Bool) (v : Nat),
      y.foldl (fun v b => 2 * v + b.toNat) v = v * 2 ^ y.length + y.foldl (fun v b => 2 * v + b.toNat) 0 by
    simp only [bitsValue, List.foldl_append]; exact h y _
  intro y
  induction y with
  | nil => simp
  | cons b rest ih =>
    intro v
    simp only [List.foldl_cons, List.length_cons]
    rw [ih (2 * v + b.toNat), ih (2 * 0 + b.toNat)]
    ring

theorem bitsValue_lt (x : List Bool) : bitsValue x < 2 ^ x.length := by
  induction x using List.reverseRecOn with
  | nil => simp [bitsValue]
  | append_singleton xs b ih =>
    rw [bitsValue_append]
    have : bitsValue [b] ≤ 1 := by cases b <;> simp [bitsValue]
    simp only [List.length_append, List.length_singleton, pow_succ, pow_zero]
    omega

/-- The value of a word's bits is the word's value. -/
theorem bitsValue_wordBits (w v : Nat) : bitsValue (wordBits w v) = v % 2 ^ w := by
  induction w generalizing v with
  | zero => simp [wordBits, bitsValue, Nat.mod_one]
  | succ w ih =>
    have hsplit : v = v / 2 * 2 ^ 1 + v % 2 := by omega
    have h1 : bitsValue (wordBits 1 (v % 2)) = v % 2 := by
      rcases Nat.mod_two_eq_zero_or_one v with h | h <;> rw [h] <;> decide
    conv_lhs => rw [hsplit, wordBits_append w 1 _ _ (by omega), bitsValue_append, ih, h1]
    rw [wordBits_length, pow_one, pow_succ, Nat.mul_comm (2 ^ w) 2, Nat.mod_mul]
    omega

/-- A word's bits are determined by their value. -/
theorem wordBits_bitsValue (x : List Bool) : wordBits x.length (bitsValue x) = x := by
  induction x using List.reverseRecOn with
  | nil => simp [wordBits]
  | append_singleton xs b ih =>
    rw [bitsValue_append, List.length_append, wordBits_append _ _ _ _ (bitsValue_lt [b]), ih]
    cases b <;> rfl

theorem streamBits_nil : streamBits [] = [] := rfl

@[simp] theorem streamBits_cons (b : Byte) (rest : List Byte) :
    streamBits (b :: rest) = wordBits 8 b.toNat ++ streamBits rest := rfl

@[simp] theorem streamBits_append (x y : List Byte) : streamBits (x ++ y) = streamBits x ++ streamBits y := by
  simp [streamBits]

@[simp] theorem streamBits_length (bytes : List Byte) : (streamBits bytes).length = 8 * bytes.length := by
  induction bytes with
  | nil => rfl
  | cons b rest ih => simp [ih]; omega

/-- Packed bits read back, followed by fewer than 8 padding bits, all zero. -/
theorem streamBits_packBits (bits : List Bool) (acc k : Nat) (hk : k < 8) (hacc : acc < 2 ^ k) :
    ∃ pad, pad < 8 ∧ streamBits (packBits acc k bits) = wordBits k acc ++ bits ++ List.replicate pad false := by
  induction bits generalizing acc k with
  | nil =>
    simp only [packBits]
    split
    · rename_i h; subst h; exact ⟨0, by omega, by simp [wordBits, streamBits]⟩
    · refine ⟨8 - k, by omega, ?_⟩
      have h8 : acc * 2 ^ (8 - k) < 2 ^ 8 := by
        calc acc * 2 ^ (8 - k) < 2 ^ k * 2 ^ (8 - k) := Nat.mul_lt_mul_of_pos_right hacc (Nat.two_pow_pos _)
          _ = 2 ^ 8 := by rw [← pow_add]; congr 1; omega
      rw [streamBits_cons, streamBits_nil, List.append_nil, BitVec.toNat_ofNat, Nat.mod_eq_of_lt h8,
        show wordBits 8 = wordBits (k + (8 - k)) by congr 1; omega,
        show acc * 2 ^ (8 - k) = acc * 2 ^ (8 - k) + 0 by rfl, wordBits_append _ _ _ _ (Nat.two_pow_pos _)]
      rw [List.append_nil]
      congr 1
      apply List.ext_getElem <;> simp [wordBits]
  | cons b rest ih =>
    have hb : b.toNat < 2 ^ 1 := by cases b <;> decide
    have hstep : wordBits (k + 1) (2 * acc + b.toNat) = wordBits k acc ++ [b] := by
      rw [Nat.mul_comm, show acc * 2 = acc * 2 ^ 1 by rfl, wordBits_append k 1 acc _ hb]
      cases b <;> rfl
    have hlt : 2 * acc + b.toNat < 2 ^ (k + 1) := by
      rw [pow_succ]; omega
    simp only [packBits]
    split
    · rename_i h; subst h
      obtain ⟨pad, hp, hs⟩ := ih 0 0 (by omega) (by simp)
      refine ⟨pad, hp, ?_⟩
      rw [streamBits_cons, hs, BitVec.toNat_ofNat, Nat.mod_eq_of_lt (by simpa using hlt), show (8 : Nat) = 7 + 1 by rfl,
        hstep]
      simp [wordBits]
    · obtain ⟨pad, hp, hs⟩ := ih (2 * acc + b.toNat) (k + 1) (by omega) hlt
      exact ⟨pad, hp, by rw [hs, hstep]; simp⟩

end Sys2Proof
end

