-- ==== Sys2Proof/Laws/State.lean ====
section
/-! SUPPORT. What each named update of the state writes and leaves alone: one lemma for each field of each update, so
that no later proof unfolds a record update. -/

namespace Sys2Proof.Machine

/-! ## `initRegs` -/

@[simp] theorem initRegs_params (s : State) : (initRegs s).params = s.params := rfl
@[simp] theorem initRegs_prevCode (s : State) : (initRegs s).prevCode = noCode s := rfl
@[simp] theorem initRegs_maxCode (s : State) : (initRegs s).maxCode = 255 := rfl
@[simp] theorem initRegs_codeWidth (s : State) : (initRegs s).codeWidth = 8 := rfl
@[simp] theorem initRegs_acc (s : State) : (initRegs s).acc = 0 := rfl
@[simp] theorem initRegs_bitCount (s : State) : (initRegs s).bitCount = 0 := rfl
@[simp] theorem initRegs_firstChar (s : State) : (initRegs s).firstChar = 0 := rfl
@[simp] theorem initRegs_phase (s : State) : (initRegs s).phase = .awaitingFirstCode := rfl
@[simp] theorem initRegs_faultKind (s : State) : (initRegs s).faultKind = none := rfl
@[simp] theorem initRegs_mode (s : State) : (initRegs s).mode = .grow := rfl
@[simp] theorem initRegs_dict (s : State) : (initRegs s).dict = [] := rfl
@[simp] theorem initRegs_scratch (s : State) : (initRegs s).scratch = s.scratch := rfl
@[simp] theorem initRegs_busy (s : State) : (initRegs s).busy = s.busy := rfl
@[simp] theorem initRegs_chunk (s : State) : (initRegs s).chunk = s.chunk := rfl
@[simp] theorem initRegs_inPos (s : State) : (initRegs s).inPos = s.inPos := rfl
@[simp] theorem initRegs_out (s : State) : (initRegs s).out = s.out := rfl
@[simp] theorem initRegs_outcome (s : State) : (initRegs s).outcome = s.outcome := rfl
@[simp] theorem initRegs_returned (s : State) : (initRegs s).returned = s.returned := rfl
@[simp] theorem initRegs_commands (s : State) : (initRegs s).commands = s.commands := rfl

/-! ## `endCommand` -/

@[simp] theorem endCommand_params (status : Status) (s : State) : (endCommand status s).params = s.params := rfl
@[simp] theorem endCommand_prevCode (status : Status) (s : State) : (endCommand status s).prevCode = s.prevCode := rfl
@[simp] theorem endCommand_maxCode (status : Status) (s : State) : (endCommand status s).maxCode = s.maxCode := rfl
@[simp] theorem endCommand_codeWidth (status : Status) (s : State) : (endCommand status s).codeWidth = s.codeWidth := rfl
@[simp] theorem endCommand_acc (status : Status) (s : State) : (endCommand status s).acc = s.acc := rfl
@[simp] theorem endCommand_bitCount (status : Status) (s : State) : (endCommand status s).bitCount = s.bitCount := rfl
@[simp] theorem endCommand_firstChar (status : Status) (s : State) : (endCommand status s).firstChar = s.firstChar := rfl
@[simp] theorem endCommand_phase (status : Status) (s : State) : (endCommand status s).phase = s.phase := rfl
@[simp] theorem endCommand_faultKind (status : Status) (s : State) : (endCommand status s).faultKind = s.faultKind := rfl
@[simp] theorem endCommand_mode (status : Status) (s : State) : (endCommand status s).mode = s.mode := rfl
@[simp] theorem endCommand_dict (status : Status) (s : State) : (endCommand status s).dict = s.dict := rfl
@[simp] theorem endCommand_scratch (status : Status) (s : State) : (endCommand status s).scratch = s.scratch := rfl
@[simp] theorem endCommand_busy (status : Status) (s : State) : (endCommand status s).busy = false := rfl
@[simp] theorem endCommand_chunk (status : Status) (s : State) : (endCommand status s).chunk = [] := rfl
@[simp] theorem endCommand_inPos (status : Status) (s : State) : (endCommand status s).inPos = 0 := rfl
@[simp] theorem endCommand_out (status : Status) (s : State) : (endCommand status s).out = s.out := rfl
@[simp] theorem endCommand_outcome (status : Status) (s : State) : (endCommand status s).outcome = .chunk status s.inPos := rfl
@[simp] theorem endCommand_returned (status : Status) (s : State) : (endCommand status s).returned = s.returned := rfl
@[simp] theorem endCommand_commands (status : Status) (s : State) : (endCommand status s).commands = s.commands := rfl

/-! ## `enterFaulted` -/

@[simp] theorem enterFaulted_params (kind : FaultKind) (s : State) : (enterFaulted kind s).params = s.params := rfl
@[simp] theorem enterFaulted_prevCode (kind : FaultKind) (s : State) : (enterFaulted kind s).prevCode = s.prevCode := rfl
@[simp] theorem enterFaulted_maxCode (kind : FaultKind) (s : State) : (enterFaulted kind s).maxCode = s.maxCode := rfl
@[simp] theorem enterFaulted_codeWidth (kind : FaultKind) (s : State) : (enterFaulted kind s).codeWidth = s.codeWidth := rfl
@[simp] theorem enterFaulted_acc (kind : FaultKind) (s : State) : (enterFaulted kind s).acc = s.acc := rfl
@[simp] theorem enterFaulted_bitCount (kind : FaultKind) (s : State) : (enterFaulted kind s).bitCount = s.bitCount := rfl
@[simp] theorem enterFaulted_firstChar (kind : FaultKind) (s : State) : (enterFaulted kind s).firstChar = s.firstChar := rfl
@[simp] theorem enterFaulted_phase (kind : FaultKind) (s : State) : (enterFaulted kind s).phase = .faulted := rfl
@[simp] theorem enterFaulted_faultKind (kind : FaultKind) (s : State) : (enterFaulted kind s).faultKind = some kind := rfl
@[simp] theorem enterFaulted_mode (kind : FaultKind) (s : State) : (enterFaulted kind s).mode = s.mode := rfl
@[simp] theorem enterFaulted_dict (kind : FaultKind) (s : State) : (enterFaulted kind s).dict = s.dict := rfl
@[simp] theorem enterFaulted_scratch (kind : FaultKind) (s : State) : (enterFaulted kind s).scratch = s.scratch := rfl
@[simp] theorem enterFaulted_busy (kind : FaultKind) (s : State) : (enterFaulted kind s).busy = s.busy := rfl
@[simp] theorem enterFaulted_chunk (kind : FaultKind) (s : State) : (enterFaulted kind s).chunk = s.chunk := rfl
@[simp] theorem enterFaulted_inPos (kind : FaultKind) (s : State) : (enterFaulted kind s).inPos = s.inPos := rfl
@[simp] theorem enterFaulted_out (kind : FaultKind) (s : State) : (enterFaulted kind s).out = s.out := rfl
@[simp] theorem enterFaulted_outcome (kind : FaultKind) (s : State) : (enterFaulted kind s).outcome = s.outcome := rfl
@[simp] theorem enterFaulted_returned (kind : FaultKind) (s : State) : (enterFaulted kind s).returned = s.returned := rfl
@[simp] theorem enterFaulted_commands (kind : FaultKind) (s : State) : (enterFaulted kind s).commands = s.commands := rfl

/-! ## `raise` -/

@[simp] theorem raise_params (kind : FaultKind) (s : State) : (raise kind s).params = s.params := rfl
@[simp] theorem raise_prevCode (kind : FaultKind) (s : State) : (raise kind s).prevCode = s.prevCode := rfl
@[simp] theorem raise_maxCode (kind : FaultKind) (s : State) : (raise kind s).maxCode = s.maxCode := rfl
@[simp] theorem raise_codeWidth (kind : FaultKind) (s : State) : (raise kind s).codeWidth = s.codeWidth := rfl
@[simp] theorem raise_acc (kind : FaultKind) (s : State) : (raise kind s).acc = s.acc := rfl
@[simp] theorem raise_bitCount (kind : FaultKind) (s : State) : (raise kind s).bitCount = s.bitCount := rfl
@[simp] theorem raise_firstChar (kind : FaultKind) (s : State) : (raise kind s).firstChar = s.firstChar := rfl
@[simp] theorem raise_phase (kind : FaultKind) (s : State) : (raise kind s).phase = .faulted := rfl
@[simp] theorem raise_faultKind (kind : FaultKind) (s : State) : (raise kind s).faultKind = some kind := rfl
@[simp] theorem raise_mode (kind : FaultKind) (s : State) : (raise kind s).mode = s.mode := rfl
@[simp] theorem raise_dict (kind : FaultKind) (s : State) : (raise kind s).dict = s.dict := rfl
@[simp] theorem raise_scratch (kind : FaultKind) (s : State) : (raise kind s).scratch = s.scratch := rfl
@[simp] theorem raise_busy (kind : FaultKind) (s : State) : (raise kind s).busy = false := rfl
@[simp] theorem raise_chunk (kind : FaultKind) (s : State) : (raise kind s).chunk = [] := rfl
@[simp] theorem raise_inPos (kind : FaultKind) (s : State) : (raise kind s).inPos = 0 := rfl
@[simp] theorem raise_out (kind : FaultKind) (s : State) : (raise kind s).out = s.out := rfl
@[simp] theorem raise_outcome (kind : FaultKind) (s : State) : (raise kind s).outcome = .chunk (.fault kind) s.inPos := rfl
@[simp] theorem raise_returned (kind : FaultKind) (s : State) : (raise kind s).returned = s.returned := rfl
@[simp] theorem raise_commands (kind : FaultKind) (s : State) : (raise kind s).commands = s.commands := rfl

/-! ## `writeEntry` -/

@[simp] theorem writeEntry_params (i : Nat) (e : Entry) (s : State) : (writeEntry i e s).params = s.params := rfl
@[simp] theorem writeEntry_prevCode (i : Nat) (e : Entry) (s : State) : (writeEntry i e s).prevCode = s.prevCode := rfl
@[simp] theorem writeEntry_maxCode (i : Nat) (e : Entry) (s : State) : (writeEntry i e s).maxCode = s.maxCode := rfl
@[simp] theorem writeEntry_codeWidth (i : Nat) (e : Entry) (s : State) : (writeEntry i e s).codeWidth = s.codeWidth := rfl
@[simp] theorem writeEntry_acc (i : Nat) (e : Entry) (s : State) : (writeEntry i e s).acc = s.acc := rfl
@[simp] theorem writeEntry_bitCount (i : Nat) (e : Entry) (s : State) : (writeEntry i e s).bitCount = s.bitCount := rfl
@[simp] theorem writeEntry_firstChar (i : Nat) (e : Entry) (s : State) : (writeEntry i e s).firstChar = s.firstChar := rfl
@[simp] theorem writeEntry_phase (i : Nat) (e : Entry) (s : State) : (writeEntry i e s).phase = s.phase := rfl
@[simp] theorem writeEntry_faultKind (i : Nat) (e : Entry) (s : State) : (writeEntry i e s).faultKind = s.faultKind := rfl
@[simp] theorem writeEntry_mode (i : Nat) (e : Entry) (s : State) : (writeEntry i e s).mode = s.mode := rfl
@[simp] theorem writeEntry_dict (i : Nat) (e : Entry) (s : State) : (writeEntry i e s).dict = Memory.insert s.dict i e := rfl
@[simp] theorem writeEntry_scratch (i : Nat) (e : Entry) (s : State) : (writeEntry i e s).scratch = s.scratch := rfl
@[simp] theorem writeEntry_busy (i : Nat) (e : Entry) (s : State) : (writeEntry i e s).busy = s.busy := rfl
@[simp] theorem writeEntry_chunk (i : Nat) (e : Entry) (s : State) : (writeEntry i e s).chunk = s.chunk := rfl
@[simp] theorem writeEntry_inPos (i : Nat) (e : Entry) (s : State) : (writeEntry i e s).inPos = s.inPos := rfl
@[simp] theorem writeEntry_out (i : Nat) (e : Entry) (s : State) : (writeEntry i e s).out = s.out := rfl
@[simp] theorem writeEntry_outcome (i : Nat) (e : Entry) (s : State) : (writeEntry i e s).outcome = s.outcome := rfl
@[simp] theorem writeEntry_returned (i : Nat) (e : Entry) (s : State) : (writeEntry i e s).returned = s.returned := rfl
@[simp] theorem writeEntry_commands (i : Nat) (e : Entry) (s : State) : (writeEntry i e s).commands = s.commands := rfl

/-! ## `shiftIn` -/

@[simp] theorem shiftIn_params (b : Byte) (s : State) : (shiftIn b s).params = s.params := rfl
@[simp] theorem shiftIn_prevCode (b : Byte) (s : State) : (shiftIn b s).prevCode = s.prevCode := rfl
@[simp] theorem shiftIn_maxCode (b : Byte) (s : State) : (shiftIn b s).maxCode = s.maxCode := rfl
@[simp] theorem shiftIn_codeWidth (b : Byte) (s : State) : (shiftIn b s).codeWidth = s.codeWidth := rfl
@[simp] theorem shiftIn_acc (b : Byte) (s : State) : (shiftIn b s).acc = BitVec.ofNat 32 (s.acc.toNat * 256 + b.toNat) := rfl
@[simp] theorem shiftIn_bitCount (b : Byte) (s : State) : (shiftIn b s).bitCount = BitVec.ofNat 5 (s.bitCount.toNat + 8) := rfl
@[simp] theorem shiftIn_firstChar (b : Byte) (s : State) : (shiftIn b s).firstChar = s.firstChar := rfl
@[simp] theorem shiftIn_phase (b : Byte) (s : State) : (shiftIn b s).phase = s.phase := rfl
@[simp] theorem shiftIn_faultKind (b : Byte) (s : State) : (shiftIn b s).faultKind = s.faultKind := rfl
@[simp] theorem shiftIn_mode (b : Byte) (s : State) : (shiftIn b s).mode = s.mode := rfl
@[simp] theorem shiftIn_dict (b : Byte) (s : State) : (shiftIn b s).dict = s.dict := rfl
@[simp] theorem shiftIn_scratch (b : Byte) (s : State) : (shiftIn b s).scratch = s.scratch := rfl
@[simp] theorem shiftIn_busy (b : Byte) (s : State) : (shiftIn b s).busy = s.busy := rfl
@[simp] theorem shiftIn_chunk (b : Byte) (s : State) : (shiftIn b s).chunk = s.chunk := rfl
@[simp] theorem shiftIn_inPos (b : Byte) (s : State) : (shiftIn b s).inPos = s.inPos + 1 := rfl
@[simp] theorem shiftIn_out (b : Byte) (s : State) : (shiftIn b s).out = s.out := rfl
@[simp] theorem shiftIn_outcome (b : Byte) (s : State) : (shiftIn b s).outcome = s.outcome := rfl
@[simp] theorem shiftIn_returned (b : Byte) (s : State) : (shiftIn b s).returned = s.returned := rfl
@[simp] theorem shiftIn_commands (b : Byte) (s : State) : (shiftIn b s).commands = s.commands := rfl

/-! ## `resetDictionary` -/

@[simp] theorem resetDictionary_params (s : State) : (resetDictionary s).params = s.params := rfl
@[simp] theorem resetDictionary_prevCode (s : State) : (resetDictionary s).prevCode = noCode s := rfl
@[simp] theorem resetDictionary_maxCode (s : State) : (resetDictionary s).maxCode = 255 := rfl
@[simp] theorem resetDictionary_codeWidth (s : State) : (resetDictionary s).codeWidth = 8 := rfl
@[simp] theorem resetDictionary_acc (s : State) : (resetDictionary s).acc = s.acc := rfl
@[simp] theorem resetDictionary_bitCount (s : State) : (resetDictionary s).bitCount = s.bitCount := rfl
@[simp] theorem resetDictionary_firstChar (s : State) : (resetDictionary s).firstChar = s.firstChar := rfl
@[simp] theorem resetDictionary_phase (s : State) : (resetDictionary s).phase = .awaitingFirstCode := rfl
@[simp] theorem resetDictionary_faultKind (s : State) : (resetDictionary s).faultKind = s.faultKind := rfl
@[simp] theorem resetDictionary_mode (s : State) : (resetDictionary s).mode = s.mode := rfl
@[simp] theorem resetDictionary_dict (s : State) : (resetDictionary s).dict = [] := rfl
@[simp] theorem resetDictionary_scratch (s : State) : (resetDictionary s).scratch = s.scratch := rfl
@[simp] theorem resetDictionary_busy (s : State) : (resetDictionary s).busy = s.busy := rfl
@[simp] theorem resetDictionary_chunk (s : State) : (resetDictionary s).chunk = s.chunk := rfl
@[simp] theorem resetDictionary_inPos (s : State) : (resetDictionary s).inPos = s.inPos := rfl
@[simp] theorem resetDictionary_out (s : State) : (resetDictionary s).out = s.out := rfl
@[simp] theorem resetDictionary_outcome (s : State) : (resetDictionary s).outcome = s.outcome := rfl
@[simp] theorem resetDictionary_returned (s : State) : (resetDictionary s).returned = s.returned := rfl
@[simp] theorem resetDictionary_commands (s : State) : (resetDictionary s).commands = s.commands := rfl

/-! ## `emitRun` -/

@[simp] theorem emitRun_params (run : List Byte) (s : State) : (emitRun run s).params = s.params := rfl
@[simp] theorem emitRun_prevCode (run : List Byte) (s : State) : (emitRun run s).prevCode = s.prevCode := rfl
@[simp] theorem emitRun_maxCode (run : List Byte) (s : State) : (emitRun run s).maxCode = s.maxCode := rfl
@[simp] theorem emitRun_codeWidth (run : List Byte) (s : State) : (emitRun run s).codeWidth = s.codeWidth := rfl
@[simp] theorem emitRun_acc (run : List Byte) (s : State) : (emitRun run s).acc = s.acc := rfl
@[simp] theorem emitRun_bitCount (run : List Byte) (s : State) : (emitRun run s).bitCount = s.bitCount := rfl
@[simp] theorem emitRun_firstChar (run : List Byte) (s : State) : (emitRun run s).firstChar = s.firstChar := rfl
@[simp] theorem emitRun_phase (run : List Byte) (s : State) : (emitRun run s).phase = s.phase := rfl
@[simp] theorem emitRun_faultKind (run : List Byte) (s : State) : (emitRun run s).faultKind = s.faultKind := rfl
@[simp] theorem emitRun_mode (run : List Byte) (s : State) : (emitRun run s).mode = s.mode := rfl
@[simp] theorem emitRun_dict (run : List Byte) (s : State) : (emitRun run s).dict = s.dict := rfl
@[simp] theorem emitRun_scratch (run : List Byte) (s : State) : (emitRun run s).scratch = s.scratch := rfl
@[simp] theorem emitRun_busy (run : List Byte) (s : State) : (emitRun run s).busy = s.busy := rfl
@[simp] theorem emitRun_chunk (run : List Byte) (s : State) : (emitRun run s).chunk = s.chunk := rfl
@[simp] theorem emitRun_inPos (run : List Byte) (s : State) : (emitRun run s).inPos = s.inPos := rfl
@[simp] theorem emitRun_out (run : List Byte) (s : State) : (emitRun run s).out = s.out ++ [run] := rfl
@[simp] theorem emitRun_outcome (run : List Byte) (s : State) : (emitRun run s).outcome = s.outcome := rfl
@[simp] theorem emitRun_returned (run : List Byte) (s : State) : (emitRun run s).returned = s.returned := rfl
@[simp] theorem emitRun_commands (run : List Byte) (s : State) : (emitRun run s).commands = s.commands := rfl

/-! ## `setPrevious` -/

@[simp] theorem setPrevious_params (code : Code) (s : State) : (setPrevious code s).params = s.params := rfl
@[simp] theorem setPrevious_prevCode (code : Code) (s : State) : (setPrevious code s).prevCode = code := rfl
@[simp] theorem setPrevious_maxCode (code : Code) (s : State) : (setPrevious code s).maxCode = s.maxCode := rfl
@[simp] theorem setPrevious_codeWidth (code : Code) (s : State) : (setPrevious code s).codeWidth = s.codeWidth := rfl
@[simp] theorem setPrevious_acc (code : Code) (s : State) : (setPrevious code s).acc = s.acc := rfl
@[simp] theorem setPrevious_bitCount (code : Code) (s : State) : (setPrevious code s).bitCount = s.bitCount := rfl
@[simp] theorem setPrevious_firstChar (code : Code) (s : State) : (setPrevious code s).firstChar = s.firstChar := rfl
@[simp] theorem setPrevious_phase (code : Code) (s : State) : (setPrevious code s).phase = .running := rfl
@[simp] theorem setPrevious_faultKind (code : Code) (s : State) : (setPrevious code s).faultKind = s.faultKind := rfl
@[simp] theorem setPrevious_mode (code : Code) (s : State) : (setPrevious code s).mode = s.mode := rfl
@[simp] theorem setPrevious_dict (code : Code) (s : State) : (setPrevious code s).dict = s.dict := rfl
@[simp] theorem setPrevious_scratch (code : Code) (s : State) : (setPrevious code s).scratch = s.scratch := rfl
@[simp] theorem setPrevious_busy (code : Code) (s : State) : (setPrevious code s).busy = s.busy := rfl
@[simp] theorem setPrevious_chunk (code : Code) (s : State) : (setPrevious code s).chunk = s.chunk := rfl
@[simp] theorem setPrevious_inPos (code : Code) (s : State) : (setPrevious code s).inPos = s.inPos := rfl
@[simp] theorem setPrevious_out (code : Code) (s : State) : (setPrevious code s).out = s.out := rfl
@[simp] theorem setPrevious_outcome (code : Code) (s : State) : (setPrevious code s).outcome = s.outcome := rfl
@[simp] theorem setPrevious_returned (code : Code) (s : State) : (setPrevious code s).returned = s.returned := rfl
@[simp] theorem setPrevious_commands (code : Code) (s : State) : (setPrevious code s).commands = s.commands := rfl

/-! ## `loadTable` -/

@[simp] theorem loadTable_params (entries : List Entry) (s : State) : (loadTable entries s).params = s.params := rfl
@[simp] theorem loadTable_prevCode (entries : List Entry) (s : State) : (loadTable entries s).prevCode = noCode s := rfl
@[simp] theorem loadTable_maxCode (entries : List Entry) (s : State) : (loadTable entries s).maxCode = BitVec.ofNat 25 (255 + entries.length) := rfl
@[simp] theorem loadTable_codeWidth (entries : List Entry) (s : State) : (loadTable entries s).codeWidth = BitVec.ofNat 5 s.params.restoreWidth := rfl
@[simp] theorem loadTable_acc (entries : List Entry) (s : State) : (loadTable entries s).acc = 0 := rfl
@[simp] theorem loadTable_bitCount (entries : List Entry) (s : State) : (loadTable entries s).bitCount = 0 := rfl
@[simp] theorem loadTable_firstChar (entries : List Entry) (s : State) : (loadTable entries s).firstChar = 0 := rfl
@[simp] theorem loadTable_phase (entries : List Entry) (s : State) : (loadTable entries s).phase = .awaitingFirstCode := rfl
@[simp] theorem loadTable_faultKind (entries : List Entry) (s : State) : (loadTable entries s).faultKind = none := rfl
@[simp] theorem loadTable_mode (entries : List Entry) (s : State) : (loadTable entries s).mode = .stringOnly := rfl
@[simp] theorem loadTable_dict (entries : List Entry) (s : State) : (loadTable entries s).dict = tableEntries 256 entries := rfl
@[simp] theorem loadTable_scratch (entries : List Entry) (s : State) : (loadTable entries s).scratch = s.scratch := rfl
@[simp] theorem loadTable_busy (entries : List Entry) (s : State) : (loadTable entries s).busy = s.busy := rfl
@[simp] theorem loadTable_chunk (entries : List Entry) (s : State) : (loadTable entries s).chunk = s.chunk := rfl
@[simp] theorem loadTable_inPos (entries : List Entry) (s : State) : (loadTable entries s).inPos = s.inPos := rfl
@[simp] theorem loadTable_out (entries : List Entry) (s : State) : (loadTable entries s).out = s.out := rfl
@[simp] theorem loadTable_outcome (entries : List Entry) (s : State) : (loadTable entries s).outcome = .accepted := rfl
@[simp] theorem loadTable_returned (entries : List Entry) (s : State) : (loadTable entries s).returned = s.returned := rfl
@[simp] theorem loadTable_commands (entries : List Entry) (s : State) : (loadTable entries s).commands = s.commands := rfl

/-! ## `refuseTable` -/

@[simp] theorem refuseTable_params (s : State) : (refuseTable s).params = s.params := rfl
@[simp] theorem refuseTable_prevCode (s : State) : (refuseTable s).prevCode = noCode s := rfl
@[simp] theorem refuseTable_maxCode (s : State) : (refuseTable s).maxCode = 255 := rfl
@[simp] theorem refuseTable_codeWidth (s : State) : (refuseTable s).codeWidth = 8 := rfl
@[simp] theorem refuseTable_acc (s : State) : (refuseTable s).acc = 0 := rfl
@[simp] theorem refuseTable_bitCount (s : State) : (refuseTable s).bitCount = 0 := rfl
@[simp] theorem refuseTable_firstChar (s : State) : (refuseTable s).firstChar = 0 := rfl
@[simp] theorem refuseTable_phase (s : State) : (refuseTable s).phase = .faulted := rfl
@[simp] theorem refuseTable_faultKind (s : State) : (refuseTable s).faultKind = some .dictionaryFull := rfl
@[simp] theorem refuseTable_mode (s : State) : (refuseTable s).mode = .grow := rfl
@[simp] theorem refuseTable_dict (s : State) : (refuseTable s).dict = [] := rfl
@[simp] theorem refuseTable_scratch (s : State) : (refuseTable s).scratch = s.scratch := rfl
@[simp] theorem refuseTable_busy (s : State) : (refuseTable s).busy = s.busy := rfl
@[simp] theorem refuseTable_chunk (s : State) : (refuseTable s).chunk = s.chunk := rfl
@[simp] theorem refuseTable_inPos (s : State) : (refuseTable s).inPos = s.inPos := rfl
@[simp] theorem refuseTable_out (s : State) : (refuseTable s).out = s.out := rfl
@[simp] theorem refuseTable_outcome (s : State) : (refuseTable s).outcome = .restoreFault .dictionaryFull := rfl
@[simp] theorem refuseTable_returned (s : State) : (refuseTable s).returned = s.returned := rfl
@[simp] theorem refuseTable_commands (s : State) : (refuseTable s).commands = s.commands := rfl

/-! ## `beginChunk` -/

@[simp] theorem beginChunk_params (chunk : List Byte) (s : State) : (beginChunk chunk s).params = s.params := rfl
@[simp] theorem beginChunk_prevCode (chunk : List Byte) (s : State) : (beginChunk chunk s).prevCode = s.prevCode := rfl
@[simp] theorem beginChunk_maxCode (chunk : List Byte) (s : State) : (beginChunk chunk s).maxCode = s.maxCode := rfl
@[simp] theorem beginChunk_codeWidth (chunk : List Byte) (s : State) : (beginChunk chunk s).codeWidth = s.codeWidth := rfl
@[simp] theorem beginChunk_acc (chunk : List Byte) (s : State) : (beginChunk chunk s).acc = s.acc := rfl
@[simp] theorem beginChunk_bitCount (chunk : List Byte) (s : State) : (beginChunk chunk s).bitCount = s.bitCount := rfl
@[simp] theorem beginChunk_firstChar (chunk : List Byte) (s : State) : (beginChunk chunk s).firstChar = s.firstChar := rfl
@[simp] theorem beginChunk_phase (chunk : List Byte) (s : State) : (beginChunk chunk s).phase = resumedPhase s := rfl
@[simp] theorem beginChunk_faultKind (chunk : List Byte) (s : State) : (beginChunk chunk s).faultKind = s.faultKind := rfl
@[simp] theorem beginChunk_mode (chunk : List Byte) (s : State) : (beginChunk chunk s).mode = s.mode := rfl
@[simp] theorem beginChunk_dict (chunk : List Byte) (s : State) : (beginChunk chunk s).dict = s.dict := rfl
@[simp] theorem beginChunk_scratch (chunk : List Byte) (s : State) : (beginChunk chunk s).scratch = s.scratch := rfl
@[simp] theorem beginChunk_busy (chunk : List Byte) (s : State) : (beginChunk chunk s).busy = true := rfl
@[simp] theorem beginChunk_chunk (chunk : List Byte) (s : State) : (beginChunk chunk s).chunk = chunk := rfl
@[simp] theorem beginChunk_inPos (chunk : List Byte) (s : State) : (beginChunk chunk s).inPos = 0 := rfl
@[simp] theorem beginChunk_out (chunk : List Byte) (s : State) : (beginChunk chunk s).out = s.out := rfl
@[simp] theorem beginChunk_outcome (chunk : List Byte) (s : State) : (beginChunk chunk s).outcome = s.outcome := rfl
@[simp] theorem beginChunk_returned (chunk : List Byte) (s : State) : (beginChunk chunk s).returned = s.returned := rfl
@[simp] theorem beginChunk_commands (chunk : List Byte) (s : State) : (beginChunk chunk s).commands = s.commands := rfl

/-! ## `reportFault` -/

@[simp] theorem reportFault_params (s : State) : (reportFault s).params = s.params := rfl
@[simp] theorem reportFault_prevCode (s : State) : (reportFault s).prevCode = s.prevCode := rfl
@[simp] theorem reportFault_maxCode (s : State) : (reportFault s).maxCode = s.maxCode := rfl
@[simp] theorem reportFault_codeWidth (s : State) : (reportFault s).codeWidth = s.codeWidth := rfl
@[simp] theorem reportFault_acc (s : State) : (reportFault s).acc = s.acc := rfl
@[simp] theorem reportFault_bitCount (s : State) : (reportFault s).bitCount = s.bitCount := rfl
@[simp] theorem reportFault_firstChar (s : State) : (reportFault s).firstChar = s.firstChar := rfl
@[simp] theorem reportFault_phase (s : State) : (reportFault s).phase = s.phase := rfl
@[simp] theorem reportFault_faultKind (s : State) : (reportFault s).faultKind = s.faultKind := rfl
@[simp] theorem reportFault_mode (s : State) : (reportFault s).mode = s.mode := rfl
@[simp] theorem reportFault_dict (s : State) : (reportFault s).dict = s.dict := rfl
@[simp] theorem reportFault_scratch (s : State) : (reportFault s).scratch = s.scratch := rfl
@[simp] theorem reportFault_busy (s : State) : (reportFault s).busy = s.busy := rfl
@[simp] theorem reportFault_chunk (s : State) : (reportFault s).chunk = s.chunk := rfl
@[simp] theorem reportFault_inPos (s : State) : (reportFault s).inPos = s.inPos := rfl
@[simp] theorem reportFault_out (s : State) : (reportFault s).out = s.out := rfl
@[simp] theorem reportFault_outcome (s : State) : (reportFault s).outcome = .chunk (statusOf s.faultKind) 0 := rfl
@[simp] theorem reportFault_returned (s : State) : (reportFault s).returned = s.returned := rfl
@[simp] theorem reportFault_commands (s : State) : (reportFault s).commands = s.commands := rfl

/-! ## `takeBits` -/

@[simp] theorem takeBits_params (n : Nat) (s : State) : (takeBits n s).2.params = s.params := rfl
@[simp] theorem takeBits_prevCode (n : Nat) (s : State) : (takeBits n s).2.prevCode = s.prevCode := rfl
@[simp] theorem takeBits_maxCode (n : Nat) (s : State) : (takeBits n s).2.maxCode = s.maxCode := rfl
@[simp] theorem takeBits_codeWidth (n : Nat) (s : State) : (takeBits n s).2.codeWidth = s.codeWidth := rfl
@[simp] theorem takeBits_acc (n : Nat) (s : State) : (takeBits n s).2.acc = s.acc := rfl
@[simp] theorem takeBits_bitCount (n : Nat) (s : State) : (takeBits n s).2.bitCount = BitVec.ofNat 5 (s.bitCount.toNat - n) := rfl
@[simp] theorem takeBits_firstChar (n : Nat) (s : State) : (takeBits n s).2.firstChar = s.firstChar := rfl
@[simp] theorem takeBits_phase (n : Nat) (s : State) : (takeBits n s).2.phase = s.phase := rfl
@[simp] theorem takeBits_faultKind (n : Nat) (s : State) : (takeBits n s).2.faultKind = s.faultKind := rfl
@[simp] theorem takeBits_mode (n : Nat) (s : State) : (takeBits n s).2.mode = s.mode := rfl
@[simp] theorem takeBits_dict (n : Nat) (s : State) : (takeBits n s).2.dict = s.dict := rfl
@[simp] theorem takeBits_scratch (n : Nat) (s : State) : (takeBits n s).2.scratch = s.scratch := rfl
@[simp] theorem takeBits_busy (n : Nat) (s : State) : (takeBits n s).2.busy = s.busy := rfl
@[simp] theorem takeBits_chunk (n : Nat) (s : State) : (takeBits n s).2.chunk = s.chunk := rfl
@[simp] theorem takeBits_inPos (n : Nat) (s : State) : (takeBits n s).2.inPos = s.inPos := rfl
@[simp] theorem takeBits_out (n : Nat) (s : State) : (takeBits n s).2.out = s.out := rfl
@[simp] theorem takeBits_outcome (n : Nat) (s : State) : (takeBits n s).2.outcome = s.outcome := rfl
@[simp] theorem takeBits_returned (n : Nat) (s : State) : (takeBits n s).2.returned = s.returned := rfl
@[simp] theorem takeBits_commands (n : Nat) (s : State) : (takeBits n s).2.commands = s.commands := rfl

/-! ## The two conditional updates of a completed word

Step 5 writes the width alone. -/

@[simp] theorem growWidth_params (s : State) : (growWidth s).params = s.params := by
  unfold growWidth; split <;> rfl

@[simp] theorem growWidth_prevCode (s : State) : (growWidth s).prevCode = s.prevCode := by
  unfold growWidth; split <;> rfl

@[simp] theorem growWidth_maxCode (s : State) : (growWidth s).maxCode = s.maxCode := by
  unfold growWidth; split <;> rfl

@[simp] theorem growWidth_acc (s : State) : (growWidth s).acc = s.acc := by
  unfold growWidth; split <;> rfl

@[simp] theorem growWidth_bitCount (s : State) : (growWidth s).bitCount = s.bitCount := by
  unfold growWidth; split <;> rfl

@[simp] theorem growWidth_firstChar (s : State) : (growWidth s).firstChar = s.firstChar := by
  unfold growWidth; split <;> rfl

@[simp] theorem growWidth_phase (s : State) : (growWidth s).phase = s.phase := by
  unfold growWidth; split <;> rfl

@[simp] theorem growWidth_faultKind (s : State) : (growWidth s).faultKind = s.faultKind := by
  unfold growWidth; split <;> rfl

@[simp] theorem growWidth_mode (s : State) : (growWidth s).mode = s.mode := by
  unfold growWidth; split <;> rfl

@[simp] theorem growWidth_dict (s : State) : (growWidth s).dict = s.dict := by
  unfold growWidth; split <;> rfl

@[simp] theorem growWidth_scratch (s : State) : (growWidth s).scratch = s.scratch := by
  unfold growWidth; split <;> rfl

@[simp] theorem growWidth_busy (s : State) : (growWidth s).busy = s.busy := by
  unfold growWidth; split <;> rfl

@[simp] theorem growWidth_chunk (s : State) : (growWidth s).chunk = s.chunk := by
  unfold growWidth; split <;> rfl

@[simp] theorem growWidth_inPos (s : State) : (growWidth s).inPos = s.inPos := by
  unfold growWidth; split <;> rfl

@[simp] theorem growWidth_out (s : State) : (growWidth s).out = s.out := by
  unfold growWidth; split <;> rfl

@[simp] theorem growWidth_outcome (s : State) : (growWidth s).outcome = s.outcome := by
  unfold growWidth; split <;> rfl

@[simp] theorem growWidth_returned (s : State) : (growWidth s).returned = s.returned := by
  unfold growWidth; split <;> rfl

@[simp] theorem growWidth_commands (s : State) : (growWidth s).commands = s.commands := by
  unfold growWidth; split <;> rfl

end Sys2Proof.Machine
end

