-- ==== Sys2Proof/Laws/BitReader.lean ====
section
/-! SUPPORT. The Bit Reader: what the loop shifts in, which bits `read_bits` takes, and what it leaves. -/

namespace Sys2Proof.Machine

/-- Bytes shifted in one after another. -/
def shiftAll (bytes : List Byte) (s : State) : State := bytes.foldl (fun t b => shiftIn b t) s

@[simp] theorem shiftAll_nil (s : State) : shiftAll [] s = s := rfl

@[simp] theorem shiftAll_cons (b : Byte) (rest : List Byte) (s : State) :
    shiftAll (b :: rest) s = shiftAll rest (shiftIn b s) := rfl

/-- The number of bytes `read_bits(n)` needs. -/
def bytesNeeded (n : Nat) (s : State) : Nat := (n - s.bitCount.toNat + 7) / 8

theorem shiftIn_bitCount_toNat (b : Byte) (s : State) (h : s.bitCount.toNat ≤ 23) :
    (shiftIn b s).bitCount.toNat = s.bitCount.toNat + 8 := by
  simp; omega

/-- The loop shifts in exactly the bytes it needs, or all there are. -/
theorem fill_eq (n : Nat) (hn : n ≤ 24) (rest : List Byte) (s : State) :
    fill n rest s =
      if bytesNeeded n s ≤ rest.length then (true, shiftAll (rest.take (bytesNeeded n s)) s)
      else (false, shiftAll rest s) := by
  induction rest generalizing s with
  | nil =>
    simp only [fill, bytesNeeded, List.length_nil, Nat.le_zero]
    by_cases h : n ≤ s.bitCount.toNat
    · rw [if_pos (by omega)]; simp [h]
    · rw [if_neg (by omega)]; simp [h]
  | cons b rest ih =>
    simp only [fill]
    split
    · rename_i h
      have : bytesNeeded n s = 0 := by unfold bytesNeeded; omega
      simp [this]
    · rename_i h
      have hc := shiftIn_bitCount_toNat b s (by omega)
      have hk : bytesNeeded n s = bytesNeeded n (shiftIn b s) + 1 := by
        unfold bytesNeeded; rw [hc]; omega
      rw [ih, hk]
      simp

/-- A byte shifted in appends its bits to the valid bits. -/
theorem validBits_shiftIn (b : Byte) (s : State) (h : s.bitCount.toNat ≤ 23) :
    validBits (shiftIn b s) = validBits s ++ wordBits 8 b.toNat := by
  unfold validBits
  rw [shiftIn_bitCount_toNat b s h, shiftIn_acc, BitVec.toNat_ofNat, wordBits_mod _ _ _ (by omega),
    show s.acc.toNat * 256 = s.acc.toNat * 2 ^ 8 by rfl, wordBits_append _ _ _ _ b.isLt]

/-- Bytes shifted in: everything but the bit reader and the cursor stays, and the stream's bits move from the chunk to the
accumulator. -/
theorem shiftAll_spec (bytes : List Byte) (s : State) (h : s.bitCount.toNat + 8 * bytes.length ≤ 31) :
    shiftAll bytes s =
        { s with
          acc := (shiftAll bytes s).acc, inPos := s.inPos + bytes.length,
          bitCount := BitVec.ofNat 5 (s.bitCount.toNat + 8 * bytes.length) } ∧
      validBits (shiftAll bytes s) = validBits s ++ streamBits bytes := by
  induction bytes generalizing s with
  | nil => simp [streamBits]
  | cons b rest ih =>
    simp only [List.length_cons] at h
    have hc := shiftIn_bitCount_toNat b s (by omega)
    obtain ⟨h1, h2⟩ := ih (shiftIn b s) (by omega)
    constructor
    · rw [shiftAll_cons]
      conv_lhs => rw [h1, hc]
      simp only [shiftIn, List.length_cons, show s.inPos + 1 + rest.length = s.inPos + (rest.length + 1) by omega,
        show s.bitCount.toNat + 8 + 8 * rest.length = s.bitCount.toNat + 8 * (rest.length + 1) by omega]
    · rw [shiftAll_cons, h2, validBits_shiftIn _ _ (by omega)]
      simp

/-- Taking bits gives the value of the oldest valid bits and leaves the rest. -/
theorem takeBits_spec (n : Nat) (s : State) (hn : n ≤ s.bitCount.toNat) (h24 : n ≤ 24) :
    (takeBits n s).1.toNat = bitsValue ((validBits s).take n) ∧
      validBits (takeBits n s).2 = (validBits s).drop n := by
  constructor
  · simp only [takeBits, validBits, BitVec.toNat_ofNat]
    rw [wordBits_take _ _ _ hn, bitsValue_wordBits]
    apply Nat.mod_eq_of_lt
    exact lt_of_lt_of_le (Nat.mod_lt _ (Nat.two_pow_pos n)) (Nat.pow_le_pow_right (by omega) (by omega))
  · have hl : (BitVec.ofNat 5 (s.bitCount.toNat - n)).toNat = s.bitCount.toNat - n := by
      simp; omega
    simp only [validBits, takeBits_bitCount, takeBits_acc, hl]
    rw [wordBits_drop]

/-- Everything `read_bits(n)` can do: either the chunk holds the bytes it needs and it takes `n` bits, or it shifts in all
there are. -/
theorem readBits_eq (n : Nat) (hn : n ≤ 24) (s : State) :
    readBits n s =
      if bytesNeeded n s ≤ (unreadBytes s).length then
        (.code (takeBits n (shiftAll ((unreadBytes s).take (bytesNeeded n s)) s)).1,
          (takeBits n (shiftAll ((unreadBytes s).take (bytesNeeded n s)) s)).2)
      else (.noData, shiftAll (unreadBytes s) s) := by
  unfold readBits
  rw [fill_eq n hn]
  by_cases h : bytesNeeded n s ≤ (unreadBytes s).length
  · simp only [if_pos h]
  · simp only [if_neg h]

/-- `read_bits(n)` as a read of the stream: the valid bits followed by the unread bytes' bits. -/
theorem readBits_spec (n : Nat) (hn : n ≤ 24) (s : State) :
    (∃ code t, readBits n s = (.code code, t) ∧ n ≤ (validBits s ++ streamBits (unreadBytes s)).length ∧
        code.toNat = bitsValue ((validBits s ++ streamBits (unreadBytes s)).take n) ∧
        validBits t ++ streamBits (unreadBytes t) = (validBits s ++ streamBits (unreadBytes s)).drop n ∧
        t.bitCount.toNat = s.bitCount.toNat + 8 * bytesNeeded n s - n ∧
        t = { s with acc := t.acc, inPos := s.inPos + bytesNeeded n s, bitCount := t.bitCount } ∧
        bytesNeeded n s ≤ (unreadBytes s).length) ∨
      (∃ t, readBits n s = (.noData, t) ∧ (validBits s ++ streamBits (unreadBytes s)).length < n ∧
        validBits t = validBits s ++ streamBits (unreadBytes s) ∧
        t.bitCount.toNat = s.bitCount.toNat + 8 * (unreadBytes s).length ∧
        t = { s with acc := t.acc, inPos := s.inPos + (unreadBytes s).length, bitCount := t.bitCount }) := by
  have hb : s.bitCount.toNat < 32 := s.bitCount.isLt
  have hv : (validBits s).length = s.bitCount.toNat := by simp [validBits]
  rw [readBits_eq n hn]
  by_cases hk : bytesNeeded n s ≤ (unreadBytes s).length
  · left
    rw [if_pos hk]
    set k := bytesNeeded n s with hkdef
    have hk8 : s.bitCount.toNat + 8 * k ≤ 31 ∧ n ≤ s.bitCount.toNat + 8 * k := by
      rw [hkdef]; unfold bytesNeeded; omega
    have hlen : ((unreadBytes s).take k).length = k := by simp [hk]
    obtain ⟨h1, h2⟩ := shiftAll_spec ((unreadBytes s).take k) s (by rw [hlen]; omega)
    rw [hlen] at h1
    set u := shiftAll ((unreadBytes s).take k) s with hu
    have hc : u.bitCount.toNat = s.bitCount.toNat + 8 * k := by rw [h1]; simp; omega
    obtain ⟨h3, h4⟩ := takeBits_spec n u (by omega) hn
    have hlt : n ≤ (validBits s ++ streamBits ((unreadBytes s).take k)).length := by
      simp [hv, hk]; omega
    have hsplit : streamBits (unreadBytes s) =
        streamBits ((unreadBytes s).take k) ++ streamBits ((unreadBytes s).drop k) := by
      rw [← streamBits_append, List.take_append_drop]
    refine ⟨_, _, rfl, ?_, ?_, ?_, ?_, ?_, hk⟩
    · rw [hsplit, ← List.append_assoc, List.length_append]; omega
    · rw [h3, h2, hsplit, ← List.append_assoc, List.take_append_of_le_length hlt]
    · have hun : unreadBytes (takeBits n u).2 = (unreadBytes s).drop k := by
        unfold unreadBytes; rw [takeBits_chunk, takeBits_inPos, h1]; simp [List.drop_drop]
      rw [h4, h2, hun, hsplit, ← List.append_assoc, List.drop_append_of_le_length hlt]
    · simp [hc]; omega
    · simp only [takeBits]
      rw [h1]
  · right
    rw [if_neg hk]
    have hk8 : s.bitCount.toNat + 8 * (unreadBytes s).length < n := by
      unfold bytesNeeded at hk; omega
    obtain ⟨h1, h2⟩ := shiftAll_spec (unreadBytes s) s (by omega)
    refine ⟨_, rfl, ?_, h2, ?_, ?_⟩
    · simp [hv]; omega
    · rw [h1]; simp; omega
    · rw [h1]

end Sys2Proof.Machine
end

