-- ==== Sys2Proof/Laws/Memory.lean ====
section
/-! SUPPORT. The laws of a keyed memory: a read after a write to the same index gives the value written, a write leaves
every other index alone, and every operation keeps the canonical form. -/

namespace Sys2Proof.Machine

theorem memory_find_insert {α : Type} (m : List (Nat × α)) (a b : Nat) (v : α) :
    Memory.find (Memory.insert m a v) b = if b = a then some v else Memory.find m b := by
  induction m with
  | nil => simp [Memory.insert, Memory.find]
  | cons x rest ih =>
    obtain ⟨k, w⟩ := x
    simp only [Memory.insert]
    split
    · simp [Memory.find]
    · split
      · rename_i _ h; subst h; by_cases hb : b = a <;> simp [Memory.find, hb]
      · rename_i h1 h2
        simp only [Memory.find, ih]
        by_cases hk : b = k
        · have : b ≠ a := by omega
          simp [hk]; omega
        · simp [hk]

theorem memory_find_erase {α : Type} (m : List (Nat × α)) (a b : Nat) :
    Memory.find (Memory.erase m a) b = if b = a then none else Memory.find m b := by
  induction m with
  | nil => simp [Memory.erase, Memory.find]
  | cons x rest ih =>
    obtain ⟨k, w⟩ := x
    simp only [Memory.erase]
    split
    · rename_i h; subst h; rw [ih]; by_cases hb : b = a <;> simp [Memory.find, hb]
    · rename_i h
      simp only [Memory.find, ih]
      by_cases hk : b = k
      · have : b ≠ a := by omega
        simp [hk]; omega
      · simp [hk]

/-- Read after write, and every other index left alone. -/
theorem memory_readByte_writeByte (m : List Host.Cell) (a b : Nat) (v : Byte) :
    Memory.readByte (Memory.writeByte m a v) b = if b = a then v else Memory.readByte m b := by
  unfold Memory.readByte Memory.writeByte
  split
  · rename_i h; subst h; rw [memory_find_erase]; split <;> simp
  · rw [memory_find_insert]; split <;> simp

theorem memory_mem_insert {α : Type} {m : List (Nat × α)} {a : Nat} {v : α} {x : Nat × α}
    (h : x ∈ Memory.insert m a v) : x = (a, v) ∨ x ∈ m := by
  induction m with
  | nil => simpa [Memory.insert] using h
  | cons y rest ih =>
    obtain ⟨k, w⟩ := y
    simp only [Memory.insert] at h
    split at h
    · simpa using h
    · split at h
      · rcases List.mem_cons.1 h with h | h <;> simp [h]
      · rcases List.mem_cons.1 h with h | h
        · simp [h]
        · rcases ih h with h | h <;> simp [h]

theorem memory_mem_erase {α : Type} {m : List (Nat × α)} {a : Nat} {x : Nat × α}
    (h : x ∈ Memory.erase m a) : x ∈ m := by
  induction m with
  | nil => simp [Memory.erase] at h
  | cons y rest ih =>
    obtain ⟨k, w⟩ := y
    simp only [Memory.erase] at h
    split at h
    · exact List.mem_cons_of_mem _ (ih h)
    · rcases List.mem_cons.1 h with h | h
      · simp [h]
      · exact List.mem_cons_of_mem _ (ih h)

theorem memory_insert_rising {α : Type} {m : List (Nat × α)} (h : Memory.Rising m) (a : Nat) (v : α) :
    Memory.Rising (Memory.insert m a v) := by
  induction m with
  | nil => simp [Memory.insert, Memory.Rising]
  | cons y rest ih =>
    obtain ⟨k, w⟩ := y
    obtain ⟨hk, hr⟩ := List.pairwise_cons.1 h
    simp only [Memory.insert]
    split
    · rename_i hlt
      refine List.pairwise_cons.2 ⟨fun x hx => ?_, h⟩
      rcases List.mem_cons.1 hx with rfl | hx
      · exact hlt
      · exact Nat.lt_trans hlt (hk x hx)
    · split
      · rename_i _ heq; subst heq
        exact List.pairwise_cons.2 ⟨hk, hr⟩
      · refine List.pairwise_cons.2 ⟨fun x hx => ?_, ih hr⟩
        rcases memory_mem_insert hx with rfl | hx
        · show k < a; omega
        · exact hk x hx

theorem memory_erase_rising {α : Type} {m : List (Nat × α)} (h : Memory.Rising m) (a : Nat) :
    Memory.Rising (Memory.erase m a) := by
  induction m with
  | nil => exact h
  | cons y rest ih =>
    obtain ⟨k, w⟩ := y
    obtain ⟨hk, hr⟩ := List.pairwise_cons.1 h
    simp only [Memory.erase]
    split
    · exact ih hr
    · exact List.pairwise_cons.2 ⟨fun x hx => hk x (memory_mem_erase hx), ih hr⟩

/-- A byte write keeps the canonical form. -/
theorem memory_writeByte_wf {m : List Host.Cell} (h : Memory.wf m) (a : Nat) (v : Byte) :
    Memory.wf (Memory.writeByte m a v) := by
  unfold Memory.writeByte
  split
  · exact ⟨memory_erase_rising h.1 a, fun c hc => h.2 c (memory_mem_erase hc)⟩
  · rename_i hv
    refine ⟨memory_insert_rising h.1 a v, fun c hc => ?_⟩
    rcases memory_mem_insert hc with rfl | hc
    · exact hv
    · exact h.2 c hc

/-- The memories of the machine right after reset are in canonical form. -/
theorem reset_memory_wf : Memory.wf State.reset.scratch ∧ Memory.Rising State.reset.dict := by
  exact ⟨⟨List.Pairwise.nil, fun _ h => by cases h⟩, List.Pairwise.nil⟩

/-- A byte write lists no index but its own. -/
theorem memory_mem_writeByte {m : List Host.Cell} {a : Nat} {v : Byte} {c : Host.Cell}
    (h : c ∈ Memory.writeByte m a v) : c.1 = a ∨ c ∈ m := by
  unfold Memory.writeByte at h
  split at h
  · exact .inr (memory_mem_erase h)
  · rcases memory_mem_insert h with rfl | h
    · exact .inl rfl
    · exact .inr h

/-- Appending an index above all the listed ones lists it last. -/
theorem memory_insert_last {α : Type} {m : List (Nat × α)} {a : Nat} (h : ∀ x ∈ m, x.1 < a) (v : α) :
    Memory.insert m a v = m ++ [(a, v)] := by
  induction m with
  | nil => rfl
  | cons y rest ih =>
    obtain ⟨k, w⟩ := y
    have hk : k < a := h (k, w) (by simp)
    simp only [Memory.insert]
    rw [if_neg (by omega), if_neg (by omega), ih fun x hx => h x (List.mem_cons_of_mem _ hx)]
    rfl

theorem memory_find_isSome {α : Type} (m : List (Nat × α)) (a : Nat) :
    (Memory.find m a).isSome ↔ a ∈ m.map Prod.fst := by
  induction m with
  | nil => simp [Memory.find]
  | cons y rest ih =>
    obtain ⟨k, w⟩ := y
    simp only [Memory.find, List.map_cons, List.mem_cons]
    split
    · simp [*]
    · simp [*]

theorem memory_mem_of_find {α : Type} {m : List (Nat × α)} {a : Nat} {v : α} (h : Memory.find m a = some v) :
    (a, v) ∈ m := by
  induction m with
  | nil => simp [Memory.find] at h
  | cons y rest ih =>
    obtain ⟨k, w⟩ := y
    simp only [Memory.find] at h
    split at h
    · rename_i hk; subst hk; simp_all
    · exact List.mem_cons_of_mem _ (ih h)

end Sys2Proof.Machine
end

