-- ==== Sys2Proof/Laws/Dictionary.lean ====
section
/-! SUPPORT. The Dictionary: what a chain walk writes and where the string stands, what `add` and `reset()` do to the
entries a read gives, and what leaves the strings of codes alone. -/

namespace Sys2Proof.Machine

/-! ## The chain walk -/

/-- The walk succeeds exactly where the chain has a string that fits, leaves it at the end of the free part, and writes
nowhere else. -/
theorem walk_spec (s : State) (i : Nat) (c : Code) (m : List Host.Cell) :
    match chainBytes s i c with
    | none => (walk s i c m).1 = none
    | some bytes =>
      bytes.length ≤ i ∧ (walk s i c m).1 = some (i - bytes.length) ∧
        (List.range' (i - bytes.length) bytes.length).map (Memory.readByte (walk s i c m).2) = bytes ∧
        ∀ a, a < i - bytes.length ∨ i ≤ a → Memory.readByte (walk s i c m).2 a = Memory.readByte m a := by
  induction i generalizing c m with
  | zero =>
    by_cases h : c = noCode s <;> simp [chainBytes, walk, h]
  | succ i ih =>
    by_cases h : c = noCode s
    · simp [chainBytes, walk, h]
    · cases he : readEntry s c.toNat with
      | none => simp [chainBytes, walk, h, he]
      | some e =>
        have ih' := ih e.prefixCode (Memory.writeByte m i e.byte)
        simp only [chainBytes, walk, if_neg h, he, Option.bind_some]
        cases hb : chainBytes s i e.prefixCode with
        | none => simpa [hb] using ih'
        | some bytes =>
          simp only [hb] at ih'
          obtain ⟨h1, h2, h3, h4⟩ := ih'
          simp only [Option.map_some, List.length_append, List.length_singleton]
          have hl : i + 1 - (bytes.length + 1) = i - bytes.length := by omega
          refine ⟨by omega, by rw [h2, hl], ?_, fun a ha => ?_⟩
          · rw [hl, List.range'_1_concat, List.map_append, h3]
            have hi : i - bytes.length + bytes.length = i := by omega
            simp [hi, h4 i (.inr (le_refl i)), memory_readByte_writeByte]
          · rw [hl] at ha
            rw [h4 a (by omega), memory_readByte_writeByte, if_neg (by omega)]

/-- The walk lists no index at or above the free part, and keeps the scratch buffer's canonical form. -/
theorem walk_keeps (s : State) (i : Nat) (c : Code) (m : List Host.Cell) (hm : Memory.wf m) :
    Memory.wf (walk s i c m).2 ∧ ∀ x ∈ (walk s i c m).2, x.1 < i ∨ x ∈ m := by
  induction i generalizing c m with
  | zero => exact ⟨hm, fun x hx => .inr hx⟩
  | succ i ih =>
    by_cases h : c = noCode s
    · simp only [walk, if_pos h]; exact ⟨hm, fun x hx => .inr hx⟩
    · cases he : readEntry s c.toNat with
      | none => simp only [walk, if_neg h, he]; exact ⟨hm, fun x hx => .inr hx⟩
      | some e =>
        simp only [walk, if_neg h, he]
        obtain ⟨h1, h2⟩ := ih e.prefixCode _ (memory_writeByte_wf hm i e.byte)
        refine ⟨h1, fun x hx => ?_⟩
        rcases h2 x hx with h | h
        · exact .inl (by omega)
        · rcases memory_mem_writeByte h with h | h
          · exact .inl (by omega)
          · exact .inr h

/-! ## Reading and writing entries -/

/-- What a dictionary read depends on. -/
theorem readEntry_congr {s t : State} (hp : t.params = s.params) (hm : t.maxCode = s.maxCode) (hd : t.dict = s.dict)
    (i : Nat) : readEntry t i = readEntry s i := by
  simp only [readEntry, noCode, hp, hm, hd]

theorem noCode_congr {s t : State} (hp : t.params = s.params) : noCode t = noCode s := by simp only [noCode, hp]

/-- What the string of a code depends on: the entries alone. -/
theorem chainBytes_congr {s t : State} (hp : t.params = s.params) (hr : ∀ i, readEntry t i = readEntry s i) (k : Nat)
    (c : Code) : chainBytes t k c = chainBytes s k c := by
  induction k generalizing c with
  | zero => simp only [chainBytes, noCode_congr hp]
  | succ k ih => simp only [chainBytes, noCode_congr hp, hr, ih]

theorem stringOf_congr {s t : State} (hp : t.params = s.params) (hr : ∀ i, readEntry t i = readEntry s i) (c : Code) :
    stringOf t c = stringOf s c := by
  simp only [stringOf, scratchSize, hp]
  exact chainBytes_congr hp hr _ c

/-- A string of a code other than `NOCODE` has at least one byte, and at most as many as entries were walked. -/
theorem chainBytes_length {s : State} {k : Nat} {c : Code} {bytes : List Byte} (h : chainBytes s k c = some bytes) :
    bytes.length ≤ k ∧ (c ≠ noCode s → bytes ≠ []) := by
  induction k generalizing c bytes with
  | zero =>
    simp only [chainBytes] at h
    split at h
    · simp_all
    · cases h
  | succ k ih =>
    simp only [chainBytes] at h
    split at h
    · simp_all
    · cases he : readEntry s c.toNat with
      | none => simp [he] at h
      | some e =>
        simp only [he, Option.bind_some, Option.map_eq_some_iff] at h
        obtain ⟨x, hx, rfl⟩ := h
        have := (ih hx).1
        simp; omega

/-- A chain walked with more steps allowed has the same string. -/
theorem chainBytes_mono {s : State} {k : Nat} {c : Code} {bytes : List Byte} (h : chainBytes s k c = some bytes)
    {n : Nat} (hn : bytes.length ≤ n) : chainBytes s n c = some bytes := by
  induction k generalizing c bytes n with
  | zero =>
    simp only [chainBytes] at h
    split at h
    · rename_i hc; cases n <;> simp_all [chainBytes]
    · cases h
  | succ k ih =>
    simp only [chainBytes] at h
    split at h
    · rename_i hc; cases n <;> simp_all [chainBytes]
    · rename_i hc
      cases he : readEntry s c.toNat with
      | none => simp [he] at h
      | some e =>
        simp only [he, Option.bind_some, Option.map_eq_some_iff] at h
        obtain ⟨x, hx, rfl⟩ := h
        cases n with
        | zero => simp at hn
        | succ n =>
          simp only [chainBytes, if_neg hc, he, Option.bind_some]
          rw [ih hx (by simpa using hn)]
          rfl

/-- An entry that takes an index without a value changes no string there was. -/
theorem chainBytes_of_more {s t : State} (hp : t.params = s.params)
    (hr : ∀ i e, readEntry s i = some e → readEntry t i = some e) {k : Nat} {c : Code} {bytes : List Byte}
    (h : chainBytes s k c = some bytes) : chainBytes t k c = some bytes := by
  induction k generalizing c bytes with
  | zero => simpa only [chainBytes, noCode_congr hp] using h
  | succ k ih =>
    simp only [chainBytes, noCode_congr hp] at h ⊢
    split at h
    · rename_i hc; rw [if_pos hc]; exact h
    · rename_i hc
      rw [if_neg hc]
      cases he : readEntry s c.toNat with
      | none => simp [he] at h
      | some e =>
        simp only [he, Option.bind_some, Option.map_eq_some_iff] at h
        obtain ⟨x, hx, rfl⟩ := h
        simp [hr _ _ he, ih hx]

/-! ## `resolve_to_bytes` -/

/-- Everything `resolve_to_bytes` can do. -/
theorem resolveToBytes_spec (code : Code) (s : State) :
    match stringOf s code with
    | none => (resolveToBytes code s).1 = none ∧
        (resolveToBytes code s).2 = { s with scratch := (resolveToBytes code s).2.scratch }
    | some bytes =>
      (resolveToBytes code s).1 = some { start := scratchSize s - bytes.length, length := bytes.length } ∧
        (resolveToBytes code s).2 = { s with scratch := (resolveToBytes code s).2.scratch } ∧
        ScratchHolds bytes s (resolveToBytes code s).2 := by
  have hw := walk_spec s (scratchSize s) code s.scratch
  unfold stringOf
  cases hb : chainBytes s (scratchSize s) code with
  | none =>
    simp only [hb] at hw ⊢
    unfold resolveToBytes
    cases hx : walk s (scratchSize s) code s.scratch with
    | mk a m => simp_all
  | some bytes =>
    simp only [hb] at hw ⊢
    obtain ⟨h1, h2, h3, h4⟩ := hw
    unfold resolveToBytes
    cases hx : walk s (scratchSize s) code s.scratch with
    | mk a m =>
      simp only [hx] at h2 h3 h4
      subst h2
      refine ⟨?_, rfl, ?_, ?_⟩
      · simp only [Option.some.injEq, StringAt.mk.injEq, true_and]; omega
      · exact h3
      · exact h4

/-- `resolve_to_bytes` keeps the scratch buffer's canonical form and its size. -/
theorem resolveToBytes_scratch (code : Code) {s : State} (h : Memory.wf s.scratch ∧ ∀ c ∈ s.scratch, c.1 < scratchSize s) :
    Memory.wf (resolveToBytes code s).2.scratch ∧ ∀ c ∈ (resolveToBytes code s).2.scratch, c.1 < scratchSize s := by
  obtain ⟨h1, h2⟩ := walk_keeps s (scratchSize s) code s.scratch h.1
  have hs : (resolveToBytes code s).2.scratch = (walk s (scratchSize s) code s.scratch).2 := by
    unfold resolveToBytes
    cases hx : walk s (scratchSize s) code s.scratch with
    | mk a m => cases a <;> rfl
  rw [hs]
  refine ⟨h1, fun c hc => ?_⟩
  rcases h2 c hc with h' | h'
  · exact h'
  · exact h.2 c h'

/-! ## `add` and `reset()` -/

theorem noCode_toNat {s : State} (h : s.params.WF) : (noCode s).toNat = s.params.capacity := by
  have := h.2.1
  simp only [noCode, Params.noCode, BitVec.toNat_ofNat]
  omega

/-- `add` with a real prefix where there is room: the next index gets the entry, and no other read changes. -/
theorem addEntry_room (p : Code) (b : Byte) {s : State} (hr : InRange s) (hp : p ≠ noCode s)
    (hroom : s.maxCode.toNat + 1 < s.params.capacity) :
    (addEntry p b s).1.toNat = s.maxCode.toNat + 1 ∧
      (addEntry p b s).2 =
        { s with
          maxCode := BitVec.ofNat 25 (s.maxCode.toNat + 1),
          dict := Memory.insert s.dict (s.maxCode.toNat + 1) { prefixCode := p, byte := b } } ∧
      ∀ i, readEntry (addEntry p b s).2 i =
        if i = s.maxCode.toNat + 1 then some { prefixCode := p, byte := b } else readEntry s i := by
  have hc := hr.params.2.1
  have hge := hr.max_ge
  have hn : (BitVec.ofNat 25 (s.maxCode.toNat + 1)).toNat = s.maxCode.toNat + 1 := by simp; omega
  have ha : addEntry p b s =
      (BitVec.ofNat 25 (s.maxCode.toNat + 1),
        { s with
          maxCode := BitVec.ofNat 25 (s.maxCode.toNat + 1),
          dict := Memory.insert s.dict (s.maxCode.toNat + 1) { prefixCode := p, byte := b } }) := by
    unfold addEntry dictionaryFull
    rw [if_neg hp, if_neg (by simp; omega)]
    simp only [hn, writeEntry]
  rw [ha]
  refine ⟨hn, rfl, fun i => ?_⟩
  simp only [readEntry, hn, memory_find_insert, noCode]
  by_cases h1 : i ≤ 255
  · simp [h1]; omega
  · by_cases h2 : i = s.maxCode.toNat + 1
    · subst h2; simp; omega
    · by_cases h3 : i ≤ s.maxCode.toNat
      · simp [h1, h2, h3]; omega
      · simp [h1, h2, h3]; omega

/-- `add` with a real prefix in a full dictionary answers `NOCODE` and changes nothing. -/
theorem addEntry_full (p : Code) (b : Byte) {s : State} (hp : p ≠ noCode s)
    (hfull : s.params.capacity ≤ s.maxCode.toNat + 1) : addEntry p b s = (noCode s, s) := by
  unfold addEntry dictionaryFull
  rw [if_neg hp, if_pos (by simpa using hfull)]

/-- `add` with the sentinel answers the byte and changes nothing. -/
theorem addEntry_noCode (b : Byte) (s : State) : addEntry (noCode s) b s = (b.setWidth 25, s) := by
  unfold addEntry; rw [if_pos rfl]

/-- After `reset()` the literals alone hold a value. -/
theorem readEntry_resetDictionary (s : State) (i : Nat) :
    readEntry (resetDictionary s) i = if 256 ≤ i then none else readEntry s i := by
  simp only [readEntry, noCode, resetDictionary_params, resetDictionary_maxCode, resetDictionary_dict]
  by_cases h : i ≤ 255
  · simp [h]; omega
  · simp [h, show 256 ≤ i by omega]

end Sys2Proof.Machine
end

