-- ==== Sys2Proof/Laws/Flags.lean ====
section
/-! SUPPORT. Each condition of the engine as a proposition about numbers. -/

namespace Sys2Proof.Machine

theorem outOfData_iff (n : Nat) (s : State) :
    outOfData n s = true ↔ unreadBytes s = [] ∧ s.bitCount.toNat < n := by
  simp [outOfData]

theorem truncated_iff (s : State) : truncated s = true ↔ s.params.strictEof = true ∧ s.bitCount ≠ 0 := by
  simp [truncated]

theorem dictionaryFull_iff (s : State) : dictionaryFull s = true ↔ s.params.capacity ≤ s.maxCode.toNat + 1 := by
  simp [dictionaryFull]

theorem widthGrows_iff (s : State) :
    widthGrows s = true ↔
      s.mode = .grow ∧ s.maxCode.toNat + 1 = 2 ^ s.codeWidth.toNat ∧ s.codeWidth.toNat < maxWidth := by
  simp [widthGrows, and_assoc]

theorem overflows_iff (s : State) :
    overflows s = true ↔ s.mode = .grow ∧ s.maxCode.toNat + 1 = s.params.capacity := by
  simp [overflows]

end Sys2Proof.Machine
end

