-- ==== Sys2Proof/Laws/Words.lean ====
section
/-! SUPPORT. The parts of an engine iteration: what delivering a string, the deferred add, and steps 4 to 6 can do, and
what step 1 finds. -/

namespace Sys2Proof.Machine

/-- Everything `deliver` can do: the chain's string is emitted, or InvalidCode is raised with nothing but the scratch
buffer written before. -/
theorem deliver_spec (code : Code) (s : State) (hc : code ≠ noCode s) :
    match stringOf s code with
    | none => ∃ u, deliver code s = .error (raise .invalidCode u) ∧ u = { s with scratch := u.scratch }
    | some run =>
      ∃ t, deliver code s = .ok t ∧ RunEmitted run s t ∧
        t = { s with out := t.out, firstChar := t.firstChar, scratch := t.scratch } := by
  have hs := resolveToBytes_spec code s
  cases hb : stringOf s code with
  | none =>
    simp only [hb] at hs
    cases hx : resolveToBytes code s with
    | mk a u =>
      simp only [hx] at hs
      obtain ⟨rfl, hu⟩ := hs
      exact ⟨u, by simp only [deliver, hx], hu⟩
  | some run =>
    simp only [hb] at hs
    cases hx : resolveToBytes code s with
    | mk a u =>
      simp only [hx] at hs
      obtain ⟨rfl, hu, hh⟩ := hs
      have hne := (chainBytes_length hb).2 hc
      obtain ⟨b, rest, rfl⟩ : ∃ b rest, run = b :: rest := by
        cases run with
        | nil => exact absurd rfl hne
        | cons b rest => exact ⟨b, rest, rfl⟩
      refine ⟨_, by simp only [deliver, hx]; rfl, ⟨?_, ?_, ?_⟩, ?_⟩
      · simp only [emitRun_out, hh.1]; rw [hu]
      · have h1 := congrArg List.head? hh.1
        simp only [scratchBytes, List.length_cons, List.range'_succ, List.map_cons, List.head?_cons] at h1
        simp only [List.head?_cons, List.length_cons]
        exact h1.symm
      · exact hh
      · simp only [emitRun]; rw [hu]

/-- The deferred add where there is room. -/
theorem addDeferred_room {s : State} (hr : InRange s) (hp : s.prevCode ≠ noCode s)
    (hroom : s.maxCode.toNat + 1 < s.params.capacity) :
    ∃ t, addDeferred s = .ok t ∧ t.maxCode.toNat = s.maxCode.toNat + 1 ∧
      t = { s with
            maxCode := BitVec.ofNat 25 (s.maxCode.toNat + 1),
            dict := Memory.insert s.dict (s.maxCode.toNat + 1) { prefixCode := s.prevCode, byte := s.firstChar } } ∧
      ∀ i, readEntry t i =
        if i = s.maxCode.toNat + 1 then some { prefixCode := s.prevCode, byte := s.firstChar } else readEntry s i := by
  obtain ⟨h1, h2, h3⟩ := addEntry_room s.prevCode s.firstChar hr hp hroom
  have hne : (addEntry s.prevCode s.firstChar s).1 ≠ noCode s := by
    intro h
    have := congrArg BitVec.toNat h
    rw [h1, noCode_toNat hr.params] at this
    omega
  have hc := hr.params.2.1
  refine ⟨_, by rw [addDeferred, if_neg hne], ?_, h2, h3⟩
  rw [h2]; simp; omega

/-- The deferred add in a full dictionary raises DictionaryFull over an unchanged state. -/
theorem addDeferred_full {s : State} (hp : s.prevCode ≠ noCode s)
    (hfull : s.params.capacity ≤ s.maxCode.toNat + 1) : addDeferred s = .error (raise .dictionaryFull s) := by
  rw [addDeferred, addEntry_full _ _ hp hfull, if_pos rfl]

/-- Steps 4 to 6 in StringOnly mode are step 4. -/
theorem completeWord_stringOnly (code : Code) {s : State} (h : s.mode = .stringOnly) :
    completeWord code s = { s with prevCode := code, phase := .running } := by
  rw [completeWord, growWidth, if_neg (by rw [widthGrows_iff]; simp [h]), handleOverflow,
    if_neg (by rw [overflows_iff]; simp [h])]
  rfl

/-- What steps 4 to 6 write: the registers of the next word, and on the overflow reset the dictionary. -/
theorem completeWord_frame (code : Code) (s : State) :
    completeWord code s =
      { s with
        prevCode := (completeWord code s).prevCode, phase := (completeWord code s).phase,
        maxCode := (completeWord code s).maxCode, codeWidth := (completeWord code s).codeWidth,
        dict := (completeWord code s).dict } := by
  unfold completeWord handleOverflow growWidth
  split <;> split <;> rfl

/-- Steps 4 to 6 in Grow mode. -/
theorem completeWord_grow (code : Code) {s : State} (h : s.mode = .grow) :
    GrowStepsDone code s.maxCode.toNat s (completeWord code s) ∧
      ∀ i, readEntry (completeWord code s) i =
        if s.maxCode.toNat + 1 = s.params.capacity ∧ 256 ≤ i then none else readEntry s i := by
  have hg : widthGrows (setPrevious code s) = true ↔
      s.maxCode.toNat + 1 = 2 ^ s.codeWidth.toNat ∧ s.codeWidth.toNat < maxWidth := by
    rw [widthGrows_iff]; simp [h]
  have ho : ∀ t : State, t.mode = s.mode → t.maxCode = s.maxCode → t.params = s.params →
      (overflows t = true ↔ s.maxCode.toNat + 1 = s.params.capacity) := by
    intro t h1 h2 h3
    rw [overflows_iff, h1, h2, h3]; simp [h]
  have hov := ho (growWidth (setPrevious code s)) (by simp) (by simp) (by simp)
  by_cases hfull : s.maxCode.toNat + 1 = s.params.capacity
  · have hcw : completeWord code s = resetDictionary (growWidth (setPrevious code s)) := by
      rw [completeWord, handleOverflow, if_pos (hov.2 hfull)]
    rw [hcw]
    constructor
    · unfold GrowStepsDone
      rw [if_pos hfull]
      simp [noCode]
    · intro i
      rw [readEntry_resetDictionary]
      simp only [hfull, true_and]
      split
      · rfl
      · exact readEntry_congr (by simp) (by simp) (by simp) i
  · have hcw : completeWord code s = growWidth (setPrevious code s) := by
      rw [completeWord, handleOverflow, if_neg fun hx => hfull (hov.1 hx)]
    rw [hcw]
    constructor
    · unfold GrowStepsDone
      rw [if_neg hfull]
      refine ⟨by simp, by simp, by simp, ?_⟩
      unfold growWidth
      by_cases hp : s.maxCode.toNat + 1 = 2 ^ s.codeWidth.toNat ∧ s.codeWidth.toNat < maxWidth
      · rw [if_pos (hg.2 hp), if_pos hp]
        have := hp.2
        unfold maxWidth at this
        simp; omega
      · rw [if_neg fun hx => hp (hg.1 hx), if_neg hp]; rfl
    · intro i
      simp only [hfull, false_and, if_false]
      exact readEntry_congr (by simp) (by simp) (by simp) i

/-- Everything the engine's step 1 can find: a width outside the contract, a word in its class with its bits taken from
the stream, or NODATA with the chunk's bits all buffered. -/
theorem readWord_spec (s : State) :
    (maxWidth < s.codeWidth.toNat ∧ readWord s = none) ∨
      (s.codeWidth.toNat ≤ maxWidth ∧
        ((∃ code t, readBits s.codeWidth.toNat s = (.code code, t) ∧
            readWord s = some (classify (classRegs t) code, t)) ∨
          ∃ t, readBits s.codeWidth.toNat s = (.noData, t) ∧ readWord s = some (.noData, t))) := by
  unfold readWord
  by_cases h : maxWidth < s.codeWidth.toNat
  · exact .inl ⟨h, if_pos h⟩
  · right
    refine ⟨by omega, ?_⟩
    rw [if_neg h]
    cases hx : readBits s.codeWidth.toNat s with
    | mk a t =>
      cases a with
      | code c => exact .inl ⟨c, t, rfl, rfl⟩
      | noData => exact .inr ⟨t, rfl, rfl⟩

/-- The engine runs a word as the instruction it stands for. -/
theorem runWord_eq_exec (w : ReadWord) (s : State) : runWord w s = exec w.instr s := by
  cases w <;> rfl

/-- A word as it was classified has its class's meaning. -/
theorem whenClass_self (code : Code) (s t : State) :
    whenClass (classify (classRegs s) code) code s t = .next t := if_pos rfl

end Sys2Proof.Machine
end

