-- ==== Sys2Proof/Laws/Engine.lean ====
section
/-! SUPPORT. The engine's loop and the machine's step: what one iteration is, when the loop is over, and the entries a
restored table gives. -/

namespace Sys2Proof.Machine

/-- While a command executes, a step is the command's next iteration. -/
theorem step_busy {s : State} (h : s.busy = true) : step s = iteration s := by
  unfold step fetch iteration
  rw [if_pos h]
  cases hx : readWord s with
  | none => rfl
  | some p => simp only [runWord_eq_exec]

/-- The loop is over when no command executes. -/
theorem engineLoop_idle (fuel : Nat) {s : State} (h : s.busy = false) : engineLoop fuel s = .next s := by
  cases fuel <;> simp [engineLoop, h]

/-- The loop goes on from where an iteration leaves it. -/
theorem engineLoop_busy (fuel : Nat) {s t : State} (h : s.busy = true) (hi : iteration s = .next t) :
    engineLoop (fuel + 1) s = engineLoop fuel t := by
  simp [engineLoop, h, hi]

/-- An idle block takes a command. -/
theorem whenIdle_idle {s : State} (h : s.busy = false) (o : Host.Outcome State Fault Refusal) : whenIdle s o = o := by
  simp [whenIdle, h]

/-- A block that is executing a command takes none. -/
theorem whenIdle_busy {s : State} (h : s.busy = true) (o : Host.Outcome State Fault Refusal) :
    whenIdle s o = .refused .commandInProgress := by
  simp [whenIdle, h]

/-- The indices a table's entries take. -/
theorem tableEntries_keys (i : Nat) (entries : List Entry) :
    (tableEntries i entries).map Prod.fst = List.range' i entries.length := by
  induction entries generalizing i with
  | nil => rfl
  | cons e rest ih => simp [tableEntries, ih, List.range'_succ]

/-- The entry a table gives an index. -/
theorem tableEntries_find (i j : Nat) (entries : List Entry) :
    Memory.find (tableEntries i entries) (i + j) = entries[j]? := by
  induction entries generalizing i j with
  | nil => rfl
  | cons e rest ih =>
    cases j with
    | zero => simp [tableEntries, Memory.find]
    | succ j =>
      have h := ih (i + 1) j
      rw [show i + 1 + j = i + (j + 1) by omega] at h
      simp [tableEntries, Memory.find, h]

end Sys2Proof.Machine
end

