-- ==== Sys2Proof/Laws/PerInstr.lean ====
section
/-! SUPPORT. For every instruction, what its encoded form holds: a command keeps its code and its operand, a word is its code
written in exactly its width, and an internal operation has nothing to read. -/

namespace Sys2Proof.Laws.EncodedForm

/-- The code a word-class instruction carries. -/
def wordCode : Instr → Option Code
  | .first code => some code
  | .known code => some code
  | .next code => some code
  | .string code => some code
  | .invalid code => some code
  | .init => none
  | .restore _ => none
  | .decodeChunk _ => none
  | .reservedCmd3 => none
  | .noData => none
  | .readBits _ => none
  | .resolveToBytes _ => none
  | .add _ _ => none
  | .reset => none
  | .emit _ => none

/-- What the encoded form of an instruction holds, at any width (`30_encoding.md` R91, R92, R107). -/
def Holds (width : Nat) (i : Instr) : Encoding → Prop
  | .command c => decodeCommand c = i
  | .word bits => bits.length = width ∧ ∃ code, wordCode i = some code ∧ bitsValue bits = code.toNat % 2 ^ width
  | .internal => wordCode i = none

def Statement (i : Instr) : Prop := ∀ width, Holds width i (encode width i)

/-- A word of a code has the width's bits, and they are the code's. -/
theorem word_holds (code : Code) (i : Instr) (width : Nat) (h : wordCode i = some code) :
    Holds width i (.word (wordBits width code.toNat)) :=
  ⟨wordBits_length _ _, code, h, bitsValue_wordBits _ _⟩

theorem init : Statement .init := fun _ => rfl

theorem restore (entries : List Entry) : Statement (.restore entries) := fun _ => rfl

theorem decodeChunk (chunk : List Byte) : Statement (.decodeChunk chunk) := fun _ => rfl

theorem reservedCmd3 : Statement .reservedCmd3 := fun _ => rfl

theorem first (code : Code) : Statement (.first code) := fun width => word_holds code _ width rfl

theorem known (code : Code) : Statement (.known code) := fun width => word_holds code _ width rfl

theorem next (code : Code) : Statement (.next code) := fun width => word_holds code _ width rfl

theorem string (code : Code) : Statement (.string code) := fun width => word_holds code _ width rfl

theorem invalid (code : Code) : Statement (.invalid code) := fun width => word_holds code _ width rfl

theorem noData : Statement .noData := fun _ => rfl

theorem readBits (n : Nat) : Statement (.readBits n) := fun _ => rfl

theorem resolveToBytes (code : Code) : Statement (.resolveToBytes code) := fun _ => rfl

theorem add (prefixCode : Code) (trailingByte : Byte) : Statement (.add prefixCode trailingByte) := fun _ => rfl

theorem reset : Statement .reset := fun _ => rfl

theorem emit (run : List Byte) : Statement (.emit run) := fun _ => rfl

end Sys2Proof.Laws.EncodedForm
end

