-- ==== Sys2Proof/Tests/Slice0.lean ====
section
/-! SUPPORT. Tests of one step each, with expected values from `95_test_vectors.md` or worked out from the rule named, the
well-formedness smoke tests, and for every obligation with hypotheses a witness that meets them. -/

namespace Sys2Proof.Tests

open Sys2Proof.Machine Host.Outcome

/-! ## Small states -/

/-- A block with a dictionary of 260 entries, right after reset. -/
def idle : State := State.resetWith { capacity := 260, restoreWidth := 9, strictEof := false }

/-- The same block in a strict build. -/
def strict : State := State.resetWith { capacity := 260, restoreWidth := 9, strictEof := true }

/-- A Grow session after the word of one literal byte. -/
def after (b : Byte) (s : State) : State :=
  { s with prevCode := b.setWidth 25, firstChar := b, codeWidth := 9, phase := .running }

/-- A Grow session that has learned `256 = (0x41, 0x42)`, after the word `0x42`, between two commands. -/
def learned : State :=
  { after 0x42 idle with maxCode := 256, dict := [(256, ⟨0x41, 0x42⟩)], phase := .exhausted, out := [[0x41], [0x42]] }

/-- The hand-built full state of the vectors F7 to F9: 0x41 / 259 / 9 / 0x41, capacity 260. -/
def full : State :=
  { after 0x41 idle with
    maxCode := 259, dict := [(256, ⟨0x41, 0x41⟩), (257, ⟨256, 0x41⟩), (258, ⟨257, 0x41⟩), (259, ⟨258, 0x41⟩)] }

/-- The state of the vectors F3 and F4 with a given prefix in entry 256. -/
def cyclic (p : Code) : State := loadTable [⟨p, 0x41⟩] idle

/-- A hand-built Grow state whose last code has a chain with a prefix that holds no value. -/
def corrupt : State := { after 0x41 idle with prevCode := 256, maxCode := 256, dict := [(256, ⟨258, 0x41⟩)] }

/-- The bit reader with valid bits `v` (as a number) of count `n` at the start of a chunk. -/
def reader (v n : Nat) (chunk : List Byte) : State :=
  { idle with acc := BitVec.ofNat 32 v, bitCount := BitVec.ofNat 5 n, chunk := chunk }

/-- The next state of an answer, if it is one. -/
def next? : Host.Outcome State Fault Refusal → Option State
  | .next s => some s
  | .fault _ => none
  | .refused _ => none

theorem exists_next {o : Host.Outcome State Fault Refusal} (h : (next? o).isSome = true) : ∃ t, o = next t := by
  cases o with
  | next s => exact ⟨s, rfl⟩
  | fault r => cases h
  | refused r => cases h

theorem eq_next {o : Host.Outcome State Fault Refusal} {t : State} (h : next? o = some t) : o = next t := by
  cases o with
  | next s => cases h; rfl
  | fault r => cases h
  | refused r => cases h

/-- The registers the vectors list: previous code, maximum code, width, first byte. -/
def regs (s : State) : List Nat :=
  [s.prevCode.toNat, s.maxCode.toNat, s.codeWidth.toNat, s.firstChar.toNat]

/-! ## Well-formedness: an ill-formed term for each check -/

theorem test_wf_word_of_25_bits :
    (Instr.first 0x1000000).wf = false ∧ (Instr.known 0x1000000).wf = false ∧ (Instr.next 0x1000000).wf = false ∧
      (Instr.string 0x1000000).wf = false ∧ (Instr.invalid 0x1000000).wf = false := by decide

theorem test_wf_read_of_25_bits : (Instr.readBits 25).wf = false := by decide

theorem test_wf_prefix_above_nocode : (Instr.add 0x1000001 0).wf = false := by decide

theorem test_wf_empty_run : (Instr.emit []).wf = false := by decide

theorem wf_refuses_long_chunk {chunk : List Byte} (h : maxChunkLen < chunk.length) :
    (Instr.decodeChunk chunk).wf = false :=
  decide_eq_false (Nat.not_le_of_lt h)

theorem test_wf_chunk_too_long : (Instr.decodeChunk (List.replicate (2 ^ 32) 0)).wf = false :=
  wf_refuses_long_chunk (by rw [List.length_replicate]; decide)

theorem test_wf_accepts :
    (Instr.first 0xFFFFFF).wf = true ∧ (Instr.known 0).wf = true ∧ (Instr.next 0x100).wf = true ∧
      (Instr.string 0xFFFFFF).wf = true ∧ (Instr.invalid 0x102).wf = true ∧ (Instr.readBits 24).wf = true ∧
      (Instr.add 0x1000000 0).wf = true ∧ (Instr.emit [0]).wf = true ∧ (Instr.decodeChunk [0]).wf = true ∧
      Instr.init.wf = true ∧ (Instr.restore []).wf = true ∧ Instr.reservedCmd3.wf = true ∧ Instr.noData.wf = true ∧
      (Instr.resolveToBytes 300).wf = true ∧ Instr.reset.wf = true := by decide

/-! ## Decoding: command codes and words written out bit by bit (`30_encoding.md` R107, R91, R92, R97) -/

theorem test_decode_init : decodeTableWord 8 0b00 = some .init := by decide

theorem test_decode_restore :
    decodeTableWord 8 0b01 = some (.restore []) ∧
      decodeCommand ⟨0b01, [⟨0x54, 0x4F⟩], []⟩ = .restore [⟨0x54, 0x4F⟩] := by decide

theorem test_decode_decodeChunk :
    decodeTableWord 8 0b10 = some (.decodeChunk []) ∧ decodeCommand ⟨0b10, [], [0x41]⟩ = .decodeChunk [0x41] := by decide

theorem test_decode_reservedCmd3 : decodeTableWord 8 0b11 = some .reservedCmd3 := by decide

/-- Only the two low bits are the command code, and a shorter word has none. -/
theorem test_decode_width : decodeTableWord 8 0b11111100 = some .init ∧ decodeTableWord 1 0 = none := by decide

/-- E1: `0100 0001` at width 8. -/
theorem test_decode_first :
    decode (classRegs idle) (.word [false, true, false, false, false, false, false, true]) = some (.first 0x41) := by
  decide

/-- E2: `0 0100 1111` at width 9. -/
theorem test_decode_known :
    decode (classRegs (after 0x54 idle)) (.word [false, false, true, false, false, true, true, true, true]) =
      some (.known 0x4F) := by decide

/-- E3: `1 0000 0000` at width 9. -/
theorem test_decode_next :
    decode (classRegs (after 0x41 idle)) (.word [true, false, false, false, false, false, false, false, false]) =
      some (.next 0x100) := by decide

/-- F4's word `1 0000 0000` at width 9 in StringOnly mode. -/
theorem test_decode_string :
    decode (classRegs (cyclic 290)) (.word [true, false, false, false, false, false, false, false, false]) =
      some (.string 0x100) := by decide

/-- E6: `1 0000 0001` at width 9. -/
theorem test_decode_invalid :
    decode (classRegs (after 0x41 idle)) (.word [true, false, false, false, false, false, false, false, true]) =
      some (.invalid 0x101) := by decide

/-- The end of the chunk and the component operations have no encoded form (R97). -/
theorem test_decode_internal :
    encode 9 .noData = .internal ∧ encode 9 (.readBits 9) = .internal ∧ encode 9 (.resolveToBytes 0) = .internal ∧
      encode 9 (.add 0 0) = .internal ∧ encode 9 .reset = .internal ∧ encode 9 (.emit [0]) = .internal ∧
      decode (classRegs idle) .internal = none := by decide

/-- The example of `pack` (R105). -/
theorem test_pack : pack [⟨0x41, 8⟩, ⟨0x100, 9⟩, ⟨0x41, 9⟩] = [0x41, 0x80, 0x10, 0x40] := by decide

/-! ## The Bit Reader -/

/-- B3: the oldest bits are the buffered ones. -/
theorem test_readBits_b3 :
    (next? (exec (.readBits 9) (reader 0b0010000 7 [0x40]))).map (fun t => (t.returned, t.bitCount, validBits t, t.inPos)) =
      some (.code 0x041, 6, [false, false, false, false, false, false], 1) := by decide

/-- B8: the widest case. -/
theorem test_readBits_b8 :
    (next? (exec (.readBits 24) (reader 0b1010101 7 [0xFF, 0x00, 0xFF]))).map (fun t => (t.returned, t.bitCount, t.inPos)) =
      some (.code 0xABFE01, 7, 3) := by decide

/-! ## The Dictionary -/

/-- Dictionary D of the vectors, as far as `268` reaches, with the other indices of no use. -/
def dictD : State :=
  { State.reset with maxCode := 270, dict := [(256, ⟨0x54, 0x4F⟩), (265, ⟨256, 0x42⟩), (268, ⟨265, 0x45⟩)] }

/-- K5: four bytes at the end of the scratch buffer. -/
theorem test_resolve_k5 :
    (next? (exec (.resolveToBytes 268) dictD)).map
        (fun t => (t.returned, scratchBytes t { start := 65532, length := 4 })) =
      some (.string 65532 4, [0x54, 0x4F, 0x42, 0x45]) := by decide

/-- K11: a prefix that holds no value fails after one scratch byte. -/
theorem test_resolve_k11 :
    (next? (exec (.resolveToBytes 300) { dictD with maxCode := 300, dict := [(300, ⟨400, 0x41⟩)] })).map
        (fun t => (t.returned, t.scratch)) = some (.fail, [(65535, 0x41)]) := by decide

/-- K7: the next index takes the entry. -/
theorem test_add_k7 :
    (next? (exec (.add 263 0x54) { State.reset with maxCode := 263 })).map (fun t => (t.returned, t.maxCode, readEntry t 264)) =
      some (.newCode 264, 264, some ⟨263, 0x54⟩) := by decide

/-- K8 and K6: a full dictionary answers `NOCODE`, and the sentinel's byte is answered as a code. -/
theorem test_add_k8_k6 :
    next? (exec (.add 5 0) { State.reset with maxCode := 65535 }) =
        some { State.reset with maxCode := 65535, returned := .newCode 65536 } ∧
      next? (exec (.add 65536 0x54) State.reset) = some { State.reset with returned := .newCode 0x54 } := by decide

/-- K12, with one learned entry. -/
theorem test_reset_k12 :
    (next? (exec .reset
          { State.reset with
            maxCode := 511, codeWidth := 10, prevCode := 300, bitCount := 3, acc := 5, firstChar := 0x61,
            phase := .running, dict := [(300, ⟨0x41, 0x42⟩)] })).map
        (fun t => (regs t, t.phase, t.bitCount, t.acc, readEntry t 300)) =
      some ([65536, 255, 8, 0x61], .awaitingFirstCode, 3, 5, none) := by decide

/-! ## The Output Sink -/

/-- O2. -/
theorem test_emit_o2 :
    (next? (exec (.emit [0x54, 0x4F]) { idle with out := [[0x54]] })).map (fun t => (t.out, flatOut t)) =
      some ([[0x54], [0x54, 0x4F]], [0x54, 0x54, 0x4F]) := by decide

/-! ## The word classes -/

/-- E1. -/
theorem test_first_e1 :
    (next? (exec (.first 0x41) idle)).map (fun t => (t.out, regs t, t.phase, t.dict)) =
      some ([[0x41]], [0x41, 255, 9, 0x41], .running, []) := by decide

/-- E2. -/
theorem test_known_e2 :
    (next? (exec (.known 0x4F) (after 0x54 idle))).map (fun t => (t.out, regs t, readEntry t 256)) =
      some ([[0x4F]], [0x4F, 256, 9, 0x4F], some ⟨0x54, 0x4F⟩) := by decide

/-- E13, from a chain of the same shape: the overflow reset. -/
theorem test_known_e13 :
    (next? (exec (.known 0x101)
          { after 0x41 idle with
            prevCode := 0x102, maxCode := 258,
            dict := [(256, ⟨0x41, 0x42⟩), (257, ⟨0x42, 0x41⟩), (258, ⟨257, 0x42⟩)] })).map
        (fun t => (t.out, regs t, t.phase)) =
      some ([[0x42, 0x41]], [260, 255, 8, 0x42], .awaitingFirstCode) := by decide

/-- E4: the string of a NEXT word is the entry it has just added. -/
theorem test_next_e4 :
    (next? (exec (.next 0x101)
          { after 0x41 idle with prevCode := 0x100, maxCode := 256, dict := [(256, ⟨0x41, 0x41⟩)] })).map
        (fun t => (t.out, regs t, readEntry t 257)) =
      some ([[0x41, 0x41, 0x41]], [0x101, 257, 9, 0x41], some ⟨256, 0x41⟩) := by decide

/-- F8: a full dictionary, nothing emitted. -/
theorem test_next_f8 :
    (next? (exec (.next 260) { full with busy := true, chunk := [0x82, 0x00], inPos := 2 })).map
        (fun t => (t.outcome, t.out, regs t, t.phase)) =
      some (.chunk (.fault .dictionaryFull) 2, [], [0x41, 259, 9, 0x41], .faulted) := by decide

/-- E10 at width 9: no growth. -/
theorem test_string_e10 :
    (next? (exec (.string 257) (loadTable [⟨0x54, 0x4F⟩, ⟨256, 0x42⟩] idle))).map (fun t => (t.out, regs t)) =
      some ([[0x54, 0x4F, 0x42]], [257, 257, 9, 0x54]) := by decide

/-- F4 with capacity 260: a prefix that holds no value. -/
theorem test_string_f4 :
    (next? (exec (.string 256) (cyclic 258))).map (fun t => (t.faultKind, t.out, regs t, t.phase)) =
      some (some .invalidCode, [], [260, 256, 9, 0], .faulted) := by decide

/-- E6. -/
theorem test_invalid_e6 :
    (next? (exec (.invalid 0x101) (after 0x41 idle))).map (fun t => (t.faultKind, t.out, regs t, t.phase)) =
      some (some .invalidCode, [], [0x41, 255, 9, 0x41], .faulted) := by decide

/-- E12: the first word of an epoch cannot be NEXT. -/
theorem test_invalid_e12 :
    (next? (exec (.invalid 257) { idle with maxCode := 256, codeWidth := 9 })).map (fun t => t.faultKind) =
      some (some .invalidCode) := by decide

/-- E15 in both builds. -/
theorem test_noData_e15 :
    (next? (exec .noData { after 0x41 idle with busy := true, bitCount := 6 })).map (fun t => (t.phase, t.outcome)) =
        some (.exhausted, .chunk .needMoreInput 0) ∧
      (next? (exec .noData { after 0x41 strict with busy := true, bitCount := 6 })).map (fun t => (t.phase, t.outcome)) =
        some (.faulted, .chunk (.fault .inputTruncated) 0) := by decide

/-! ## The host commands -/

/-- H1 and O3: INIT from phase Faulted, and the sink keeps its runs. -/
theorem test_init_h1 :
    next? (exec .init
        { learned with phase := .faulted, faultKind := some .invalidCode, bitCount := 7, acc := 0x55, out := [[0x41]] }) =
      some { idle with out := [[0x41]] } := by decide

/-- H4 at width 9. -/
theorem test_restore_h4 :
    (next? (exec (.restore [⟨0x54, 0x4F⟩, ⟨256, 0x42⟩]) learned)).map
        (fun t => (t.outcome, regs t, t.mode, readEntry t 256, readEntry t 257)) =
      some (.accepted, [260, 257, 9, 0], .stringOnly, some ⟨0x54, 0x4F⟩, some ⟨256, 0x42⟩) := by decide

/-- H6 with capacity 260: five entries for four slots. -/
theorem test_restore_h6 :
    next? (exec (.restore (List.replicate 5 ⟨0x41, 0x42⟩)) learned) =
      some
        { idle with
          out := learned.out, phase := .faulted, faultKind := some .dictionaryFull,
          outcome := .restoreFault .dictionaryFull } := by decide

/-- H3: the command finds phase Exhausted with no previous code. -/
theorem test_decodeChunk_h3 :
    (next? (exec (.decodeChunk [0x41]) { idle with phase := .exhausted })).map (fun t => (t.outcome, t.out, regs t, t.phase)) =
      some (.chunk .needMoreInput 1, [[0x41]], [0x41, 255, 9, 0x41], .exhausted) := by decide

/-- F5: the padding bits of a strict build. -/
theorem test_decodeChunk_f5 :
    (next? (exec (.decodeChunk [0x41, 0x80, 0x10, 0x40]) strict)).map
        (fun t => (t.outcome, flatOut t, regs t, t.bitCount, t.phase)) =
      some (.chunk (.fault .inputTruncated) 4, [0x41, 0x41, 0x41, 0x41], [0x41, 257, 9, 0x41], 6, .faulted) := by decide

theorem test_reservedCmd3 : next? (exec .reservedCmd3 learned) = some learned := by decide

/-- The first instruction after reset is the command placed for it. -/
theorem test_step_runs_the_placed_command :
    next? (step (State.reset.withFetchWord 8 0)) = some State.reset ∧
      (next? (step (State.reset.withFetchWord 8 1))).map (fun t => t.outcome) = some .accepted ∧
      (next? (step (State.reset.withFetchWord 8 2))).map (fun t => t.outcome) = some (.chunk .needMoreInput 0) ∧
      next? (step (State.reset.withFetchWord 8 3)) = some State.reset := by decide

/-! ## Witnesses: for every obligation with hypotheses, a state and operands that meet them -/

/-- The ranges of the registers, as one proposition to decide. -/
abbrev RangeCheck (s : State) : Prop :=
  s.params.WF ∧ s.prevCode.toNat ≤ s.params.capacity ∧ 255 ≤ s.maxCode.toNat ∧ s.maxCode.toNat < s.params.capacity ∧
    minWidth ≤ s.codeWidth.toNat ∧ s.codeWidth.toNat ≤ maxWidth

theorem inRange_of {s : State} (h : RangeCheck s) : InRange s :=
  ⟨h.1, h.2.1, h.2.2.1, h.2.2.2.1, h.2.2.2.2.1, h.2.2.2.2.2⟩

/-- The clauses of a Grow session, as one proposition to decide. -/
abbrev GrowCheck (s : State) : Prop :=
  s.maxCode.toNat + 1 < s.params.capacity ∧ (s.prevCode = noCode s → s.maxCode = 255 ∧ s.codeWidth = 8) ∧
    (s.prevCode ≠ noCode s → s.prevCode.toNat ≤ s.maxCode.toNat) ∧
    (s.prevCode ≠ noCode s → 9 ≤ s.codeWidth.toNat ∧ 2 ^ (s.codeWidth.toNat - 1) ≤ s.maxCode.toNat + 1 ∧
      s.maxCode.toNat + 1 < 2 ^ s.codeWidth.toNat) ∧
    (∀ x ∈ s.dict, x.2.prefixCode.toNat < x.1) ∧
    (s.prevCode ≠ noCode s → (stringOf s s.prevCode).bind List.head? = some s.firstChar)

theorem growInv_of {s : State} (h : GrowCheck s) : GrowInv s := by
  obtain ⟨h1, h2, h3, h4, h5, h6⟩ := h
  refine ⟨h1, h2, h3, h4, h5, fun hp => ?_⟩
  have := h6 hp
  cases hs : stringOf s s.prevCode with
  | none => simp [hs] at this
  | some run =>
    cases run with
    | nil => simp [hs] at this
    | cons b rest => simp [hs] at this; exact ⟨rest, by rw [this]⟩

/-- The clauses of a session about the bit reader and the phase, as one proposition to decide. -/
abbrev PhaseCheck (s : State) : Prop :=
  s.bitCount.toNat < s.codeWidth.toNat ∧ (s.busy = true → s.inPos ≠ 0 → s.bitCount.toNat ≤ 7) ∧
    (s.phase = .faulted ↔ s.faultKind ≠ none) ∧ (s.phase = .awaitingFirstCode → s.prevCode = noCode s) ∧
    (s.phase = .running → s.prevCode ≠ noCode s) ∧
    (s.busy = true → s.phase = .awaitingFirstCode ∨ s.phase = .running)

/-- The clauses of a session about what is stored, as one proposition to decide. -/
abbrev StoreCheck (s : State) : Prop :=
  s.dict.map Prod.fst = List.range' 256 (s.maxCode.toNat - 255) ∧
    (Memory.wf s.scratch ∧ ∀ c ∈ s.scratch, c.1 < scratchSize s) ∧
    (s.inPos ≤ s.chunk.length ∧ (s.busy = false → s.chunk = [] ∧ s.inPos = 0)) ∧ (∀ run ∈ s.out, run ≠ []) ∧
    (s.mode = .stringOnly → s.codeWidth.toNat = s.params.restoreWidth)

theorem session_of {s : State} (hr : RangeCheck s) (hp : PhaseCheck s) (hs : StoreCheck s)
    (hg : s.mode = .grow → GrowCheck s) : SessionInv s := by
  obtain ⟨p1, p2, p3, p4, p5, p6⟩ := hp
  obtain ⟨s1, s2, s3, s4, s5⟩ := hs
  exact ⟨inRange_of hr, p1, p2, p3, p4, p5, p6, s1, s2, s3, s4, s5, fun hm => growInv_of (hg hm)⟩

/-- A Grow session with two slots left, after the word of entry 258. -/
def nearFull : State :=
  { after 0x41 idle with
    prevCode := 258, maxCode := 258, phase := .exhausted,
    dict := [(256, ⟨0x41, 0x41⟩), (257, ⟨256, 0x41⟩), (258, ⟨257, 0x41⟩)] }

/-- A strict session that holds six bits between two commands. -/
def pending : State := { after 0x41 strict with phase := .exhausted, bitCount := 6 }

/-- A session in phase Faulted. -/
def faulted : State := { after 0x41 idle with phase := .faulted, faultKind := some .invalidCode }

/-- The engine at the start of a chunk. -/
def reading (chunk : List Byte) (s : State) : State := beginChunk chunk s

theorem idle_inv : SessionInv idle := session_of (by decide) (by decide) (by decide) (by decide)
theorem learned_inv : SessionInv learned := session_of (by decide) (by decide) (by decide) (by decide)
theorem nearFull_inv : SessionInv nearFull := session_of (by decide) (by decide) (by decide) (by decide)
theorem pending_inv : SessionInv pending := session_of (by decide) (by decide) (by decide) (by decide)
theorem faulted_inv : SessionInv faulted := session_of (by decide) (by decide) (by decide) (by decide)
theorem restored_inv : SessionInv (cyclic 258) := session_of (by decide) (by decide) (by decide) (by decide)
theorem reading_idle_inv : SessionInv (reading [0x41, 0x80] idle) := session_of (by decide) (by decide) (by decide) (by decide)
theorem reading_learned_inv : SessionInv (reading [0x21, 0x00] learned) := session_of (by decide) (by decide) (by decide) (by decide)
theorem reading_nearFull_inv : SessionInv (reading [0x21, 0x00] nearFull) := session_of (by decide) (by decide) (by decide) (by decide)

/-- The state after an answer that is a next state. -/
def got (o : Host.Outcome State Fault Refusal) : State := (next? o).getD idle

/-- Commands one after another: what DECODE_CHUNK leaves. -/
def decoded (chunk : List Byte) (s : State) : State := got (exec (.decodeChunk chunk) s)

theorem witness_DecodeEncodeAgree :
    (8 ≤ 9 ∧ 9 ≤ 24 ∧ (0x1FF : Code).toNat < 2 ^ 9 ∧ (wordBits 9 0x1FF).length = 9 ∧
      decode (classRegs (after 0x41 idle)) (.word (wordBits 9 0x1FF)) = some (.invalid 0x1FF) ∧
      encode 9 (.emit [0]) = .internal) ∧
    (8 ≤ 24 ∧ (0xFFFFFF : Code).toNat < 2 ^ 24) := by decide

theorem witness_WordClassByRegisters :
    (classify ⟨.grow, 255, 260, 260⟩ 255 = .first 255 ∧ classify ⟨.grow, 255, 260, 260⟩ 256 = .invalid 256) ∧
    (classify ⟨.grow, 255, 0x41, 260⟩ 255 = .known 255 ∧ classify ⟨.grow, 255, 0x41, 260⟩ 256 = .next 256 ∧
      classify ⟨.grow, 255, 0x41, 260⟩ 257 = .invalid 257) ∧
    (classify ⟨.stringOnly, 255, 0x41, 260⟩ 255 = .string 255 ∧
      classify ⟨.stringOnly, 255, 0x41, 260⟩ 256 = .invalid 256) := by decide

/-- A packed stream behind one byte already read. -/
def packed : State :=
  { after 0x41 idle with busy := true, chunk := [0x41] ++ pack [⟨0x100, 9⟩, ⟨0x41, 9⟩], inPos := [0x41].length }

/-- The words of `packed` from the second on: the next one starts inside a byte, with seven of its bits buffered. -/
def midByte : State := { packed with acc := 0x80, bitCount := 7, inPos := 3 }

/-- A word at a byte boundary, the step on it, and a word that starts inside a byte. -/
theorem witness_PackedWordIsFetched :
    (8 ≤ 9 ∧ 9 ≤ 24 ∧ 0x100 < 2 ^ 9 ∧ packed.codeWidth.toNat = 9 ∧ packed.busy = true ∧
      validBits packed ++ streamBits (unreadBytes packed) =
        wordsBits [⟨0x100, 9⟩, ⟨0x41, 9⟩] ++ List.replicate 6 false) ∧
    (0x01 < 2 ^ 9 ∧ midByte.codeWidth.toNat = 9 ∧ midByte.bitCount = 7 ∧
      validBits midByte ++ streamBits (unreadBytes midByte) = wordsBits [⟨0x001, 9⟩] ++ List.replicate 6 false) := by
  decide

theorem witness_ReadBitsReadsTheStream :
    (24 ≤ 24 ∧ (reader 0b1010101 7 [0xFF, 0x00, 0xFF]).inPos ≤ (reader 0b1010101 7 [0xFF, 0x00, 0xFF]).chunk.length ∧
      24 ≤ (validBits (reader 0b1010101 7 [0xFF, 0x00, 0xFF]) ++
        streamBits (unreadBytes (reader 0b1010101 7 [0xFF, 0x00, 0xFF]))).length) ∧
    (9 ≤ 24 ∧ (reader 0 6 []).inPos ≤ (reader 0 6 []).chunk.length ∧
      ¬ 9 ≤ (validBits (reader 0 6 []) ++ streamBits (unreadBytes (reader 0 6 []))).length) := by decide

theorem witness_ReadBitsTakesBytesItNeeds :
    (24 ≤ 24 ∧ (24 - (reader 0b1010101 7 [0xFF, 0x00, 0xFF]).bitCount.toNat + 7) / 8 ≤
        (unreadBytes (reader 0b1010101 7 [0xFF, 0x00, 0xFF])).length ∧
      (reader 0b1010101 7 [0xFF, 0x00, 0xFF]).bitCount.toNat < 24) ∧
    (17 ≤ 24 ∧ ¬ (17 - (reader 0 0 [0xFF]).bitCount.toNat + 7) / 8 ≤ (unreadBytes (reader 0 0 [0xFF])).length) := by
  decide

theorem witness_ReadBitsCorners :
    24 < 25 ∧ (8 ≤ 24 ∧ (reader 0 0 []).bitCount.toNat < 8 ∧ (reader 0 0 []).chunk = [] ∧ (reader 0 0 []).inPos = 0) ∧
      (8 ≤ 24 ∧ 8 ≤ (reader 0x80 8 []).bitCount.toNat) ∧ SessionInv idle := ⟨by decide, by decide, by decide, idle_inv⟩

theorem witness_EntriesThatHoldAValue :
    SessionInv learned ∧ 255 ≤ 255 ∧ 256 ≤ 256 ∧ (readEntry learned 256).isSome = true ∧
      (readEntry learned 257).isSome = false := ⟨learned_inv, by decide⟩

theorem witness_ResolveLeavesTheString :
    stringOf learned 256 = some [0x41, 0x42] ∧ (256 : Code) ≠ noCode learned ∧ stringOf learned (noCode learned) = some [] ∧
      stringOf (cyclic 258) 256 = none := by decide

theorem witness_StringByTheChain :
    SessionInv learned ∧ learned.mode = .grow ∧ (255 : Code).toNat ≤ learned.maxCode.toNat ∧ (255 : Code).toNat ≤ 255 ∧
      (256 : Code).toNat ≤ learned.maxCode.toNat ∧ 256 ≤ (256 : Code).toNat := ⟨learned_inv, by decide⟩

theorem witness_CorruptChainFails :
    ((256 : Code) ≠ noCode (cyclic 256) ∧ readEntry (cyclic 256) (256 : Code).toNat = some ⟨256, 0x41⟩) ∧
      ((256 : Code) ≠ noCode (cyclic 258) ∧ readEntry (cyclic 258) (256 : Code).toNat = some ⟨258, 0x41⟩ ∧
        (258 : Code) ≠ noCode (cyclic 258) ∧ readEntry (cyclic 258) (258 : Code).toNat = none) := by decide

theorem witness_AddThreePaths :
    (InRange idle ∧ (0x41 : Code) ≠ noCode idle ∧ ¬ idle.params.capacity ≤ idle.maxCode.toNat + 1) ∧
      (InRange full ∧ (0x41 : Code) ≠ noCode full ∧ full.params.capacity ≤ full.maxCode.toNat + 1) ∧
      (InRange idle ∧ ∃ p : Code, p = noCode idle) :=
  ⟨⟨inRange_of (by decide), by decide⟩, ⟨inRange_of (by decide), by decide⟩, inRange_of (by decide), _, rfl⟩

theorem witness_EmitAppendsOneRun : [(0x54 : Byte)] ≠ [] := by decide

/-- A first word in a full dictionary: the overflow clause of FIRST. -/
def fullFresh : State := { full with prevCode := noCode full }

theorem witness_FirstWordEffect :
    (InRange idle ∧ idle.mode = .grow ∧ idle.prevCode = noCode idle ∧ (0xFF : Code).toNat ≤ idle.maxCode.toNat ∧
      stringOf idle 0xFF = some [0xFF] ∧ ¬ idle.maxCode.toNat + 1 = idle.params.capacity) ∧
    (InRange fullFresh ∧ fullFresh.mode = .grow ∧ fullFresh.prevCode = noCode fullFresh ∧
      (256 : Code).toNat ≤ fullFresh.maxCode.toNat ∧ stringOf fullFresh 256 = some [0x41, 0x41] ∧
      fullFresh.maxCode.toNat + 1 = fullFresh.params.capacity) :=
  ⟨⟨inRange_of (by decide), by decide⟩, ⟨inRange_of (by decide), by decide⟩⟩

theorem witness_KnownWordEffect :
    (InRange learned ∧ learned.mode = .grow ∧ learned.prevCode ≠ noCode learned ∧
      (256 : Code).toNat ≤ learned.maxCode.toNat ∧ learned.maxCode.toNat + 1 < learned.params.capacity ∧
      stringOf learned 256 = some (0x41 :: [0x42])) ∧
    (InRange nearFull ∧ nearFull.mode = .grow ∧ nearFull.prevCode ≠ noCode nearFull ∧
      (0x42 : Code).toNat ≤ nearFull.maxCode.toNat ∧ nearFull.maxCode.toNat + 1 < nearFull.params.capacity ∧
      stringOf nearFull 0x42 = some (0x42 :: []) ∧ nearFull.maxCode.toNat + 2 = nearFull.params.capacity) :=
  ⟨⟨inRange_of (by decide), by decide⟩, ⟨inRange_of (by decide), by decide⟩⟩

theorem witness_NextWordEffect :
    (InRange learned ∧ learned.mode = .grow ∧ learned.prevCode ≠ noCode learned ∧
      (257 : Code).toNat = learned.maxCode.toNat + 1 ∧ learned.maxCode.toNat + 1 < learned.params.capacity ∧
      stringOf learned learned.prevCode = some [0x42] ∧ [(0x42 : Byte)].length < learned.params.capacity) ∧
    (InRange nearFull ∧ (259 : Code).toNat = nearFull.maxCode.toNat + 1 ∧
      nearFull.maxCode.toNat + 1 < nearFull.params.capacity ∧
      stringOf nearFull nearFull.prevCode = some [0x41, 0x41, 0x41, 0x41]) :=
  ⟨⟨inRange_of (by decide), by decide⟩, ⟨inRange_of (by decide), by decide⟩⟩

theorem witness_StringWordEffect :
    InRange (cyclic 0x42) ∧ (cyclic 0x42).mode = .stringOnly ∧ (256 : Code).toNat ≤ (cyclic 0x42).maxCode.toNat ∧
      stringOf (cyclic 0x42) 256 = some [0x42, 0x41] := ⟨inRange_of (by decide), by decide⟩

theorem witness_InvalidWordRaises :
    idle.maxCode.toNat + 1 < (257 : Code).toNat ∧
      ((257 : Code).toNat = (cyclic 0x42).maxCode.toNat + 1 ∧ (cyclic 0x42).mode = .stringOnly) ∧
      ((256 : Code).toNat = idle.maxCode.toNat + 1 ∧ idle.prevCode = noCode idle) := by decide

theorem witness_NoDataEndsTheCommand :
    (unreadBytes pending = [] ∧ pending.bitCount.toNat < pending.codeWidth.toNat ∧
      (pending.params.strictEof = true ∧ pending.bitCount ≠ 0)) ∧
    (unreadBytes learned = [] ∧ learned.bitCount.toNat < learned.codeWidth.toNat ∧
      ¬ (learned.params.strictEof = true ∧ learned.bitCount ≠ 0)) := by decide

theorem witness_FullDictionaryRaises :
    InRange full ∧ full.mode = .grow ∧ full.prevCode ≠ noCode full ∧ full.params.capacity ≤ full.maxCode.toNat + 1 ∧
      (0x42 : Code).toNat ≤ full.maxCode.toNat ∧ stringOf full 0x42 = some [0x42] ∧
      (260 : Code).toNat = full.maxCode.toNat + 1 := ⟨inRange_of (by decide), by decide⟩

/-- `corrupt` before the first word of an epoch. -/
def corruptFresh : State := { corrupt with prevCode := noCode corrupt }

theorem witness_CorruptChainRaises :
    (InRange (cyclic 258) ∧ (256 : Code).toNat ≤ (cyclic 258).maxCode.toNat ∧ stringOf (cyclic 258) 256 = none ∧
      (cyclic 258).mode = .stringOnly) ∧
    (InRange corruptFresh ∧ (256 : Code).toNat ≤ corruptFresh.maxCode.toNat ∧ stringOf corruptFresh 256 = none ∧
      corruptFresh.mode = .grow ∧ corruptFresh.prevCode = noCode corruptFresh) ∧
    (InRange corrupt ∧ (256 : Code).toNat ≤ corrupt.maxCode.toNat ∧ stringOf corrupt 256 = none ∧
      corrupt.mode = .grow ∧ corrupt.prevCode ≠ noCode corrupt) :=
  ⟨⟨inRange_of (by decide), by decide⟩, ⟨inRange_of (by decide), by decide⟩, ⟨inRange_of (by decide), by decide⟩⟩

theorem witness_CorruptChainInNextRaises :
    InRange corrupt ∧ corrupt.mode = .grow ∧ corrupt.prevCode ≠ noCode corrupt ∧
      (257 : Code).toNat = corrupt.maxCode.toNat + 1 ∧ corrupt.maxCode.toNat + 1 < corrupt.params.capacity ∧
      stringOf corrupt corrupt.prevCode = none := ⟨inRange_of (by decide), by decide⟩

theorem witness_WordOfAnotherClassStops :
    classify (classRegs idle) 0x41 ≠ .known 0x41 ∧ classify (classRegs learned) 0x41 ≠ .first 0x41 ∧
      classify (classRegs learned) 256 ≠ .next 256 ∧ classify (classRegs learned) 257 ≠ .string 257 ∧
      classify (classRegs learned) 257 ≠ .invalid 257 ∧ unreadBytes packed ≠ [] ∧
      { idle with bitCount := 8 }.codeWidth.toNat ≤ { idle with bitCount := 8 }.bitCount.toNat := by decide

theorem witness_InitEffect : learned.busy = false := by decide

theorem witness_RestoreAccepted :
    learned.busy = false ∧ learned.params.WF ∧
      (List.replicate 4 (⟨0x41, 0x42⟩ : Entry)).length ≤ learned.params.capacity - 256 ∧
      256 + 3 < 256 + (List.replicate 4 (⟨0x41, 0x42⟩ : Entry)).length := by decide

theorem witness_RestoreRefused :
    learned.busy = false ∧ learned.params.capacity - 256 < (List.replicate 5 (⟨0x41, 0x42⟩ : Entry)).length := by decide

theorem witness_FaultedChunkReports :
    faulted.busy = false ∧ faulted.phase = .faulted ∧ faulted.faultKind = some .invalidCode := by decide

theorem witness_EmptyChunkEnds :
    (SessionInv pending ∧ pending.busy = false ∧ pending.phase ≠ .faulted ∧
      (pending.params.strictEof = true ∧ pending.bitCount ≠ 0)) ∧
    (SessionInv learned ∧ learned.busy = false ∧ learned.phase ≠ .faulted ∧
      ¬ (learned.params.strictEof = true ∧ learned.bitCount ≠ 0)) :=
  ⟨⟨pending_inv, by decide⟩, ⟨learned_inv, by decide⟩⟩

theorem witness_ExhaustedResumes :
    (learned.phase = .exhausted ∧ learned.prevCode ≠ noCode learned) ∧
      ({ idle with phase := .exhausted }.phase = .exhausted ∧ idle.prevCode = noCode idle) ∧
      exec .init learned = .next { initRegs learned with outcome := .none } ∧
      exec (.restore []) learned = .next (loadTable [] learned) ∧ (loadTable [] learned).outcome = .accepted :=
  ⟨by decide, by decide, by rw [exec, execInit, whenIdle_idle (by decide)],
    by rw [exec, execRestore, whenIdle_idle (by decide), if_pos (by decide)], by decide⟩

/-- Each of the outcomes: the end of the chunk, InvalidCode (F1), and InputTruncated. -/
theorem witness_ChunkAlwaysEnds :
    (SessionInv idle ∧ idle.busy = false ∧ idle.phase ≠ .faulted ∧
      (decoded [0x41] idle).outcome = .chunk .needMoreInput 1 ∧
      (decoded [0x41, 0x80, 0x80] idle).outcome = .chunk (.fault .invalidCode) 3) ∧
    (SessionInv pending ∧ pending.busy = false ∧ pending.phase ≠ .faulted ∧
      (decoded [] pending).outcome = .chunk (.fault .inputTruncated) 0) :=
  ⟨⟨idle_inv, by decide⟩, ⟨pending_inv, by decide⟩⟩

theorem witness_ChunkCompletesAtEveryWidth :
    (idle.busy = false ∧ idle.phase ≠ .faulted) ∧ 1 ≤ { idle with codeWidth := 1 }.codeWidth.toNat ∧
      { idle with codeWidth := 24 }.codeWidth.toNat ≤ 24 ∧ 24 < { idle with codeWidth := 25 }.codeWidth.toNat := by decide

theorem witness_CommandsWhileBusy : (reading [0x41] idle).busy = true := by decide

theorem witness_StepRunsTheDecoded :
    (idle.busy = false ∧ idle.commands = []) ∧
      (learned.busy = false ∧ { learned with commands := [⟨0, [], []⟩] }.commands = ⟨0, [], []⟩ :: []) ∧
      ((reading [0x41] idle).busy = true ∧ (readWord (reading [0x41] idle)).map Prod.fst = some (.first 0x41)) ∧
      ({ packed with codeWidth := 25 }.busy = true ∧ readWord { packed with codeWidth := 25 } = none) ∧
      decodeTableWord 8 2 = some (.decodeChunk []) := by decide

theorem witness_StepKeepsInvariant :
    (SessionInv learned ∧ step learned = next (got (step learned))) ∧
      (SessionInv (reading [0x41, 0x80] idle) ∧
        step (reading [0x41, 0x80] idle) = next (got (step (reading [0x41, 0x80] idle)))) :=
  ⟨⟨learned_inv, eq_next (by decide)⟩, ⟨reading_idle_inv, eq_next (by decide)⟩⟩

theorem witness_ResetMeetsInvariant : Params.reference.WF ∧ idle.params.WF := by decide

theorem witness_StepNeverStops : SessionInv learned ∧ SessionInv (reading [0x21, 0x00] learned) :=
  ⟨learned_inv, reading_learned_inv⟩

theorem witness_ChunkIsItsIterations :
    idle.busy = false ∧ idle.phase ≠ .faulted ∧ idle.codeWidth ≠ 0 ∧
      exec (.decodeChunk [0x41]) idle = next (decoded [0x41] idle) :=
  ⟨by decide, by decide, by decide, eq_next (by decide)⟩

/-- A relaxed build: a word that straddles the two chunks (P2), and a fault in the first of them (F1). -/
theorem witness_ChunkBoundaryInvariance :
    (SessionInv idle ∧ idle.busy = false ∧ idle.phase ≠ .faulted ∧ idle.params.strictEof = false) ∧
      (exec (.decodeChunk [0x41, 0x80]) idle = next (decoded [0x41, 0x80] idle) ∧
        exec (.decodeChunk [0x10]) (decoded [0x41, 0x80] idle) = next (decoded [0x10] (decoded [0x41, 0x80] idle)) ∧
        exec (.decodeChunk ([0x41, 0x80] ++ [0x10])) idle = next (decoded [0x41, 0x80, 0x10] idle) ∧
        (decoded [0x41, 0x80] idle).phase ≠ .faulted) ∧
      (exec (.decodeChunk [0x41, 0x80, 0x80]) idle = next (decoded [0x41, 0x80, 0x80] idle) ∧
        (decoded [0x41, 0x80, 0x80] idle).phase = .faulted ∧
        (decoded [0x41, 0x80, 0x80] idle).faultKind ≠ some .inputTruncated) :=
  ⟨⟨idle_inv, by decide⟩, ⟨eq_next (by decide), eq_next (by decide), eq_next (by decide), by decide⟩,
    ⟨eq_next (by decide), by decide⟩⟩

theorem strict_inv : SessionInv strict := session_of (by decide) (by decide) (by decide) (by decide)

/-- A strict build, the first chunk ending on a word boundary and the first chunk ending with bits buffered. -/
theorem witness_ChunkBoundaryInvarianceStrict :
    (SessionInv strict ∧ strict.busy = false ∧ strict.phase ≠ .faulted ∧ strict.params.strictEof = true) ∧
      (exec (.decodeChunk [0x41]) strict = next (decoded [0x41] strict) ∧
        exec (.decodeChunk [0x80, 0x10]) (decoded [0x41] strict) =
          next (decoded [0x80, 0x10] (decoded [0x41] strict)) ∧
        exec (.decodeChunk ([0x41] ++ [0x80, 0x10])) strict = next (decoded [0x41, 0x80, 0x10] strict) ∧
        (decoded [0x41] strict).phase ≠ .faulted) ∧
      (exec (.decodeChunk [0x41, 0x80]) strict = next (decoded [0x41, 0x80] strict) ∧
        (decoded [0x41, 0x80] strict).phase = .faulted ∧
        (decoded [0x41, 0x80] strict).faultKind = some .inputTruncated) :=
  ⟨⟨strict_inv, by decide⟩, ⟨eq_next (by decide), eq_next (by decide), eq_next (by decide), by decide⟩,
    ⟨eq_next (by decide), by decide⟩⟩

theorem witness_StaleBitsAreInvisible : SameButStale idle { idle with acc := 0x41 } := by
  exact ⟨rfl, by decide⟩

/-- A KNOWN word with room, the first word of an epoch, and a KNOWN word in the last slot. -/
theorem witness_IterationEmitsOneRun :
    (SessionInv (reading [0x21, 0x00] learned) ∧ (reading [0x21, 0x00] learned).mode = .grow ∧
      (reading [0x21, 0x00] learned).busy = true ∧
      step (reading [0x21, 0x00] learned) = next (got (step (reading [0x21, 0x00] learned))) ∧
      (got (step (reading [0x21, 0x00] learned))).busy = true) ∧
    (SessionInv (reading [0x41, 0x80] idle) ∧ (reading [0x41, 0x80] idle).prevCode = noCode (reading [0x41, 0x80] idle) ∧
      step (reading [0x41, 0x80] idle) = next (got (step (reading [0x41, 0x80] idle))) ∧
      (got (step (reading [0x41, 0x80] idle))).busy = true) ∧
    (SessionInv (reading [0x21, 0x00] nearFull) ∧
      (reading [0x21, 0x00] nearFull).maxCode.toNat + 2 = (reading [0x21, 0x00] nearFull).params.capacity ∧
      step (reading [0x21, 0x00] nearFull) = next (got (step (reading [0x21, 0x00] nearFull))) ∧
      (got (step (reading [0x21, 0x00] nearFull))).busy = true) :=
  ⟨⟨reading_learned_inv, by decide, by decide, eq_next (by decide), by decide⟩,
    ⟨reading_idle_inv, by decide, eq_next (by decide), by decide⟩,
    ⟨reading_nearFull_inv, by decide, eq_next (by decide), by decide⟩⟩

/-- An iteration on the first word of an epoch, one on a later word, and one on its last, and a step of a block with no command. -/
theorem witness_WidthFollowsMaxCode :
    (SessionInv (reading [0x41, 0x80] idle) ∧
      step (reading [0x41, 0x80] idle) = next (got (step (reading [0x41, 0x80] idle))) ∧
      (got (step (reading [0x41, 0x80] idle))).mode = .grow ∧ (reading [0x41, 0x80] idle).busy = true ∧
      (got (step (reading [0x41, 0x80] idle))).busy = true ∧ epochWord (reading [0x41, 0x80] idle) = 1) ∧
    (SessionInv (reading [0x21, 0x00] learned) ∧
      step (reading [0x21, 0x00] learned) = next (got (step (reading [0x21, 0x00] learned))) ∧
      (got (step (reading [0x21, 0x00] learned))).mode = .grow ∧
      (got (step (reading [0x21, 0x00] learned))).busy = true ∧ epochWord (reading [0x21, 0x00] learned) = 3) ∧
    (SessionInv (reading [0x21, 0x00] nearFull) ∧
      step (reading [0x21, 0x00] nearFull) = next (got (step (reading [0x21, 0x00] nearFull))) ∧
      (got (step (reading [0x21, 0x00] nearFull))).mode = .grow ∧
      (got (step (reading [0x21, 0x00] nearFull))).busy = true ∧
      epochWord (reading [0x21, 0x00] nearFull) = (reading [0x21, 0x00] nearFull).params.capacity - 255) ∧
    (SessionInv idle ∧ step idle = next idle ∧ idle.mode = .grow ∧ idle.prevCode = noCode idle) :=
  ⟨⟨reading_idle_inv, eq_next (by decide), by decide⟩, ⟨reading_learned_inv, eq_next (by decide), by decide⟩,
    ⟨reading_nearFull_inv, eq_next (by decide), by decide⟩, ⟨idle_inv, rfl, by decide⟩⟩

theorem reading_nothing_inv : SessionInv (reading [] idle) := session_of (by decide) (by decide) (by decide) (by decide)

/-- A chunk with a first word, and one without. -/
theorem witness_FirstWordIsALiteral :
    (SessionInv (reading [0x41, 0x80] idle) ∧ (reading [0x41, 0x80] idle).mode = .grow ∧
      (reading [0x41, 0x80] idle).busy = true ∧ (reading [0x41, 0x80] idle).prevCode = noCode (reading [0x41, 0x80] idle) ∧
      (got (step (reading [0x41, 0x80] idle))).busy = true) ∧
    (SessionInv (reading [] idle) ∧ (reading [] idle).mode = .grow ∧ (reading [] idle).busy = true ∧
      (reading [] idle).prevCode = noCode (reading [] idle) ∧ (got (step (reading [] idle))).busy = false) :=
  ⟨⟨reading_idle_inv, by decide⟩, ⟨reading_nothing_inv, by decide⟩⟩

theorem witness_EngineNeverFindsFull :
    SessionInv nearFull ∧ nearFull.phase ≠ .faulted ∧
      exec (.decodeChunk [0x21, 0x00]) nearFull = next (decoded [0x21, 0x00] nearFull) :=
  ⟨nearFull_inv, by decide, eq_next (by decide)⟩

theorem witness_StringOnlyNeverGrows :
    (cyclic 0x42).mode = .stringOnly ∧
      exec (.decodeChunk [0x80, 0x00]) (cyclic 0x42) = next (decoded [0x80, 0x00] (cyclic 0x42)) :=
  ⟨by decide, eq_next (by decide)⟩

/-- A command of each code. -/
theorem witness_FaultedIsSilent :
    faulted.phase = .faulted ∧ faulted.busy = false ∧
      ∀ code, step { faulted with commands := [⟨code, [], [0x41]⟩] } =
        next (got (step { faulted with commands := [⟨code, [], [0x41]⟩] })) :=
  ⟨by decide, by decide, fun code => eq_next (by revert code; decide)⟩

theorem witness_OutputOnlyGrows :
    (step (reading [0x41, 0x80] idle) = next (got (step (reading [0x41, 0x80] idle)))) ∧
      ({ learned with commands := [⟨0, [], []⟩] }.busy = false ∧
        ∀ c rest, { learned with commands := [⟨0, [], []⟩] }.commands = c :: rest → c.code ≠ 2) := by
  refine ⟨eq_next (by decide), by decide, fun c rest h => ?_⟩
  cases h
  decide

theorem witness_ParametersNeverChange :
    step (reading [0x41, 0x80] idle) = next (got (step (reading [0x41, 0x80] idle))) ∧
      step { learned with commands := [⟨0, [], []⟩] } = next (got (step { learned with commands := [⟨0, [], []⟩] })) :=
  ⟨eq_next (by decide), eq_next (by decide)⟩

theorem witness_SavedTableRestores : SessionInv learned ∧ learned.busy = false ∧ savedTable learned = [⟨0x41, 0x42⟩] :=
  ⟨learned_inv, by decide⟩

/-- An iteration that completes from either phase, with the overflow reset, and one that ends the command. -/
theorem witness_IterationPhases :
    (SessionInv (reading [0x41, 0x80] idle) ∧ (reading [0x41, 0x80] idle).phase = .awaitingFirstCode ∧
      step (reading [0x41, 0x80] idle) = next (got (step (reading [0x41, 0x80] idle)))) ∧
    (SessionInv (reading [0x21, 0x00] nearFull) ∧ (reading [0x21, 0x00] nearFull).phase = .running ∧
      step (reading [0x21, 0x00] nearFull) = next (got (step (reading [0x21, 0x00] nearFull)))) ∧
    (SessionInv (reading [] idle) ∧ step (reading [] idle) = next (got (step (reading [] idle))) ∧
      (got (step (reading [] idle))).busy = false) :=
  ⟨⟨reading_idle_inv, by decide, eq_next (by decide)⟩, ⟨reading_nearFull_inv, by decide, eq_next (by decide)⟩,
    ⟨reading_nothing_inv, eq_next (by decide), by decide⟩⟩

theorem witness_ScratchKeepsItsForm :
    (Memory.wf idle.scratch ∧ ∀ c ∈ idle.scratch, c.1 < scratchSize idle) ∧
      exec (.first 0x41) idle = next (got (exec (.first 0x41) idle)) := ⟨by decide, eq_next (by decide)⟩

theorem witness_StatusReadsTheRegisters : learned.busy = false ∧ SameButStale learned { learned with acc := 0x41 } :=
  ⟨by decide, rfl, by decide⟩

end Sys2Proof.Tests
end

/-! SUPPORT. One step of the machine and one iteration of the engine: what each fetches, what each can leave behind, and
what neither writes. -/

namespace Sys2Proof.Machine

open Host.Outcome

/-! ## What a step fetches -/

/-- An idle block with no command to come holds its state (`60_exceptions.md` R285). -/
theorem step_no_command {s : State} (hb : s.busy = false) (hc : s.commands = []) : step s = next s := by
  simp [step, fetch, hb, hc]

/-- An idle block takes the next command off the queue and executes it. -/
theorem step_command {s : State} {c : HostCommand} {rest : List HostCommand} (hb : s.busy = false)
    (hc : s.commands = c :: rest) : step s = exec (decodeCommand c) { s with commands := rest } := by
  simp [step, fetch, hb, hc]

/-- Inside a command a step executes the word at the stream cursor. -/
theorem step_word {s t : State} {w : ReadWord} (hb : s.busy = true) (hr : readWord s = some (w, t)) :
    step s = exec w.instr t := by
  rw [step_busy hb, iteration, hr]
  exact runWord_eq_exec w t

/-- Inside a command whose width `read_bits` does not take, a step stops by name. -/
theorem step_tooWide {s : State} (hb : s.busy = true) (hr : readWord s = none) :
    step s = refused .readBitsTooWide := by
  rw [step_busy hb, iteration, hr]

/-- A table word that decodes is a command, and its instruction is the command's. -/
theorem decodeTableWord_eq_some {nbits w : Nat} {i : Instr} (h : decodeTableWord nbits w = some i) :
    i = decodeCommand (tableCommand w) := by
  unfold decodeTableWord at h
  split at h
  · cases h
  · exact (Option.some.inj h).symm

/-- Settles O36: each case of fetch, and a placed table word as the queue's head. -/
theorem stepRunsTheDecoded : Obligations.StepRunsTheDecoded := by
  refine fun s => ⟨step_no_command, fun c rest => step_command, fun w t => step_word, step_tooWide,
    fun nbits w i hi => ?_⟩
  rw [decodeTableWord_eq_some hi]
  exact step_command (s := s.withFetchWord nbits w) rfl rfl

/-! ## What a word's class rule writes -/

theorem wordFrame_trans {s t u : State} (hst : WordFrame s t) (htu : WordFrame t u) : WordFrame s u := by
  simp_all [WordFrame]

/-- A relation between the state an iteration's part starts in and what it ends in holds of the state it goes on with, or
of the state a fault is raised over. -/
def BodyKeeps (R : State → State → Prop) (s : State) : Except State State → Prop
  | .ok t => R s t
  | .error t => ∃ kind u, R s u ∧ t = raise kind u

/-- A relation that every part of a class rule keeps (`42_decode_engine.md` R173 to R181). -/
structure KeptByWords (R : State → State → Prop) : Prop where
  trans : ∀ {s t u}, R s t → R t u → R s u
  deliver : ∀ code s, BodyKeeps R s (deliver code s)
  add : ∀ p b s, R s (addEntry p b s).2
  complete : ∀ code s, R s (completeWord code s)

/-- A word that is executed leaves what its class's rule leaves. -/
theorem whenClass_eq_next {w : ReadWord} {code : Code} {s t u : State} (h : whenClass w code s t = next u) : u = t := by
  unfold whenClass at h
  split at h
  · exact (Host.Outcome.next.inj h).symm
  · cases h

namespace KeptByWords

variable {R : State → State → Prop}

theorem refl (hR : KeptByWords R) (s : State) : R s s := by
  have h := hR.add (noCode s) 0 s
  rwa [addEntry_noCode] at h

theorem bind (hR : KeptByWords R) {s : State} {x : Except State State} {f : State → Except State State}
    (hx : BodyKeeps R s x) (hf : ∀ t, BodyKeeps R t (f t)) : BodyKeeps R s (x >>= f) := by
  cases x with
  | error t => exact hx
  | ok t =>
    have ht := hf t
    show BodyKeeps R s (f t)
    cases hft : f t with
    | ok v => rw [hft] at ht; exact hR.trans hx ht
    | error v =>
      rw [hft] at ht
      obtain ⟨kind, u, hu, hv⟩ := ht
      exact ⟨kind, u, hR.trans hx hu, hv⟩

theorem addDeferred (hR : KeptByWords R) (s : State) : BodyKeeps R s (addDeferred s) := by
  have ha := hR.add s.prevCode s.firstChar s
  unfold Machine.addDeferred
  split
  · exact ⟨_, _, ha, rfl⟩
  · exact ha

theorem firstBody (hR : KeptByWords R) (code : Code) (s : State) : BodyKeeps R s (firstBody code s) :=
  hR.bind (hR.deliver code s) fun _ => hR.trans (hR.add _ _ _) (hR.complete code _)

theorem knownBody (hR : KeptByWords R) (code : Code) (s : State) : BodyKeeps R s (knownBody code s) :=
  hR.bind (hR.deliver code s) fun _ => hR.bind (hR.addDeferred _) fun _ => hR.complete code _

theorem nextBody (hR : KeptByWords R) (code : Code) (s : State) : BodyKeeps R s (nextBody code s) :=
  hR.bind (hR.addDeferred s) fun _ => hR.bind (hR.deliver code _) fun _ => hR.complete code _

theorem stringBody (hR : KeptByWords R) (code : Code) (s : State) : BodyKeeps R s (stringBody code s) :=
  hR.bind (hR.deliver code s) fun _ => hR.complete code _

/-- A class whose rule keeps the relation, executed. -/
theorem whenClass_settled {w : ReadWord} {code : Code} {s t : State} {x : Except State State} (hx : BodyKeeps R s x)
    (h : whenClass w code s (settled x) = next t) : R s t ∨ ∃ kind u, R s u ∧ t = raise kind u := by
  rw [whenClass_eq_next h]
  cases x with
  | ok _ => exact .inl hx
  | error _ => exact .inr hx

/-- What executing a word leaves: a state in the relation, or a fault raised over one. -/
theorem runWord (hR : KeptByWords R) {w : ReadWord} {s t : State} (hw : w ≠ .noData) (h : runWord w s = next t) :
    R s t ∨ ∃ kind u, R s u ∧ t = raise kind u := by
  cases w with
  | first code => exact whenClass_settled (hR.firstBody code s) h
  | known code => exact whenClass_settled (hR.knownBody code s) h
  | next code => exact whenClass_settled (hR.nextBody code s) h
  | string code => exact whenClass_settled (hR.stringBody code s) h
  | invalid code => exact .inr ⟨_, _, hR.refl s, whenClass_eq_next h⟩
  | noData => exact absurd rfl hw

end KeptByWords

/-- What NODATA leaves: the command has ended, by InputTruncated in a strict build with bits buffered. -/
theorem execNoData_eq_next {s t : State} (h : execNoData s = next t) :
    t = if truncated s then raise .inputTruncated s else endCommand .needMoreInput { s with phase := .exhausted } := by
  unfold execNoData at h
  split at h
  · exact (Host.Outcome.next.inj h).symm
  · cases h

/-! ## What the parts of a class rule write -/

/-- What a word leaves that the reading of the next word rests on: the cursor, the buffered bits, and a width of at least
one bit. -/
def KeepsReading (s t : State) : Prop := WordFrame s t ∧ (s.codeWidth ≠ 0 → t.codeWidth ≠ 0)

theorem resolveToBytes_keepsReading (code : Code) (s : State) : KeepsReading s (resolveToBytes code s).2 := by
  have hs : (resolveToBytes code s).2 = { s with scratch := (resolveToBytes code s).2.scratch } := by
    have h := resolveToBytes_spec code s
    cases hs : stringOf s code with
    | none => rw [hs] at h; exact h.2
    | some bytes => rw [hs] at h; exact h.2.1
  rw [hs]
  simp [KeepsReading, WordFrame]

theorem deliver_keepsReading (code : Code) (s : State) : BodyKeeps KeepsReading s (deliver code s) := by
  have hk := resolveToBytes_keepsReading code s
  unfold deliver
  split <;> rename_i u hu <;> rw [hu] at hk
  · exact ⟨_, u, hk, rfl⟩
  · exact hk

theorem addEntry_keepsReading (p : Code) (b : Byte) (s : State) : KeepsReading s (addEntry p b s).2 := by
  unfold addEntry
  split
  · simp [KeepsReading, WordFrame]
  · split <;> simp [KeepsReading, WordFrame]

/-- Steps 5 and 6 never leave the width at 0: it grows by one below 24 bits, and the overflow reset makes it 8. -/
theorem completeWord_codeWidth_ne_zero (code : Code) {s : State} (h : s.codeWidth ≠ 0) :
    (completeWord code s).codeWidth ≠ 0 := by
  have hg : (growWidth (setPrevious code s)).codeWidth ≠ 0 := by
    unfold growWidth
    split
    · rename_i hw
      have hlt := ((widthGrows_iff _).1 hw).2.2
      simp only [setPrevious_codeWidth, maxWidth] at hlt ⊢
      bv_omega
    · simpa using h
  unfold completeWord handleOverflow
  split
  · simp
  · exact hg

theorem completeWord_keepsReading (code : Code) (s : State) : KeepsReading s (completeWord code s) := by
  refine ⟨?_, completeWord_codeWidth_ne_zero code⟩
  rw [completeWord_frame]
  simp [WordFrame]

theorem keepsReading_keptByWords : KeptByWords KeepsReading where
  trans := fun hst htu => ⟨wordFrame_trans hst.1 htu.1, fun h => htu.2 (hst.2 h)⟩
  deliver := deliver_keepsReading
  add := addEntry_keepsReading
  complete := completeWord_keepsReading

/-! ## What an iteration reads -/

/-- The bits an iteration can still read: the unread bytes' and the buffered ones. -/
def bitsLeft (s : State) : Nat := 8 * (unreadBytes s).length + s.bitCount.toNat

theorem streamAhead_length (s : State) : (validBits s ++ streamBits (unreadBytes s)).length = bitsLeft s := by
  simp [validBits, bitsLeft, Nat.add_comm]

/-- Step 1 writes the accumulator, the count and the cursor, and a word it finds has taken a width's bits off the stream. -/
theorem readWord_reads {s t : State} {w : ReadWord} (h : readWord s = some (w, t)) :
    t = { s with acc := t.acc, inPos := t.inPos, bitCount := t.bitCount } ∧
      (w ≠ .noData → bitsLeft t + s.codeWidth.toNat = bitsLeft s) := by
  obtain ⟨-, hr⟩ | ⟨hw, ⟨code, u, hb, hr⟩ | ⟨u, hb, hr⟩⟩ := readWord_spec s
  · rw [hr] at h; cases h
  · cases hr.symm.trans h
    obtain ⟨_, v, hv, hle, -, hdrop, -, hframe, -⟩ | ⟨v, hv, -⟩ := readBits_spec s.codeWidth.toNat hw s
    · cases hv.symm.trans hb
      refine ⟨by rw [hframe], fun _ => ?_⟩
      have hlen := congrArg List.length hdrop
      rw [List.length_drop, streamAhead_length, streamAhead_length] at hlen
      rw [streamAhead_length] at hle
      omega
    · cases hv.symm.trans hb
  · cases hr.symm.trans h
    obtain ⟨_, v, hv, -⟩ | ⟨v, hv, -, -, -, hframe⟩ := readBits_spec s.codeWidth.toNat hw s
    · cases hv.symm.trans hb
    · cases hv.symm.trans hb
      exact ⟨by rw [hframe], fun hne => absurd rfl hne⟩

/-- Everything an iteration can leave, for any relation the class rules keep: it ran a word, completing it or raising a
fault, or the chunk ended and the command with it. -/
theorem iteration_cases {R : State → State → Prop} (hR : KeptByWords R) {s t : State} (h : iteration s = next t) :
    ∃ w u, readWord s = some (w, u) ∧
      ((w ≠ .noData ∧ (R u t ∨ ∃ kind v, R u v ∧ t = raise kind v)) ∨
        (w = .noData ∧ t =
          if truncated u then raise .inputTruncated u else endCommand .needMoreInput { u with phase := .exhausted })) := by
  unfold iteration at h
  split at h
  · cases h
  · rename_i w u hr
    refine ⟨w, u, hr, ?_⟩
    by_cases hw : w = .noData
    · subst hw; exact .inr ⟨rfl, execNoData_eq_next h⟩
    · exact .inl ⟨hw, hR.runWord hw h⟩

/-- An iteration that does not end the command reads at least one bit, and the next word's width is again at least one
bit. -/
theorem iteration_busy_bitsLeft {s t : State} (hw : s.codeWidth ≠ 0) (h : iteration s = next t) (hb : t.busy = true) :
    bitsLeft t < bitsLeft s ∧ t.codeWidth ≠ 0 := by
  obtain ⟨w, u, hr, ⟨hne, ⟨hframe, hwidth⟩ | ⟨kind, v, -, rfl⟩⟩ | ⟨-, rfl⟩⟩ :=
    iteration_cases keepsReading_keptByWords h
  · obtain ⟨hu, hbits⟩ := readWord_reads hr
    have hcw : u.codeWidth = s.codeWidth := by rw [hu]
    obtain ⟨-, -, hcount, -, -, -, hchunk, hpos, -⟩ := hframe
    have hleft : bitsLeft t = bitsLeft u := by simp only [bitsLeft, unreadBytes, hcount, hchunk, hpos]
    have hne0 : s.codeWidth.toNat ≠ 0 := by bv_omega
    have := hbits hne
    exact ⟨by omega, hwidth (hcw ▸ hw)⟩
  · simp at hb
  · split at hb <;> simp at hb

/-! ## The parameters and the queue -/

/-- Two states of one block with the same commands to come. -/
def SameQueue (s t : State) : Prop := t.params = s.params ∧ t.commands = s.commands

theorem SameQueue.trans {s t u : State} (hst : SameQueue s t) (htu : SameQueue t u) : SameQueue s u :=
  ⟨htu.1.trans hst.1, htu.2.trans hst.2⟩

theorem iteration_sameQueue {s t : State} (h : iteration s = next t) : SameQueue s t := by
  obtain ⟨w, u, hr, hcases⟩ := iteration_cases keepsReading_keptByWords h
  have hu : SameQueue s u := by rw [(readWord_reads hr).1]; exact ⟨rfl, rfl⟩
  have hword {v} (hv : KeepsReading u v) : SameQueue u v := by
    obtain ⟨⟨hparams, -, -, -, -, -, -, -, -, -, hcommands⟩, -⟩ := hv
    exact ⟨hparams, hcommands⟩
  refine hu.trans ?_
  obtain ⟨-, hv | ⟨kind, v, hv, rfl⟩⟩ | ⟨-, rfl⟩ := hcases
  · exact hword hv
  · exact (hword hv).trans ⟨rfl, rfl⟩
  · split <;> exact ⟨rfl, rfl⟩

/-! ## The engine's loop -/

/-- While a command executes, the loop goes on from the next state of an iteration, and stops where the iteration stops. -/
theorem engineLoop_succ_busy (fuel : Nat) {s t : State} (hb : s.busy = true) :
    engineLoop (fuel + 1) s = next t ↔ ∃ u, iteration s = next u ∧ engineLoop fuel u = next t := by
  rw [engineLoop, if_pos hb]
  cases iteration s <;> simp

/-- A loop with no iterations left does not answer while a command executes. -/
theorem engineLoop_zero_busy {s t : State} (hb : s.busy = true) : engineLoop 0 s ≠ next t := by
  simp [engineLoop, hb]

/-- What every iteration keeps holds where the loop ends. -/
theorem engineLoop_induction {P : State → Prop} (hstep : ∀ {u v}, iteration u = next v → P u → P v) {fuel : Nat}
    {s t : State} (hs : P s) (h : engineLoop fuel s = next t) : P t := by
  induction fuel generalizing s with
  | zero =>
    cases hb : s.busy with
    | false => rw [engineLoop_idle 0 hb] at h; cases h; exact hs
    | true => exact absurd h (engineLoop_zero_busy hb)
  | succ fuel ih =>
    cases hb : s.busy with
    | false => rw [engineLoop_idle _ hb] at h; cases h; exact hs
    | true =>
      obtain ⟨u, hu, hloop⟩ := (engineLoop_succ_busy fuel hb).1 h
      exact ih (hstep hu hs) hloop

/-- A command that answers a state was taken by an idle block. -/
theorem whenIdle_eq_next {s t : State} {o : Host.Outcome State Fault Refusal} (h : whenIdle s o = next t) :
    s.busy = false ∧ o = next t := by
  cases hb : s.busy with
  | false => rw [whenIdle_idle hb] at h; exact ⟨rfl, h⟩
  | true => rw [whenIdle_busy hb] at h; cases h

theorem execDecodeChunk_sameQueue {chunk : List Byte} {s t : State} (h : execDecodeChunk chunk s = next t) :
    SameQueue s t := by
  obtain ⟨-, h⟩ := whenIdle_eq_next h
  split at h
  · cases h; exact ⟨rfl, rfl⟩
  · exact engineLoop_induction (P := SameQueue s) (s := beginChunk chunk s)
      (fun hi hu => hu.trans (iteration_sameQueue hi)) ⟨rfl, rfl⟩ h

/-- No command writes the parameters or the queue. -/
theorem execCommand_sameQueue {c : HostCommand} {s t : State} (h : exec (decodeCommand c) s = next t) :
    SameQueue s t := by
  unfold decodeCommand at h
  split at h
  · obtain ⟨-, h⟩ := whenIdle_eq_next h
    cases h; exact ⟨rfl, rfl⟩
  · obtain ⟨-, h⟩ := whenIdle_eq_next h
    cases h; split <;> exact ⟨rfl, rfl⟩
  · exact execDecodeChunk_sameQueue h
  · cases h; exact ⟨rfl, rfl⟩

/-- Settles O50: inside a command a step is an iteration, which leaves the queue alone, and an idle block takes the
queue's head and executes it. -/
theorem parametersNeverChange : Obligations.ParametersNeverChange := by
  intro s t h
  cases hb : s.busy with
  | true =>
    rw [step_busy hb] at h
    exact iteration_sameQueue h
  | false =>
    cases hc : s.commands with
    | nil =>
      rw [step_no_command hb hc] at h
      cases h
      exact ⟨rfl, hc⟩
    | cons c rest =>
      rw [step_command hb hc] at h
      exact execCommand_sameQueue h

/-! ## The run of a command's iterations -/

/-- The run from `s` first has no command executing after `k` steps, in state `t`. -/
def FirstIdle (k : Nat) (s t : State) : Prop :=
  core.run k s = next t ∧ t.busy = false ∧ ∀ j, j < k → ∃ u, core.run j s = next u ∧ u.busy = true

/-- A longer run is a step and the run from where it leads. -/
theorem run_succ_eq_next (M : Host.Core) (k : Nat) (s t : M.State) :
    M.run (k + 1) s = next t ↔ ∃ u, M.step s = next u ∧ M.run k u = next t := by
  rw [Host.Core.run]
  cases M.step s <;> simp

theorem firstIdle_zero (s t : State) : FirstIdle 0 s t ↔ s = t ∧ t.busy = false :=
  ⟨fun ⟨h, hb, _⟩ => ⟨Host.Outcome.next.inj h, hb⟩,
    fun ⟨h, hb⟩ => ⟨congrArg next h, hb, fun j hj => absurd hj j.not_lt_zero⟩⟩

theorem firstIdle_succ (k : Nat) (s t : State) :
    FirstIdle (k + 1) s t ↔ s.busy = true ∧ ∃ u, iteration s = next u ∧ FirstIdle k u t := by
  constructor
  · rintro ⟨hrun, ht, hbefore⟩
    obtain ⟨_, hs, hb⟩ := hbefore 0 k.succ_pos
    cases hs
    obtain ⟨u, hu, hrun⟩ := (run_succ_eq_next core k s t).1 hrun
    refine ⟨hb, u, step_busy hb ▸ hu, hrun, ht, fun j hj => ?_⟩
    obtain ⟨v, hv, hvb⟩ := hbefore (j + 1) (Nat.succ_lt_succ hj)
    obtain ⟨u', hu', hv⟩ := (run_succ_eq_next core j s v).1 hv
    rw [hu] at hu'
    cases hu'
    exact ⟨v, hv, hvb⟩
  · rintro ⟨hb, u, hu, hrun, ht, hbefore⟩
    rw [← step_busy hb] at hu
    refine ⟨(run_succ_eq_next core k s t).2 ⟨u, hu, hrun⟩, ht, fun j hj => ?_⟩
    cases j with
    | zero => exact ⟨s, rfl, hb⟩
    | succ j =>
      obtain ⟨v, hv, hvb⟩ := hbefore j (Nat.lt_of_succ_lt_succ hj)
      exact ⟨v, (run_succ_eq_next core j s v).2 ⟨u, hu, hv⟩, hvb⟩

theorem firstIdle_of_idle {k : Nat} {s t : State} (hb : s.busy = false) : FirstIdle k s t ↔ k = 0 ∧ s = t := by
  cases k with
  | zero =>
    rw [firstIdle_zero]
    exact ⟨fun h => ⟨rfl, h.1⟩, fun h => ⟨h.2, h.2 ▸ hb⟩⟩
  | succ k => simp [firstIdle_succ, hb]

/-- The loop answers the state in which the run first has no command executing, if its bound reaches so far. -/
theorem engineLoop_eq_next_iff (fuel : Nat) (s t : State) :
    engineLoop fuel s = next t ↔ ∃ k ≤ fuel, FirstIdle k s t := by
  induction fuel generalizing s with
  | zero =>
    cases hb : s.busy with
    | false => simp [engineLoop_idle 0 hb, firstIdle_of_idle hb]
    | true =>
      refine ⟨fun h => absurd h (engineLoop_zero_busy hb), ?_⟩
      rintro ⟨k, hk, h⟩
      obtain rfl := Nat.le_zero.1 hk
      obtain ⟨rfl, ht⟩ := (firstIdle_zero s t).1 h
      simp [hb] at ht
  | succ fuel ih =>
    cases hb : s.busy with
    | false => simp [engineLoop_idle (fuel + 1) hb, firstIdle_of_idle hb]
    | true =>
      rw [engineLoop_succ_busy fuel hb]
      constructor
      · rintro ⟨u, hu, hloop⟩
        obtain ⟨k, hk, h⟩ := (ih u).1 hloop
        exact ⟨k + 1, Nat.succ_le_succ hk, (firstIdle_succ k s t).2 ⟨hb, u, hu, h⟩⟩
      · rintro ⟨_ | k, hk, h⟩
        · obtain ⟨rfl, ht⟩ := (firstIdle_zero s t).1 h
          simp [hb] at ht
        · obtain ⟨-, u, hu, h⟩ := (firstIdle_succ k s t).1 h
          exact ⟨u, hu, (ih u).2 ⟨k, Nat.le_of_succ_le_succ hk, h⟩⟩

/-- A command's run has at most one iteration for each bit there is to read, and one more that ends it. -/
theorem firstIdle_le_bitsLeft {k : Nat} {s t : State} (hw : s.codeWidth ≠ 0) (h : FirstIdle k s t) :
    k ≤ bitsLeft s + 1 := by
  induction k generalizing s with
  | zero => exact Nat.zero_le _
  | succ k ih =>
    obtain ⟨-, u, hu, hk⟩ := (firstIdle_succ k s t).1 h
    cases k with
    | zero => omega
    | succ k =>
      obtain ⟨hlt, huw⟩ := iteration_busy_bitsLeft hw hu ((firstIdle_succ k u t).1 hk).1
      have := ih huw hk
      omega

/-- Settles O40: the loop is the run as far as its bound reaches, and the bound covers every bit there is to read. -/
theorem chunkIsItsIterations : Obligations.ChunkIsItsIterations := by
  intro chunk s t hb hp hw
  have hexec : exec (.decodeChunk chunk) s =
      engineLoop (enoughIterations (beginChunk chunk s)) (beginChunk chunk s) := by
    change execDecodeChunk chunk s = _
    rw [execDecodeChunk, whenIdle_idle hb, if_neg hp]
  rw [hexec, engineLoop_eq_next_iff]
  constructor
  · rintro ⟨k, -, hk⟩
    exact ⟨k, hk⟩
  · rintro ⟨k, hk⟩
    have hle := firstIdle_le_bitsLeft (s := beginChunk chunk s) hw hk
    exact ⟨k, by unfold enoughIterations; unfold bitsLeft at hle; omega, hk⟩

end Sys2Proof.Machine

/-! SUPPORT. The session invariant: what it depends on, what of it holds all through an iteration, and that the
commands and the iterations keep it. -/

namespace Sys2Proof.Machine

open Host.Outcome

/-! ## What the invariant depends on -/

theorem InRange.congr {s t : State} (h : InRange s) (hparams : t.params = s.params) (hprev : t.prevCode = s.prevCode)
    (hmax : t.maxCode = s.maxCode) (hwidth : t.codeWidth = s.codeWidth) : InRange t := by
  obtain ⟨h1, h2, h3, h4, h5, h6⟩ := h
  constructor <;> simpa only [hparams, hprev, hmax, hwidth]

theorem GrowInv.congr {s t : State} (h : GrowInv s) (hparams : t.params = s.params) (hprev : t.prevCode = s.prevCode)
    (hmax : t.maxCode = s.maxCode) (hwidth : t.codeWidth = s.codeWidth) (hfirst : t.firstChar = s.firstChar)
    (hdict : t.dict = s.dict) : GrowInv t := by
  have hstring := stringOf_congr hparams (readEntry_congr hparams hmax hdict) s.prevCode
  obtain ⟨h1, h2, h3, h4, h5, h6⟩ := h
  constructor <;> simpa only [noCode_congr hparams, hparams, hprev, hmax, hwidth, hfirst, hdict, hstring]

/-- The clauses of the invariant about the bit reader, the phase and the command in progress. -/
structure ControlInv (s : State) : Prop where
  count : s.bitCount.toNat < s.codeWidth.toNat
  count_iter : s.busy = true → s.inPos ≠ 0 → s.bitCount.toNat ≤ 7
  fault : s.phase = .faulted ↔ s.faultKind ≠ none
  awaiting : s.phase = .awaitingFirstCode → s.prevCode = noCode s
  running : s.phase = .running → s.prevCode ≠ noCode s
  busy_phase : s.busy = true → s.phase = .awaitingFirstCode ∨ s.phase = .running
  cursor : s.inPos ≤ s.chunk.length ∧ (s.busy = false → s.chunk = [] ∧ s.inPos = 0)

/-- The other clauses are about the dictionary, the scratch buffer and the sink: a state that has these as before
meets them as before. -/
theorem SessionInv.of_control {s t : State} (h : SessionInv s)
    (ht : t = { s with
      acc := t.acc, bitCount := t.bitCount, phase := t.phase, faultKind := t.faultKind, busy := t.busy,
      chunk := t.chunk, inPos := t.inPos, outcome := t.outcome, returned := t.returned, commands := t.commands })
    (hc : ControlInv t) : SessionInv t := by
  rw [ht] at hc ⊢
  exact { hc with
    ranges := h.ranges.congr rfl rfl rfl rfl
    learned := h.learned
    scratch := h.scratch
    runs := h.runs
    restored := h.restored
    grow := fun hm => (h.grow hm).congr rfl rfl rfl rfl rfl rfl }

theorem SessionInv.control {s : State} (h : SessionInv s) : ControlInv s :=
  ⟨h.count, h.count_iter, h.fault, h.awaiting, h.running, h.busy_phase, h.cursor⟩

/-! ## A fresh dictionary -/

theorem InRange.of_fresh {s : State} (hparams : s.params.WF) (hprev : s.prevCode = noCode s) (hmax : s.maxCode = 255)
    (hwidth : s.codeWidth = 8) : InRange s := by
  have hcap := hparams.1
  refine ⟨hparams, ?_, ?_, ?_, ?_, ?_⟩
  · rw [hprev, noCode_toNat hparams]
  · simp [hmax]
  · simp [hmax]; omega
  · simp [hwidth, minWidth]
  · simp [hwidth, maxWidth]

theorem GrowInv.of_fresh {s : State} (hparams : s.params.WF) (hprev : s.prevCode = noCode s) (hmax : s.maxCode = 255)
    (hwidth : s.codeWidth = 8) (hdict : s.dict = []) : GrowInv s := by
  have hcap := hparams.1
  refine ⟨?_, fun _ => ⟨hmax, hwidth⟩, fun h => absurd hprev h, fun h => absurd hprev h, ?_, fun h => absurd hprev h⟩
  · simp [hmax]; omega
  · simp [hdict]

/-! ## The commands -/

theorem initRegs_keepsInv {s : State} (h : SessionInv s) : SessionInv (initRegs s) where
  ranges := .of_fresh h.ranges.params rfl rfl rfl
  count := by simp
  count_iter := by simp
  fault := by simp
  awaiting := fun _ => rfl
  running := by simp
  busy_phase := by simp
  learned := by simp
  scratch := h.scratch
  cursor := h.cursor
  runs := h.runs
  restored := by simp
  grow := fun _ => .of_fresh h.ranges.params rfl rfl rfl rfl

theorem loadTable_keepsInv {entries : List Entry} {s : State} (h : SessionInv s) (hfits : tableFits entries s = true) :
    SessionInv (loadTable entries s) := by
  obtain ⟨hcap, hcap24, hw8, hw24⟩ := h.ranges.params
  have hlen : entries.length ≤ s.params.capacity - 256 := by simpa [tableFits] using hfits
  unfold minWidth at hw8
  unfold maxWidth at hw24
  have hmax : (loadTable entries s).maxCode.toNat = 255 + entries.length := by simp; omega
  have hwidth : (loadTable entries s).codeWidth.toNat = s.params.restoreWidth := by simp; omega
  exact {
    ranges := {
      params := h.ranges.params
      prev_le := (noCode_toNat h.ranges.params).le
      max_ge := by omega
      max_lt := by rw [hmax, loadTable_params]; omega
      width_ge := by rw [hwidth]; exact hw8
      width_le := by rw [hwidth]; exact hw24 }
    count := by rw [hwidth, loadTable_bitCount]; exact Nat.lt_of_lt_of_le (by decide) hw8
    count_iter := by simp
    fault := by simp
    awaiting := fun _ => rfl
    running := by simp
    busy_phase := by simp
    learned := by rw [hmax, loadTable_dict, tableEntries_keys, Nat.add_sub_cancel_left]
    scratch := h.scratch
    cursor := h.cursor
    runs := h.runs
    restored := fun _ => hwidth
    grow := by simp }

theorem refuseTable_keepsInv {s : State} (h : SessionInv s) (hb : s.busy = false) : SessionInv (refuseTable s) :=
  (initRegs_keepsInv h).of_control rfl
    { count := by simp
      count_iter := by simp
      fault := by simp
      awaiting := by simp
      running := by simp
      busy_phase := by simp [hb]
      cursor := h.cursor }

theorem beginChunk_keepsInv (chunk : List Byte) {s : State} (h : SessionInv s) (hp : s.phase ≠ .faulted) :
    SessionInv (beginChunk chunk s) := by
  refine h.of_control rfl ?_
  have hphase : (resumedPhase s = .awaitingFirstCode ∧ s.prevCode = noCode s) ∨
      (resumedPhase s = .running ∧ s.prevCode ≠ noCode s) := by
    have h1 := h.awaiting
    have h2 := h.running
    unfold resumedPhase
    cases hph : s.phase with
    | awaitingFirstCode => simp [h1 hph]
    | running => simp [h2 hph]
    | exhausted => by_cases hn : s.prevCode = noCode s <;> simp [hn]
    | faulted => exact absurd hph hp
  have hfault : s.faultKind = none := by simpa [hp] using h.fault
  exact {
    count := h.count
    count_iter := by simp
    fault := by obtain ⟨hr, -⟩ | ⟨hr, -⟩ := hphase <;> simp [hr, hfault]
    awaiting := fun ha => by
      obtain ⟨-, hn⟩ | ⟨hr, -⟩ := hphase
      · exact hn
      · simp [hr] at ha
    running := fun ha => by
      obtain ⟨hr, -⟩ | ⟨-, hn⟩ := hphase
      · simp [hr] at ha
      · exact hn
    busy_phase := fun _ => hphase.imp And.left And.left
    cursor := by simp }

theorem SessionInv.dequeued {s : State} (h : SessionInv s) (rest : List HostCommand) :
    SessionInv { s with commands := rest } :=
  h.of_control rfl { h.control with }

/-! ## The end of a command -/

/-- A command that ends in phase Exhausted, or Faulted with its fault kind, and leaves fewer bits than the next
word has. -/
theorem SessionInv.ended {s : State} (h : SessionInv s) (acc : BitVec 32) {count : BitVec 5} {phase : Phase}
    {fault : Option FaultKind} (outcome : CommandResult) (hc : count.toNat < s.codeWidth.toNat)
    (hp : phase = .exhausted ∧ fault = none ∨ phase = .faulted ∧ fault ≠ none) :
    SessionInv { s with
      acc := acc, bitCount := count, phase := phase, faultKind := fault, busy := false, outcome := outcome,
      chunk := [], inPos := 0 } := by
  refine h.of_control rfl ⟨hc, by simp, ?_, ?_, ?_, by simp, by simp⟩
  all_goals obtain ⟨rfl, hf⟩ | ⟨rfl, hf⟩ := hp <;> simp [hf]

theorem raise_keepsInv (kind : FaultKind) {s : State} (h : SessionInv s) : SessionInv (raise kind s) :=
  h.ended s.acc _ h.count (.inr ⟨rfl, by simp⟩)

/-! ## What of the invariant holds all through an iteration -/

/-- What holds of the state from the word read to the end of step 6, whatever the previous code and the width are by
then. -/
structure MidWord (s : State) : Prop where
  ranges : InRange s
  busy : s.busy = true
  fault : s.faultKind = none
  count : s.bitCount.toNat ≤ 7
  cursor : s.inPos ≤ s.chunk.length
  learned : s.dict.map Prod.fst = List.range' 256 (s.maxCode.toNat - 255)
  chains : s.mode = .grow → ∀ x ∈ s.dict, x.2.prefixCode.toNat < x.1
  scratch : Memory.wf s.scratch ∧ ∀ c ∈ s.scratch, c.1 < scratchSize s
  runs : ∀ run ∈ s.out, run ≠ []
  restored : s.mode = .stringOnly → s.codeWidth.toNat = s.params.restoreWidth

theorem SessionInv.fault_of_busy {s : State} (h : SessionInv s) (hb : s.busy = true) : s.faultKind = none := by
  by_contra hf
  have := h.busy_phase hb
  simp [h.fault.2 hf] at this

theorem SessionInv.midWord {s : State} (h : SessionInv s) (hb : s.busy = true) (hc : s.bitCount.toNat ≤ 7) :
    MidWord s where
  ranges := h.ranges
  busy := hb
  fault := h.fault_of_busy hb
  count := hc
  cursor := h.cursor.1
  learned := h.learned
  chains := fun hm => (h.grow hm).chains
  scratch := h.scratch
  runs := h.runs
  restored := h.restored

theorem MidWord.code_ne_noCode {s : State} (h : MidWord s) {code : Code} (hc : code.toNat ≤ s.maxCode.toNat) :
    code ≠ noCode s := by
  rintro rfl
  have := h.ranges.max_lt
  rw [noCode_toNat h.ranges.params] at hc
  omega

/-- A code up to `max_code` has an entry, and in Grow mode its chain goes down or ends. -/
theorem MidWord.exists_readEntry {s : State} (h : MidWord s) (hm : s.mode = .grow) {code : Code}
    (hc : code.toNat ≤ s.maxCode.toNat) :
    ∃ e, readEntry s code.toNat = some e ∧ (e.prefixCode = noCode s ∨ e.prefixCode.toNat < code.toNat) := by
  unfold readEntry
  by_cases hl : code.toNat ≤ 255
  · exact ⟨_, if_pos hl, .inl rfl⟩
  · rw [if_neg hl, if_pos hc]
    have hmem : code.toNat ∈ s.dict.map Prod.fst := by
      rw [h.learned, List.mem_range'_1]; omega
    obtain ⟨e, he⟩ := Option.isSome_iff_exists.1 ((memory_find_isSome _ _).2 hmem)
    exact ⟨e, he, .inr (h.chains hm _ (memory_mem_of_find he))⟩

theorem chainBytes_noCode (s : State) (k : Nat) : chainBytes s k (noCode s) = some [] := by
  cases k <;> simp [chainBytes]

/-- In Grow mode the chain of a code up to `max_code` goes down through fewer entries than there are codes up to it. -/
theorem MidWord.exists_chainBytes {s : State} (h : MidWord s) (hm : s.mode = .grow) {k : Nat} {code : Code}
    (hk : code.toNat < k) (hc : code.toNat ≤ s.maxCode.toNat) : ∃ run, chainBytes s k code = some run := by
  induction k generalizing code with
  | zero => omega
  | succ k ih =>
    obtain ⟨e, he, hprefix⟩ := h.exists_readEntry hm hc
    have htail : ∃ run, chainBytes s k e.prefixCode = some run := by
      obtain hn | hlt := hprefix
      · rw [hn]; exact ⟨[], chainBytes_noCode s k⟩
      · exact ih (by omega) (by omega)
    obtain ⟨run, hrun⟩ := htail
    exact ⟨run ++ [e.byte], by simp [chainBytes, h.code_ne_noCode hc, he, hrun]⟩

/-- In Grow mode every code up to `max_code` has a string (`10_state.md` R38 item 4). -/
theorem MidWord.exists_stringOf {s : State} (h : MidWord s) (hm : s.mode = .grow) {code : Code}
    (hc : code.toNat ≤ s.maxCode.toNat) : ∃ run, stringOf s code = some run :=
  h.exists_chainBytes hm (by have := h.ranges.max_lt; unfold scratchSize; omega) hc

/-! ## The parts of a class rule -/

theorem deliver_scratch (code : Code) {s t : State} (hs : Memory.wf s.scratch ∧ ∀ c ∈ s.scratch, c.1 < scratchSize s)
    (hd : settled (deliver code s) = t) : Memory.wf t.scratch ∧ ∀ c ∈ t.scratch, c.1 < scratchSize s := by
  have h := resolveToBytes_scratch code hs
  unfold deliver at hd
  split at hd <;> rename_i hr <;> rw [hr] at h <;> subst hd <;> exact h

/-- Delivering a code that has a string: one run more, and its first byte remembered. -/
theorem MidWord.deliver_ok {s : State} (h : MidWord s) {code : Code} (hc : code.toNat ≤ s.maxCode.toNat)
    {run : List Byte} (hs : stringOf s code = some run) :
    ∃ t, deliver code s = .ok t ∧ MidWord t ∧
      t = { s with out := t.out, firstChar := t.firstChar, scratch := t.scratch } ∧
      ∃ rest, stringOf t code = some (t.firstChar :: rest) := by
  have hne := h.code_ne_noCode hc
  have hd := deliver_spec code s hne
  rw [hs] at hd
  obtain ⟨t, ht, ⟨hout, hhead, -⟩, hframe⟩ := hd
  have hscratch := deliver_scratch code h.scratch (t := t) (by rw [ht]; rfl)
  obtain ⟨rest, rfl⟩ : ∃ rest, run = t.firstChar :: rest := by
    cases run with
    | nil => simp at hhead
    | cons b rest => exact ⟨rest, by rw [Option.some.inj hhead]⟩
  obtain ⟨out, first, scratch, rfl⟩ : ∃ out first scratch,
      t = { s with out := out, firstChar := first, scratch := scratch } := ⟨_, _, _, hframe⟩
  have hruns : ∀ r ∈ out, r ≠ [] := by
    intro r hr
    rw [show out = _ from hout, List.mem_append, List.mem_singleton] at hr
    obtain hr | rfl := hr
    · exact h.runs r hr
    · simp
  refine ⟨_, ht, ?_, rfl, rest, ?_⟩
  · exact { h with ranges := h.ranges.congr rfl rfl rfl rfl, scratch := hscratch, runs := hruns }
  · rw [← hs]
    exact stringOf_congr (by rfl) (readEntry_congr (by rfl) (by rfl) (by rfl)) code

/-- The deferred add where there is room: one entry more, whose chain goes down, and every string as before. -/
theorem MidWord.addDeferred_ok {s : State} (h : MidWord s) (hm : s.mode = .grow)
    (hprev : s.prevCode.toNat ≤ s.maxCode.toNat) (hroom : s.maxCode.toNat + 1 < s.params.capacity) :
    ∃ t, addDeferred s = .ok t ∧ MidWord t ∧ t = { s with maxCode := t.maxCode, dict := t.dict } ∧
      t.maxCode.toNat = s.maxCode.toNat + 1 ∧
      ∀ c run, stringOf s c = some run → stringOf t c = some run := by
  obtain ⟨t, ht, hmax, hframe, hread⟩ := addDeferred_room h.ranges (h.code_ne_noCode hprev) hroom
  have hmem : ∀ x ∈ s.dict, x.1 < s.maxCode.toNat + 1 := by
    intro x hx
    have := h.learned ▸ List.mem_map_of_mem (f := Prod.fst) hx
    rw [List.mem_range'_1] at this
    have := h.ranges.max_ge
    omega
  rw [memory_insert_last hmem] at hframe
  obtain ⟨max, rfl⟩ : ∃ max, t = { s with
      maxCode := max, dict := s.dict ++ [(s.maxCode.toNat + 1, { prefixCode := s.prevCode, byte := s.firstChar })] } :=
    ⟨_, hframe⟩
  replace hmax : max.toNat = s.maxCode.toNat + 1 := hmax
  have hge := h.ranges.max_ge
  refine ⟨_, ht, ?_, rfl, hmax, fun c run => chainBytes_of_more (by rfl) fun i e he => ?_⟩
  · have hcount : max.toNat - 255 = (s.maxCode.toNat - 255) + 1 := by omega
    have hlast : 256 + (s.maxCode.toNat - 255) = s.maxCode.toNat + 1 := by omega
    exact { h with
      ranges := { h.ranges with
        max_ge := by simp only; omega
        max_lt := by simp only; omega }
      learned := by
        simp only [List.map_append, h.learned, hcount, List.range'_1_concat, hlast, List.map_cons, List.map_nil]
      chains := fun _ x hx => by
        obtain hx | hx := List.mem_append.1 hx
        · exact h.chains hm x hx
        · rw [List.mem_singleton.1 hx]; exact Nat.lt_succ_of_le hprev }
  · have hi : i ≠ s.maxCode.toNat + 1 := by
      rintro rfl
      rw [readEntry, if_neg (by omega), if_neg (by omega)] at he
      cases he
    rw [hread, if_neg hi, he]

/-! ## Steps 4 to 6 -/

theorem completeWord_of_overflow (code : Code) {s : State} (hm : s.mode = .grow)
    (hfull : s.maxCode.toNat + 1 = s.params.capacity) : completeWord code s = resetDictionary s := by
  rw [completeWord, handleOverflow, if_pos ((overflows_iff _).2 (by simp [hm, hfull])), growWidth]
  split <;> rfl

theorem completeWord_of_room (code : Code) {s : State} (hroom : s.maxCode.toNat + 1 ≠ s.params.capacity) :
    completeWord code s = growWidth (setPrevious code s) := by
  rw [completeWord, handleOverflow, if_neg (fun h => hroom (by simpa using ((overflows_iff _).1 h).2))]

/-- The overflow reset at the end of a word starts a new epoch. -/
theorem MidWord.resetDictionary_inv {s : State} (h : MidWord s) (hm : s.mode = .grow) :
    SessionInv (resetDictionary s) where
  ranges := .of_fresh h.ranges.params rfl rfl rfl
  count := Nat.lt_of_le_of_lt h.count (by simp)
  count_iter := fun _ _ => h.count
  fault := by simp [h.fault]
  awaiting := fun _ => rfl
  running := by simp
  busy_phase := by simp
  learned := by simp
  scratch := h.scratch
  cursor := ⟨h.cursor, by simp [h.busy]⟩
  runs := h.runs
  restored := by simp [hm]
  grow := fun _ => .of_fresh h.ranges.params rfl rfl rfl rfl

/-- A word completed with no overflow: a previous code that has an entry, and a width that suits the mode. -/
theorem MidWord.running_inv {s : State} (h : MidWord s) {code : Code} (hc : code.toNat ≤ s.maxCode.toNat)
    {width : BitVec 5} (hw8 : minWidth ≤ width.toNat) (hw24 : width.toNat ≤ maxWidth)
    (hrestored : s.mode = .stringOnly → width = s.codeWidth)
    (hgrow : s.mode = .grow → GrowInv { s with prevCode := code, phase := .running, codeWidth := width }) :
    SessionInv { s with prevCode := code, phase := .running, codeWidth := width } where
  ranges := { h.ranges with
    prev_le := hc.trans h.ranges.max_lt.le
    width_ge := hw8
    width_le := hw24 }
  count := Nat.lt_of_le_of_lt h.count hw8
  count_iter := fun _ _ => h.count
  fault := by simp [h.fault]
  awaiting := by simp
  running := fun _ => h.code_ne_noCode hc
  busy_phase := by simp
  learned := h.learned
  scratch := h.scratch
  cursor := ⟨h.cursor, by simp [h.busy]⟩
  runs := h.runs
  restored := fun hm => by rw [hrestored hm]; exact h.restored hm
  grow := hgrow

theorem MidWord.completeWord_stringOnly_inv {s : State} (h : MidWord s) (hm : s.mode = .stringOnly) {code : Code}
    (hc : code.toNat ≤ s.maxCode.toNat) : SessionInv (completeWord code s) := by
  rw [completeWord_stringOnly code hm]
  exact h.running_inv hc h.ranges.width_ge h.ranges.width_le (fun _ => rfl) (fun hg => by simp [hm] at hg)

/-- The width schedule: `max_code + 1` is within the width, and step 5 keeps it strictly within (`30_encoding.md` R95). -/
theorem growWidth_schedule {s : State} (hm : s.mode = .grow) (hge : 255 ≤ s.maxCode.toNat)
    (hroom : s.maxCode.toNat + 1 < 2 ^ maxWidth) (hlo : 2 ^ (s.codeWidth.toNat - 1) ≤ s.maxCode.toNat + 1)
    (hhi : s.maxCode.toNat + 1 ≤ 2 ^ s.codeWidth.toNat) (hw24 : s.codeWidth.toNat ≤ maxWidth) :
    9 ≤ (growWidth s).codeWidth.toNat ∧ (growWidth s).codeWidth.toNat ≤ maxWidth ∧
      2 ^ ((growWidth s).codeWidth.toNat - 1) ≤ s.maxCode.toNat + 1 ∧
      s.maxCode.toNat + 1 < 2 ^ (growWidth s).codeWidth.toNat := by
  have h8 : 8 ≤ s.codeWidth.toNat := by
    have : 2 ^ 8 ≤ 2 ^ s.codeWidth.toNat := by omega
    exact (Nat.pow_le_pow_iff_right (by decide)).1 this
  by_cases hfull : s.maxCode.toNat + 1 = 2 ^ s.codeWidth.toNat
  · have hlt : s.codeWidth.toNat < maxWidth := (Nat.pow_lt_pow_iff_right (by decide)).1 (hfull ▸ hroom)
    have hg : (growWidth s).codeWidth.toNat = s.codeWidth.toNat + 1 := by
      rw [growWidth, if_pos ((widthGrows_iff s).2 ⟨hm, hfull, hlt⟩)]
      unfold maxWidth at hlt
      simp; omega
    rw [hg]
    refine ⟨by omega, hlt, by rw [Nat.add_sub_cancel]; exact hfull.ge, ?_⟩
    rw [hfull]
    exact Nat.pow_lt_pow_right (by decide) (Nat.lt_succ_self _)
  · have hg : growWidth s = s := by rw [growWidth, if_neg fun h => hfull ((widthGrows_iff s).1 h).2.1]
    rw [hg]
    have h9 : s.codeWidth.toNat ≠ 8 := by
      intro h; rw [h] at hhi hfull; omega
    exact ⟨by omega, hw24, hlo, by omega⟩

/-- What a class rule in Grow mode leaves for step 5, the width being the one its word was read with, and for the next
word's deferred entry. -/
structure GrowDone (code : Code) (s : State) : Prop where
  code_le : code.toNat ≤ s.maxCode.toNat
  width_lo : 2 ^ (s.codeWidth.toNat - 1) ≤ s.maxCode.toNat + 1
  width_hi : s.maxCode.toNat + 1 ≤ 2 ^ s.codeWidth.toNat
  first : ∃ rest, stringOf s code = some (s.firstChar :: rest)

theorem MidWord.completeWord_grow_inv {s : State} (h : MidWord s) (hm : s.mode = .grow) {code : Code}
    (hd : GrowDone code s) : SessionInv (completeWord code s) := by
  have hlt := h.ranges.max_lt
  by_cases hfull : s.maxCode.toNat + 1 = s.params.capacity
  · rw [completeWord_of_overflow code hm hfull]
    exact h.resetDictionary_inv hm
  · have hcap := h.ranges.params.2.1
    obtain ⟨h9, h24, hlo, hhi⟩ := growWidth_schedule (s := setPrevious code s) hm h.ranges.max_ge
      (by simp only [maxWidth, setPrevious_maxCode]; omega) hd.width_lo hd.width_hi h.ranges.width_le
    have hg : growWidth (setPrevious code s) =
        { s with prevCode := code, phase := .running, codeWidth := (growWidth (setPrevious code s)).codeWidth } := by
      unfold growWidth; split <;> rfl
    rw [completeWord_of_room code hfull, hg]
    refine h.running_inv hd.code_le (by unfold minWidth; omega) h24 (by simp [hm]) fun _ => ?_
    have hne := h.code_ne_noCode hd.code_le
    refine ⟨by simp only; omega, fun hn => absurd hn hne, fun _ => hd.code_le, fun _ => ⟨h9, hlo, hhi⟩, h.chains hm,
      fun _ => ?_⟩
    obtain ⟨rest, hrest⟩ := hd.first
    refine ⟨rest, ?_⟩
    rw [← hrest]
    exact stringOf_congr (by rfl) (readEntry_congr (by rfl) (by rfl) (by rfl)) code

/-! ## The class rules -/

/-- The five classes, each with the registers that choose it (`30_encoding.md` R97). -/
theorem classify_cases (r : ClassRegs) (code : Code) :
    (classify r code = .string code ∧ code.toNat ≤ r.maxCode.toNat ∧ r.mode = .stringOnly) ∨
    (classify r code = .first code ∧ code.toNat ≤ r.maxCode.toNat ∧ r.mode = .grow ∧ r.prevCode = r.noCode) ∨
    (classify r code = .known code ∧ code.toNat ≤ r.maxCode.toNat ∧ r.mode = .grow ∧ r.prevCode ≠ r.noCode) ∨
    (classify r code = .next code ∧ code.toNat = r.maxCode.toNat + 1 ∧ r.mode = .grow ∧ r.prevCode ≠ r.noCode) ∨
    classify r code = .invalid code := by
  unfold classify
  by_cases hc : code.toNat ≤ r.maxCode.toNat
  · cases r.mode <;> by_cases hp : r.prevCode = r.noCode <;> simp [hc, hp]
  · rw [if_neg hc]
    by_cases hn : code.toNat = r.maxCode.toNat + 1 ∧ r.mode = .grow ∧ r.prevCode ≠ r.noCode
    · exact .inr (.inr (.inr (.inl ⟨if_pos hn, hn⟩)))
    · exact .inr (.inr (.inr (.inr (if_neg hn))))

theorem stringBody_keepsInv {s : State} {code : Code} (h : SessionInv s) (hm : MidWord s) (hmode : s.mode = .stringOnly)
    (hc : code.toNat ≤ s.maxCode.toNat) : BodyKeeps (fun _ t => SessionInv t) s (stringBody code s) := by
  cases hs : stringOf s code with
  | none =>
    have hd := deliver_spec code s (hm.code_ne_noCode hc)
    rw [hs] at hd
    obtain ⟨u, hu, hframe⟩ := hd
    have hscratch := deliver_scratch code h.scratch (t := raise .invalidCode u) (by rw [hu]; rfl)
    obtain ⟨scratch, rfl⟩ : ∃ scratch, u = { s with scratch := scratch } := ⟨_, hframe⟩
    rw [stringBody, hu]
    exact ⟨.invalidCode, { s with scratch := scratch }, { h with
      ranges := h.ranges.congr rfl rfl rfl rfl
      scratch := hscratch
      grow := fun hg => (h.grow hg).congr rfl rfl rfl rfl rfl rfl }, rfl⟩
  | some run =>
    obtain ⟨t, ht, hmt, hframe, -⟩ := hm.deliver_ok hc hs
    rw [stringBody, ht]
    exact hmt.completeWord_stringOnly_inv (by rw [hframe]; exact hmode) (by rw [hframe]; exact hc)

theorem firstBody_keepsInv {s : State} {code : Code} (h : SessionInv s) (hm : MidWord s) (hmode : s.mode = .grow)
    (hprev : s.prevCode = noCode s) (hc : code.toNat ≤ s.maxCode.toNat) :
    BodyKeeps (fun _ t => SessionInv t) s (firstBody code s) := by
  obtain ⟨hmax, hwidth⟩ := (h.grow hmode).fresh hprev
  obtain ⟨run, hs⟩ := hm.exists_stringOf hmode hc
  obtain ⟨t, ht, hmt, hframe, hfirst⟩ := hm.deliver_ok hc hs
  have hmax' : t.maxCode = 255 := by rw [hframe]; exact hmax
  have hwidth' : t.codeWidth = 8 := by rw [hframe]; exact hwidth
  have hbody : firstBody code s = .ok (completeWord code t) := by
    rw [firstBody, ht]
    exact congrArg (Except.ok ∘ completeWord code) (congrArg Prod.snd (addEntry_noCode t.firstChar t))
  rw [hbody]
  exact hmt.completeWord_grow_inv (by rw [hframe]; exact hmode)
    { code_le := by rw [hframe]; exact hc
      width_lo := by simp [hmax', hwidth']
      width_hi := by simp [hmax', hwidth']
      first := hfirst }

theorem knownBody_keepsInv {s : State} {code : Code} (h : SessionInv s) (hm : MidWord s) (hmode : s.mode = .grow)
    (hprev : s.prevCode ≠ noCode s) (hc : code.toNat ≤ s.maxCode.toNat) :
    BodyKeeps (fun _ t => SessionInv t) s (knownBody code s) := by
  have hg := h.grow hmode
  obtain ⟨-, hlo, hhi⟩ := hg.width hprev
  obtain ⟨run, hs⟩ := hm.exists_stringOf hmode hc
  obtain ⟨t, ht, hmt, hframe, rest, hrest⟩ := hm.deliver_ok hc hs
  obtain ⟨htprev, htmax, htparams, htmode, htwidth⟩ : t.prevCode = s.prevCode ∧ t.maxCode = s.maxCode ∧
      t.params = s.params ∧ t.mode = s.mode ∧ t.codeWidth = s.codeWidth := by
    rw [hframe]; exact ⟨rfl, rfl, rfl, rfl, rfl⟩
  obtain ⟨u, hu, hmu, huframe, humax, hstrings⟩ := hmt.addDeferred_ok (htmode.trans hmode)
    (by rw [htprev, htmax]; exact hg.prev_valid hprev) (by rw [htmax, htparams]; exact hg.room)
  obtain ⟨hufirst, humode, huwidth⟩ : u.firstChar = t.firstChar ∧ u.mode = t.mode ∧ u.codeWidth = t.codeWidth := by
    rw [huframe]; exact ⟨rfl, rfl, rfl⟩
  have hbody : knownBody code s = .ok (completeWord code u) := by
    rw [knownBody, ht]
    show (addDeferred t >>= fun v => .ok (completeWord code v)) = _
    rw [hu]
    rfl
  rw [hbody]
  rw [htmax] at humax
  rw [htwidth] at huwidth
  exact hmu.completeWord_grow_inv (by rw [humode, htmode, hmode])
    { code_le := by omega
      width_lo := by rw [huwidth]; omega
      width_hi := by rw [huwidth]; omega
      first := ⟨rest, by rw [hufirst]; exact hstrings _ _ hrest⟩ }

theorem nextBody_keepsInv {s : State} {code : Code} (h : SessionInv s) (hm : MidWord s) (hmode : s.mode = .grow)
    (hprev : s.prevCode ≠ noCode s) (hc : code.toNat = s.maxCode.toNat + 1) :
    BodyKeeps (fun _ t => SessionInv t) s (nextBody code s) := by
  have hg := h.grow hmode
  obtain ⟨-, hlo, hhi⟩ := hg.width hprev
  obtain ⟨t, ht, hmt, htframe, htmax, -⟩ := hm.addDeferred_ok hmode (hg.prev_valid hprev) hg.room
  obtain ⟨htmode, htwidth⟩ : t.mode = s.mode ∧ t.codeWidth = s.codeWidth := by rw [htframe]; exact ⟨rfl, rfl⟩
  obtain ⟨run, hs⟩ := hmt.exists_stringOf (htmode.trans hmode) (code := code) (by omega)
  obtain ⟨u, hu, hmu, huframe, hfirst⟩ := hmt.deliver_ok (by omega) hs
  obtain ⟨humode, huwidth, humax⟩ : u.mode = t.mode ∧ u.codeWidth = t.codeWidth ∧ u.maxCode = t.maxCode := by
    rw [huframe]; exact ⟨rfl, rfl, rfl⟩
  have hbody : nextBody code s = .ok (completeWord code u) := by
    rw [nextBody, ht]
    show (deliver code t >>= fun v => .ok (completeWord code v)) = _
    rw [hu]
    rfl
  rw [hbody]
  rw [htwidth] at huwidth
  rw [← humax] at htmax
  exact hmu.completeWord_grow_inv (by rw [humode, htmode, hmode])
    { code_le := by omega
      width_lo := by rw [huwidth]; omega
      width_hi := by rw [huwidth]; omega
      first := hfirst }

theorem whenClass_keepsInv {w : ReadWord} {code : Code} {s t : State} {x : Except State State}
    (hx : BodyKeeps (fun _ u => SessionInv u) s x) (h : whenClass w code s (settled x) = next t) : SessionInv t := by
  obtain ht | ⟨kind, u, hu, rfl⟩ := KeptByWords.whenClass_settled hx h
  · exact ht
  · exact raise_keepsInv kind hu

/-- Executing a word in its class keeps the invariant. -/
theorem runWord_keepsInv {s t : State} {code : Code} (h : SessionInv s) (hb : s.busy = true)
    (hcount : s.bitCount.toNat ≤ 7) (hr : runWord (classify (classRegs s) code) s = next t) : SessionInv t := by
  have hm := h.midWord hb hcount
  obtain ⟨hw, hc, hmode⟩ | ⟨hw, hc, hmode, hprev⟩ | ⟨hw, hc, hmode, hprev⟩ | ⟨hw, hc, hmode, hprev⟩ | hw :=
    classify_cases (classRegs s) code
  all_goals rw [hw] at hr
  · exact whenClass_keepsInv (stringBody_keepsInv h hm hmode hc) hr
  · exact whenClass_keepsInv (firstBody_keepsInv h hm hmode hprev hc) hr
  · exact whenClass_keepsInv (knownBody_keepsInv h hm hmode hprev hc) hr
  · exact whenClass_keepsInv (nextBody_keepsInv h hm hmode hprev hc) hr
  · rw [whenClass_eq_next hr]
    exact raise_keepsInv _ h

/-! ## The steps -/

/-- A word read with fewer bits buffered than it has leaves at most 7, and the cursor in the chunk. -/
theorem readBits_code_left {n : Nat} (hn : n ≤ 24) {s t : State} {code : Code} (h : readBits n s = (.code code, t))
    (hcount : s.bitCount.toNat < n) (hcursor : s.inPos ≤ s.chunk.length) :
    t = { s with acc := t.acc, inPos := t.inPos, bitCount := t.bitCount } ∧ t.bitCount.toNat ≤ 7 ∧
      t.inPos ≤ s.chunk.length := by
  obtain ⟨_, u, hu, -, -, -, hleft, hframe, hbytes⟩ | ⟨u, hu, -⟩ := readBits_spec n hn s <;> cases hu.symm.trans h
  have hunread : (unreadBytes s).length = s.chunk.length - s.inPos := by simp [unreadBytes]
  refine ⟨by rw [hframe], ?_, ?_⟩
  · rw [hleft]
    unfold bytesNeeded
    omega
  · rw [hframe]
    show s.inPos + bytesNeeded n s ≤ _
    omega

/-- Where `read_bits` finds no data, the chunk is exhausted and fewer bits are held than were asked for. -/
theorem readBits_noData_left {n : Nat} (hn : n ≤ 24) {s t : State} (h : readBits n s = (.noData, t)) :
    t = { s with acc := t.acc, inPos := t.inPos, bitCount := t.bitCount } ∧ t.bitCount.toNat < n ∧
      unreadBytes t = [] := by
  obtain ⟨_, u, hu, -⟩ | ⟨u, hu, hlt, -, hleft, hframe⟩ := readBits_spec n hn s <;> cases hu.symm.trans h
  rw [streamAhead_length, bitsLeft] at hlt
  refine ⟨by rw [hframe], by omega, ?_⟩
  rw [hframe]
  simp [unreadBytes]
  omega

theorem iteration_keepsInv {s t : State} (h : SessionInv s) (hb : s.busy = true) (hi : iteration s = next t) :
    SessionInv t := by
  unfold iteration at hi
  obtain ⟨-, hr⟩ | ⟨hw, ⟨code, u, hbits, hr⟩ | ⟨u, hbits, hr⟩⟩ := readWord_spec s <;> rw [hr] at hi
  · cases hi
  · obtain ⟨hframe, hu7, hcursor⟩ := readBits_code_left hw hbits h.count h.cursor.1
    have hu : SessionInv u := by
      rw [hframe]
      exact h.of_control rfl { h.control with
        count := Nat.lt_of_le_of_lt hu7 h.ranges.width_ge
        count_iter := fun _ _ => hu7
        cursor := ⟨hcursor, by simp [hb]⟩ }
    exact runWord_keepsInv hu (by rw [hframe]; exact hb) hu7 hi
  · obtain ⟨hframe, hcount, -⟩ := readBits_noData_left hw hbits
    rw [execNoData_eq_next hi, hframe]
    split
    · exact h.ended u.acc _ hcount (.inr ⟨rfl, by simp⟩)
    · exact h.ended u.acc _ hcount (.inl ⟨rfl, h.fault_of_busy hb⟩)

/-- What every iteration keeps holds where a command's run ends. -/
theorem FirstIdle.induction {P : State → Prop} (hstep : ∀ {u v}, u.busy = true → iteration u = next v → P u → P v)
    {k : Nat} {s t : State} (h : FirstIdle k s t) (hs : P s) : P t := by
  induction k generalizing s with
  | zero =>
    obtain ⟨rfl, -⟩ := (firstIdle_zero s t).1 h
    exact hs
  | succ k ih =>
    obtain ⟨hb, u, hu, hk⟩ := (firstIdle_succ k s t).1 h
    exact ih hk (hstep hb hu hs)

theorem execDecodeChunk_keepsInv {chunk : List Byte} {s t : State} (h : SessionInv s)
    (hd : execDecodeChunk chunk s = next t) : SessionInv t := by
  obtain ⟨-, hd⟩ := whenIdle_eq_next hd
  split at hd
  · cases hd
    exact h.of_control rfl { h.control with }
  · rename_i hp
    obtain ⟨k, -, hk⟩ := (engineLoop_eq_next_iff _ _ t).1 hd
    exact hk.induction (fun hb hi hu => iteration_keepsInv hu hb hi) (beginChunk_keepsInv chunk h hp)

theorem execCommand_keepsInv {c : HostCommand} {s t : State} (h : SessionInv s)
    (hc : exec (decodeCommand c) s = next t) : SessionInv t := by
  unfold decodeCommand at hc
  split at hc
  · obtain ⟨-, hc⟩ := whenIdle_eq_next hc
    cases hc
    exact (initRegs_keepsInv h).of_control rfl { (initRegs_keepsInv h).control with }
  · obtain ⟨hb, hc⟩ := whenIdle_eq_next hc
    cases hc
    split
    · exact loadTable_keepsInv h ‹_›
    · exact refuseTable_keepsInv h hb
  · exact execDecodeChunk_keepsInv h hc
  · cases hc
    exact h

/-- Settles O37: inside a command a step is an iteration, whose word leaves a session's state or a fault raised over one;
and an idle block executes the queue's head. -/
theorem stepKeepsInvariant : Obligations.StepKeepsInvariant := by
  intro s t h hs
  cases hb : s.busy with
  | true =>
    rw [step_busy hb] at hs
    exact iteration_keepsInv h hb hs
  | false =>
    cases hc : s.commands with
    | nil =>
      rw [step_no_command hb hc] at hs
      cases hs
      exact h
    | cons c rest =>
      rw [step_command hb hc] at hs
      exact execCommand_keepsInv (h.dequeued rest) hs

/-! ## A step always answers -/

theorem runWord_classify_answers (code : Code) (s : State) : ∃ t, runWord (classify (classRegs s) code) s = next t := by
  obtain ⟨hw, -⟩ | ⟨hw, -⟩ | ⟨hw, -⟩ | ⟨hw, -⟩ | hw := classify_cases (classRegs s) code
  all_goals exact ⟨_, by rw [hw]; exact if_pos hw⟩

/-- An iteration answers at every width that `read_bits` takes: a word is executed in the class it was given, and NODATA
where the chunk is exhausted. -/
theorem iteration_answers {s : State} (hw : s.codeWidth.toNat ≤ maxWidth) : ∃ t, iteration s = next t := by
  unfold iteration
  obtain ⟨hlt, -⟩ | ⟨-, ⟨code, u, -, hr⟩ | ⟨u, hbits, hr⟩⟩ := readWord_spec s
  · omega
  · rw [hr]
    exact runWord_classify_answers code u
  · obtain ⟨hframe, hcount, hunread⟩ := readBits_noData_left hw hbits
    have hwidth : u.codeWidth = s.codeWidth := by rw [hframe]
    rw [hr]
    exact ⟨_, if_pos ((outOfData_iff _ _).2 ⟨hunread, hwidth ▸ hcount⟩)⟩

/-- The loop answers from every state of an invariant that the iterations keep and that has a width from 1 to 24, if
its bound is above the number of bits there are to read. -/
theorem engineLoop_answers {P : State → Prop} (hstep : ∀ {u v}, u.busy = true → iteration u = next v → P u → P v)
    (hwidth : ∀ {u}, P u → u.codeWidth ≠ 0 ∧ u.codeWidth.toNat ≤ maxWidth) {fuel : Nat} {s : State} (hs : P s)
    (hf : bitsLeft s < fuel) : ∃ t, engineLoop fuel s = next t := by
  induction fuel generalizing s with
  | zero => omega
  | succ fuel ih =>
    cases hb : s.busy with
    | false => exact ⟨s, engineLoop_idle _ hb⟩
    | true =>
      obtain ⟨h0, h24⟩ := hwidth hs
      obtain ⟨u, hu⟩ := iteration_answers h24
      rw [engineLoop_busy fuel hb hu]
      cases hub : u.busy with
      | false => exact ⟨u, engineLoop_idle fuel hub⟩
      | true =>
        have := (iteration_busy_bitsLeft h0 hu hub).1
        exact ih (hstep hb hu hs) (by omega)

theorem SessionInv.width {s : State} (h : SessionInv s) : s.codeWidth ≠ 0 ∧ s.codeWidth.toNat ≤ maxWidth := by
  refine ⟨fun h0 => ?_, h.ranges.width_le⟩
  have := h.ranges.width_ge
  simp [h0, minWidth] at this

theorem execDecodeChunk_answers (chunk : List Byte) {s : State} (h : SessionInv s) (hb : s.busy = false) :
    ∃ t, execDecodeChunk chunk s = next t := by
  rw [execDecodeChunk, whenIdle_idle hb]
  by_cases hp : s.phase = .faulted
  · exact ⟨_, if_pos hp⟩
  · rw [if_neg hp]
    refine engineLoop_answers (P := SessionInv) (fun hb hi hu => iteration_keepsInv hu hb hi) SessionInv.width
      (beginChunk_keepsInv chunk h hp) ?_
    unfold bitsLeft enoughIterations
    omega

/-- Settles O39: the width is one `read_bits` takes, and the loop's bound covers every bit there is to read. -/
theorem stepNeverStops : Obligations.StepNeverStops := by
  intro s h
  cases hb : s.busy with
  | true =>
    rw [step_busy hb]
    exact iteration_answers h.ranges.width_le
  | false =>
    cases hc : s.commands with
    | nil => exact ⟨s, step_no_command hb hc⟩
    | cons c rest =>
      rw [step_command hb hc]
      unfold decodeCommand
      split
      · exact ⟨_, whenIdle_idle hb _⟩
      · exact ⟨_, whenIdle_idle hb _⟩
      · exact execDecodeChunk_answers c.chunk (h.dequeued rest) hb
      · exact ⟨_, rfl⟩

end Sys2Proof.Machine

/-! SUPPORT. The stale bits of the accumulator: no part of a step reads them. -/

namespace Sys2Proof.Machine

open Host.Outcome

/-! ## Two states that differ in stale bits -/

theorem sameButStale_iff {s t : State} :
    SameButStale s t ↔ ∃ acc, t = { s with acc := acc } ∧ validBits t = validBits s := by
  constructor
  · rintro ⟨ht, hv⟩
    exact ⟨_, ht, hv⟩
  · rintro ⟨acc, rfl, hv⟩
    exact ⟨rfl, hv⟩

theorem SameButStale.refl (s : State) : SameButStale s s := ⟨rfl, rfl⟩

/-- An update that neither reads nor writes the accumulator, and leaves the count of valid bits alone. -/
theorem SameButStale.map {s t : State} (h : SameButStale s t) {f : State → State}
    (hf : ∀ acc, f { s with acc := acc } = { f s with acc := acc }) (hacc : (f s).acc = s.acc)
    (hcount : (f s).bitCount = s.bitCount) : SameButStale (f s) (f t) := by
  obtain ⟨acc, rfl, hv⟩ := sameButStale_iff.1 h
  rw [hf acc]
  refine ⟨rfl, ?_⟩
  unfold validBits at hv ⊢
  simpa only [hacc, hcount] using hv

theorem raise_sameButStale (kind : FaultKind) {s t : State} (h : SameButStale s t) :
    SameButStale (raise kind s) (raise kind t) :=
  h.map (fun _ => rfl) rfl rfl

/-! ## The Bit Reader -/

/-- `read_bits` gives the same from the same valid and unread bits, and leaves the same valid bits. -/
theorem readBits_sameButStale {n : Nat} (hn : n ≤ 24) {s t : State} (h : SameButStale s t) :
    (readBits n t).1 = (readBits n s).1 ∧ SameButStale (readBits n s).2 (readBits n t).2 := by
  obtain ⟨acc, rfl, hv⟩ := sameButStale_iff.1 h
  have ht := readBits_spec n hn { s with acc := acc }
  rw [hv] at ht
  obtain ⟨c, u, hu, hle, hc, hdrop, hcount, hframe, -⟩ | ⟨u, hu, hlt, hvalid, hcount, hframe⟩ := readBits_spec n hn s
  · obtain ⟨c', v, hw, -, hc', hdrop', hcount', hframe', -⟩ | ⟨v, -, hlt, -⟩ := ht
    · rw [hu, hw]
      have hb : v.bitCount = u.bitCount := BitVec.eq_of_toNat_eq (hcount'.trans hcount.symm)
      have hun : unreadBytes v = unreadBytes u := by rw [hframe, hframe']; rfl
      refine ⟨congrArg BitsRead.code (BitVec.eq_of_toNat_eq (hc'.trans hc.symm)), ?_, ?_⟩
      · rw [hframe', hframe, hb]; rfl
      · rw [← List.append_left_inj, hdrop, ← hun]; exact hdrop'
    · exact absurd hle (Nat.not_le_of_lt hlt)
  · obtain ⟨c', v, -, hle, -⟩ | ⟨v, hw, -, hvalid', hcount', hframe'⟩ := ht
    · exact absurd hle (Nat.not_le_of_lt hlt)
    · rw [hu, hw]
      have hb : v.bitCount = u.bitCount := BitVec.eq_of_toNat_eq (hcount'.trans hcount.symm)
      refine ⟨rfl, ?_, hvalid'.trans hvalid.symm⟩
      rw [hframe', hframe, hb]; rfl

/-! ## The parts of a class rule -/

/-- What a chain walk depends on: the entries alone. -/
theorem walk_congr {s t : State} (hp : t.params = s.params) (hr : ∀ i, readEntry t i = readEntry s i) (k : Nat) (c : Code)
    (m : List Host.Cell) : walk t k c m = walk s k c m := by
  induction k generalizing c m with
  | zero => simp only [walk, noCode_congr hp]
  | succ k ih => simp only [walk, noCode_congr hp, hr, ih]

/-- Two answers of a part of a class rule that both go on, or both raised, in states that differ in stale bits. -/
def SameBody : Except State State → Except State State → Prop
  | .ok s, .ok t => SameButStale s t
  | .error s, .error t => SameButStale s t
  | _, _ => False

theorem SameBody.bind {x y : Except State State} {f : State → Except State State} (h : SameBody x y)
    (hf : ∀ {s t}, SameButStale s t → SameBody (f s) (f t)) : SameBody (x >>= f) (y >>= f) := by
  cases x <;> cases y
  · exact h
  · exact h.elim
  · exact h.elim
  · exact hf h

theorem SameBody.settled {x y : Except State State} (h : SameBody x y) : SameButStale (settled x) (settled y) := by
  cases x <;> cases y
  · exact h
  · exact h.elim
  · exact h.elim
  · exact h

/-- `resolve_to_bytes` is its chain walk. -/
theorem resolveToBytes_eq (code : Code) (s : State) :
    resolveToBytes code s =
      ((walk s (scratchSize s) code s.scratch).1.map fun start => { start := start, length := scratchSize s - start },
        { s with scratch := (walk s (scratchSize s) code s.scratch).2 }) := by
  unfold resolveToBytes
  obtain ⟨_ | start, m⟩ := walk s (scratchSize s) code s.scratch <;> rfl

theorem resolveToBytes_setAcc (code : Code) (s : State) (acc : BitVec 32) :
    resolveToBytes code { s with acc := acc } =
      ((resolveToBytes code s).1, { (resolveToBytes code s).2 with acc := acc }) := by
  have hwalk : walk { s with acc := acc } = walk s := by
    funext k c m
    exact walk_congr (by rfl) (fun _ => by rfl) k c m
  rw [resolveToBytes_eq, resolveToBytes_eq, hwalk]
  rfl

theorem deliver_sameButStale (code : Code) {s t : State} (h : SameButStale s t) :
    SameBody (deliver code s) (deliver code t) := by
  have hs : SameButStale (resolveToBytes code s).2 (resolveToBytes code t).2 := by
    refine h.map (f := fun u => (resolveToBytes code u).2) (fun acc => ?_) ?_ ?_
    · rw [resolveToBytes_setAcc]
    · rw [resolveToBytes_eq]
    · rw [resolveToBytes_eq]
  have hr : (resolveToBytes code t).1 = (resolveToBytes code s).1 := by
    obtain ⟨acc, rfl, -⟩ := sameButStale_iff.1 h
    rw [resolveToBytes_setAcc]
  unfold deliver
  generalize resolveToBytes code s = p at hs hr
  generalize resolveToBytes code t = q at hs hr
  obtain ⟨r, u⟩ := p
  obtain ⟨r', v⟩ := q
  obtain rfl : r' = r := hr
  cases r' with
  | none => exact raise_sameButStale _ hs
  | some r =>
    exact hs.map (f := fun w => { emitRun (scratchBytes w r) w with firstChar := readScratch w r.start })
      (fun _ => rfl) rfl rfl

theorem addEntry_sameButStale (p : Code) (b : Byte) {s t : State} (h : SameButStale s t) :
    (addEntry p b t).1 = (addEntry p b s).1 ∧ SameButStale (addEntry p b s).2 (addEntry p b t).2 := by
  obtain ⟨acc, rfl, -⟩ := sameButStale_iff.1 h
  unfold addEntry
  simp only [show noCode { s with acc := acc } = noCode s from rfl,
    show dictionaryFull { s with acc := acc } = dictionaryFull s from rfl]
  split
  · exact ⟨rfl, h⟩
  · split
    · exact ⟨rfl, h⟩
    · exact ⟨rfl, h.map (f := fun u => writeEntry (BitVec.ofNat 25 (s.maxCode.toNat + 1)).toNat
        { prefixCode := p, byte := b } { u with maxCode := BitVec.ofNat 25 (s.maxCode.toNat + 1) })
        (fun _ => rfl) rfl rfl⟩

theorem addDeferred_sameButStale {s t : State} (h : SameButStale s t) : SameBody (addDeferred s) (addDeferred t) := by
  obtain ⟨hcode, hstate⟩ := addEntry_sameButStale s.prevCode s.firstChar h
  obtain ⟨acc, rfl, -⟩ := sameButStale_iff.1 h
  unfold addDeferred
  simp only [show noCode { s with acc := acc } = noCode s from rfl, hcode]
  split
  · exact raise_sameButStale _ hstate
  · exact hstate

theorem growWidth_sameButStale {s t : State} (h : SameButStale s t) : SameButStale (growWidth s) (growWidth t) := by
  refine h.map (fun acc => ?_) (growWidth_acc s) (growWidth_bitCount s)
  unfold growWidth
  rw [show widthGrows { s with acc := acc } = widthGrows s from rfl]
  split <;> rfl

theorem handleOverflow_sameButStale {s t : State} (h : SameButStale s t) :
    SameButStale (handleOverflow s) (handleOverflow t) := by
  have ho : overflows t = overflows s := by
    obtain ⟨acc, rfl, -⟩ := sameButStale_iff.1 h
    rfl
  unfold handleOverflow
  rw [ho]
  split
  · exact h.map (f := resetDictionary) (fun _ => rfl) rfl rfl
  · exact h

theorem completeWord_sameButStale (code : Code) {s t : State} (h : SameButStale s t) :
    SameButStale (completeWord code s) (completeWord code t) :=
  handleOverflow_sameButStale (growWidth_sameButStale (h.map (f := setPrevious code) (fun _ => rfl) rfl rfl))

/-! ## The class rules -/

theorem firstBody_sameButStale (code : Code) {s t : State} (h : SameButStale s t) :
    SameBody (firstBody code s) (firstBody code t) :=
  (deliver_sameButStale code h).bind fun {u v} hu => completeWord_sameButStale code <| by
    rw [addEntry_noCode, addEntry_noCode]
    exact hu

theorem knownBody_sameButStale (code : Code) {s t : State} (h : SameButStale s t) :
    SameBody (knownBody code s) (knownBody code t) :=
  (deliver_sameButStale code h).bind fun hu => (addDeferred_sameButStale hu).bind fun hv =>
    completeWord_sameButStale code hv

theorem nextBody_sameButStale (code : Code) {s t : State} (h : SameButStale s t) :
    SameBody (nextBody code s) (nextBody code t) :=
  (addDeferred_sameButStale h).bind fun hu => (deliver_sameButStale code hu).bind fun hv =>
    completeWord_sameButStale code hv

theorem stringBody_sameButStale (code : Code) {s t : State} (h : SameButStale s t) :
    SameBody (stringBody code s) (stringBody code t) :=
  (deliver_sameButStale code h).bind fun hu => completeWord_sameButStale code hu

theorem classRegs_sameButStale {s t : State} (h : SameButStale s t) : classRegs t = classRegs s := by
  obtain ⟨acc, rfl, -⟩ := sameButStale_iff.1 h
  rfl

theorem whenClass_sameAnswer (w : ReadWord) (code : Code) {s t u v : State} (h : SameButStale s t)
    (hu : SameButStale u v) : SameAnswer SameButStale (whenClass w code s u) (whenClass w code t v) := by
  unfold whenClass
  rw [classRegs_sameButStale h]
  split
  · exact hu
  · exact rfl

theorem execNoData_sameAnswer {s t : State} (h : SameButStale s t) :
    SameAnswer SameButStale (execNoData s) (execNoData t) := by
  have hr := raise_sameButStale .inputTruncated h
  have he := h.map (f := fun u => endCommand .needMoreInput { u with phase := .exhausted }) (fun _ => rfl) rfl rfl
  obtain ⟨acc, rfl, -⟩ := sameButStale_iff.1 h
  unfold execNoData
  rw [show outOfData _ { s with acc := acc } = outOfData s.codeWidth.toNat s from rfl,
    show truncated { s with acc := acc } = truncated s from rfl]
  split
  · split
    · exact hr
    · exact he
  · exact rfl

/-- Executing a word reads no stale bit. -/
theorem runWord_sameAnswer (w : ReadWord) {s t : State} (h : SameButStale s t) :
    SameAnswer SameButStale (runWord w s) (runWord w t) := by
  cases w with
  | first code => exact whenClass_sameAnswer _ code h (firstBody_sameButStale code h).settled
  | known code => exact whenClass_sameAnswer _ code h (knownBody_sameButStale code h).settled
  | next code => exact whenClass_sameAnswer _ code h (nextBody_sameButStale code h).settled
  | string code => exact whenClass_sameAnswer _ code h (stringBody_sameButStale code h).settled
  | invalid code => exact whenClass_sameAnswer _ code h (raise_sameButStale _ h)
  | noData => exact execNoData_sameAnswer h

/-! ## Iterations, commands and steps -/

theorem iteration_sameAnswer {s t : State} (h : SameButStale s t) :
    SameAnswer SameButStale (iteration s) (iteration t) := by
  have hwidth : t.codeWidth = s.codeWidth := by rw [h.1]
  unfold iteration readWord
  rw [hwidth]
  by_cases hw : maxWidth < s.codeWidth.toNat
  · simp only [if_pos hw]
    exact rfl
  · simp only [if_neg hw]
    obtain ⟨hread, hstate⟩ := readBits_sameButStale (Nat.le_of_not_lt hw) h
    generalize readBits s.codeWidth.toNat s = p at hread hstate
    generalize readBits s.codeWidth.toNat t = q at hread hstate
    obtain ⟨r, u⟩ := p
    obtain ⟨r', v⟩ := q
    obtain rfl : r' = r := hread
    cases r' with
    | noData => exact runWord_sameAnswer _ hstate
    | code code =>
      simp only [classRegs_sameButStale hstate]
      exact runWord_sameAnswer _ hstate

theorem sameAnswer_cases {r : State → State → Prop} {o p : Host.Outcome State Fault Refusal} (h : SameAnswer r o p) :
    (∃ s t, o = next s ∧ p = next t ∧ r s t) ∨ (o = p ∧ ∀ s, o ≠ next s) := by
  cases o <;> cases p <;> simp_all [SameAnswer]

/-- The loop meets states that differ in stale bits, and stops where its iterations stop. -/
theorem engineLoop_sameAnswer (fuel : Nat) {s t : State} (h : SameButStale s t) :
    SameAnswer SameButStale (engineLoop fuel s) (engineLoop fuel t) := by
  have hbusy : t.busy = s.busy := by rw [h.1]
  induction fuel generalizing s t with
  | zero =>
    unfold engineLoop
    rw [hbusy]
    split
    · exact rfl
    · exact h
  | succ fuel ih =>
    unfold engineLoop
    rw [hbusy]
    split
    · obtain ⟨u, v, hu, hv, huv⟩ | ⟨hstop, hne⟩ := sameAnswer_cases (iteration_sameAnswer h)
      · rw [hu, hv]
        exact ih huv (by rw [huv.1])
      · rw [← hstop]
        cases hi : iteration s with
        | next u => exact absurd hi (hne u)
        | fault _ => exact rfl
        | refused _ => exact rfl
    · exact h

theorem whenIdle_sameAnswer {s t : State} {o p : Host.Outcome State Fault Refusal} (h : SameButStale s t)
    (ho : SameAnswer SameButStale o p) : SameAnswer SameButStale (whenIdle s o) (whenIdle t p) := by
  have hbusy : t.busy = s.busy := by rw [h.1]
  unfold whenIdle
  rw [hbusy]
  split
  · exact rfl
  · exact ho

theorem execDecodeChunk_sameAnswer (chunk : List Byte) {s t : State} (h : SameButStale s t) :
    SameAnswer SameButStale (execDecodeChunk chunk s) (execDecodeChunk chunk t) := by
  have hb := h.map (f := beginChunk chunk) (fun _ => rfl) rfl rfl
  have hf := h.map (f := reportFault) (fun _ => rfl) rfl rfl
  refine whenIdle_sameAnswer h ?_
  have hphase : t.phase = s.phase := by rw [h.1]
  have hfuel : enoughIterations (beginChunk chunk t) = enoughIterations (beginChunk chunk s) := by rw [h.1]; rfl
  rw [hphase, hfuel]
  split
  · exact hf
  · exact engineLoop_sameAnswer _ hb

/-- INIT and RESTORE clear the accumulator, and DECODE_CHUNK reads no stale bit. -/
theorem execCommand_sameAnswer (c : HostCommand) {s t : State} (h : SameButStale s t) :
    SameAnswer SameButStale (exec (decodeCommand c) s) (exec (decodeCommand c) t) := by
  unfold decodeCommand
  split
  · refine whenIdle_sameAnswer h ?_
    rw [h.1]
    exact .refl _
  · refine whenIdle_sameAnswer h ?_
    rw [h.1]
    exact .refl _
  · exact execDecodeChunk_sameAnswer c.chunk h
  · exact h

/-- Settles O42: `read_bits` sees the valid bits alone, nothing after it reads the accumulator, and the loop goes on from
states that differ in stale bits again. -/
theorem staleBitsAreInvisible : Obligations.StaleBitsAreInvisible := by
  intro s t h
  have hbusy : t.busy = s.busy := by rw [h.1]
  have hcommands : t.commands = s.commands := by rw [h.1]
  cases hb : s.busy with
  | true =>
    rw [step_busy hb, step_busy (hbusy.trans hb)]
    exact iteration_sameAnswer h
  | false =>
    cases hc : s.commands with
    | nil =>
      rw [step_no_command hb hc, step_no_command (hbusy.trans hb) (hcommands.trans hc)]
      exact h
    | cons c rest =>
      rw [step_command hb hc, step_command (hbusy.trans hb) (hcommands.trans hc)]
      exact execCommand_sameAnswer c (h.map (f := fun u => { u with commands := rest }) (fun _ => rfl) rfl rfl)

/-! ## The control codes -/

/-- Settles O5, by the definitions of the codes. -/
theorem controlCodes : Obligations.ControlCodes :=
  ⟨⟨rfl, rfl, rfl, rfl⟩, ⟨rfl, rfl, rfl, rfl⟩, rfl, rfl⟩

end Sys2Proof.Machine

/-! SUPPORT. The memories: which dictionary indices hold a value, and that every instruction keeps the scratch buffer's
canonical form and size. -/

namespace Sys2Proof.Machine

open Host.Outcome

/-! ## The entries that hold a value -/

/-- A learned index up to `max_code` holds a value where the list has it, and no index above `max_code` does
(`41_dictionary.md` R140). -/
theorem readEntry_learned_isSome {s : State} {i : Nat} (hi : 256 ≤ i) :
    (readEntry s i).isSome = true ↔ i ≤ s.maxCode.toNat ∧ i ∈ s.dict.map Prod.fst := by
  unfold readEntry
  rw [if_neg (by omega)]
  split
  · rename_i hle
    rw [memory_find_isSome]
    exact (and_iff_right hle).symm
  · rename_i hlt
    simp [hlt]

/-- Settles O9: the literals are hardwired, and a session lists exactly the indices `256..max_code`. -/
theorem entriesThatHoldAValue : Obligations.EntriesThatHoldAValue := by
  intro s h
  refine ⟨fun i hi => if_pos hi, fun i hi => ?_⟩
  rw [readEntry_learned_isSome hi, h.learned, List.mem_range'_1]
  omega

/-! ## The form of the scratch buffer -/

/-- The scratch buffer is in canonical form and within its size (`20_memory.md` R60). -/
def ScratchInForm (s : State) : Prop := Memory.wf s.scratch ∧ ∀ c ∈ s.scratch, c.1 < scratchSize s

/-- The form depends on the buffer and on the parameters alone. -/
theorem ScratchInForm.congr {s t : State} (h : ScratchInForm s) (hparams : t.params = s.params)
    (hscratch : t.scratch = s.scratch) : ScratchInForm t := by
  unfold ScratchInForm scratchSize
  rw [hparams, hscratch]
  exact h

/-- If the buffer has its form in the first state, it has it in the second. -/
def KeepsScratchForm (s t : State) : Prop := ScratchInForm s → ScratchInForm t

theorem resolveToBytes_keepsScratchForm (code : Code) (s : State) : KeepsScratchForm s (resolveToBytes code s).2 := by
  intro h
  have hparams := (resolveToBytes_keepsReading code s).1.1
  unfold ScratchInForm scratchSize
  rw [hparams]
  exact resolveToBytes_scratch code h

theorem deliver_keepsScratchForm (code : Code) (s : State) : BodyKeeps KeepsScratchForm s (deliver code s) := by
  have hk := resolveToBytes_keepsScratchForm code s
  unfold deliver
  split <;> rename_i u hu <;> rw [hu] at hk
  · exact ⟨_, u, hk, rfl⟩
  · exact hk

theorem addEntry_scratch (p : Code) (b : Byte) (s : State) : (addEntry p b s).2.scratch = s.scratch := by
  unfold addEntry
  split
  · rfl
  · split <;> rfl

theorem addEntry_keepsScratchForm (p : Code) (b : Byte) (s : State) : KeepsScratchForm s (addEntry p b s).2 :=
  fun h => h.congr (addEntry_keepsReading p b s).1.1 (addEntry_scratch p b s)

theorem completeWord_keepsScratchForm (code : Code) (s : State) : KeepsScratchForm s (completeWord code s) := by
  intro h
  rw [completeWord_frame]
  exact h.congr rfl rfl

theorem keepsScratchForm_keptByWords : KeptByWords KeepsScratchForm where
  trans := fun hst htu h => htu (hst h)
  deliver := deliver_keepsScratchForm
  add := addEntry_keepsScratchForm
  complete := completeWord_keepsScratchForm

/-- Executing a word, or NODATA, keeps the buffer's form. -/
theorem runWord_keepsScratchForm {w : ReadWord} {s t : State} (hr : runWord w s = next t) : KeepsScratchForm s t := by
  intro h
  by_cases hw : w = .noData
  · subst hw
    rw [execNoData_eq_next hr]
    split <;> exact h.congr rfl rfl
  · obtain ht | ⟨kind, u, hu, rfl⟩ := keepsScratchForm_keptByWords.runWord hw hr
    · exact ht h
    · exact (hu h).congr rfl rfl

theorem iteration_keepsScratchForm {s t : State} (hi : iteration s = next t) : KeepsScratchForm s t := by
  intro h
  unfold iteration at hi
  split at hi
  · cases hi
  · rename_i w u hr
    have hu : ScratchInForm u := by
      rw [(readWord_reads hr).1]
      exact h.congr rfl rfl
    exact runWord_keepsScratchForm hi hu

theorem execDecodeChunk_keepsScratchForm {chunk : List Byte} {s t : State} (hd : execDecodeChunk chunk s = next t) :
    KeepsScratchForm s t := by
  intro h
  obtain ⟨-, hd⟩ := whenIdle_eq_next hd
  split at hd
  · cases hd
    exact h.congr rfl rfl
  · exact engineLoop_induction (P := ScratchInForm) iteration_keepsScratchForm
      (h.congr (t := beginChunk chunk s) rfl rfl) hd

/-- `read_bits` writes the accumulator, the cursor and the count. -/
theorem readBits_frame {n : Nat} (hn : n ≤ 24) (s : State) :
    (readBits n s).2 =
      { s with acc := (readBits n s).2.acc, inPos := (readBits n s).2.inPos, bitCount := (readBits n s).2.bitCount } := by
  obtain ⟨_, t, ht, -, -, -, -, hframe, -⟩ | ⟨t, ht, -, -, -, hframe⟩ := readBits_spec n hn s <;> rw [ht, hframe]

theorem execReadBits_keepsScratchForm {n : Nat} {s t : State} (hr : execReadBits n s = next t) : KeepsScratchForm s t := by
  intro h
  unfold execReadBits at hr
  split at hr
  · cases hr
  · rename_i hn
    cases hr
    rw [readBits_frame (Nat.le_of_not_lt hn)]
    exact h.congr rfl rfl

/-- Settles O53: the chain walk writes the buffer inside its size and in canonical form, and nothing else writes it. -/
theorem scratchKeepsItsForm : Obligations.ScratchKeepsItsForm := by
  intro i s t hwf hsize he
  have h : ScratchInForm s := ⟨hwf, hsize⟩
  show ScratchInForm t
  cases i with
  | init =>
    obtain ⟨-, he⟩ := whenIdle_eq_next he
    cases he
    exact h.congr rfl rfl
  | restore entries =>
    obtain ⟨-, he⟩ := whenIdle_eq_next he
    cases he
    split <;> exact h.congr rfl rfl
  | decodeChunk chunk => exact execDecodeChunk_keepsScratchForm he h
  | reservedCmd3 => cases he; exact h
  | first code => exact runWord_keepsScratchForm (w := .first code) he h
  | known code => exact runWord_keepsScratchForm (w := .known code) he h
  | next code => exact runWord_keepsScratchForm (w := .next code) he h
  | string code => exact runWord_keepsScratchForm (w := .string code) he h
  | invalid code => exact runWord_keepsScratchForm (w := .invalid code) he h
  | noData => exact runWord_keepsScratchForm (w := .noData) he h
  | readBits n => exact execReadBits_keepsScratchForm he h
  | resolveToBytes code =>
    cases he
    exact (resolveToBytes_keepsScratchForm code s h).congr rfl rfl
  | add p b =>
    cases he
    exact (addEntry_keepsScratchForm p b s h).congr rfl rfl
  | reset =>
    cases he
    exact h.congr rfl rfl
  | emit run =>
    simp only [exec, execEmit] at he
    split at he
    · cases he
    · cases he
      exact h.congr rfl rfl

end Sys2Proof.Machine

/-! SUPPORT. The two encodings: the class of a word in numbers, decode of encode, and the words of a stream as step 1 reads
them. -/

namespace Sys2Proof

/-! ## The class of a word -/

theorem classify_of_le {r : ClassRegs} {c : Code} (hc : c.toNat ≤ r.maxCode.toNat) :
    classify r c =
      if r.mode = .stringOnly then .string c else if r.prevCode = r.noCode then .first c else .known c := by
  rw [classify, if_pos hc]
  cases r.mode <;> rfl

theorem classify_of_eq_succ {r : ClassRegs} {c : Code} (hc : c.toNat = r.maxCode.toNat + 1) :
    classify r c = if r.mode = .grow ∧ r.prevCode ≠ r.noCode then .next c else .invalid c := by
  rw [classify, if_neg (by omega)]
  simp [hc]

theorem classify_of_above {r : ClassRegs} {c : Code} (hc : r.maxCode.toNat + 1 < c.toNat) :
    classify r c = .invalid c := by
  rw [classify, if_neg (by omega), if_neg fun h => by omega]

/-- Settles O3: a code is at most `max_code`, or one above it, or further above, and the mode and the previous code do the
rest. -/
theorem wordClassByRegisters : Obligations.WordClassByRegisters := by
  intro r c
  obtain hc | hc | hc : c.toNat ≤ r.maxCode.toNat ∨ c.toNat = r.maxCode.toNat + 1 ∨ r.maxCode.toNat + 1 < c.toNat := by
    omega
  · have h1 : c.toNat ≠ r.maxCode.toNat + 1 := by omega
    have h2 : ¬ r.maxCode.toNat + 1 < c.toNat := by omega
    rw [classify_of_le hc]
    cases r.mode <;> by_cases hp : r.prevCode = r.noCode <;> simp [hc, h1, h2, hp]
  · rw [classify_of_eq_succ hc]
    cases r.mode <;> by_cases hp : r.prevCode = r.noCode <;> simp [hc, hp]
  · have h1 : ¬ c.toNat ≤ r.maxCode.toNat := by omega
    have h2 : c.toNat ≠ r.maxCode.toNat + 1 := by omega
    simp [classify_of_above hc, hc, h1, h2]

/-! ## Decode and encode -/

/-- A word in its class is encoded as its code's bits. -/
theorem encode_classify (w : Nat) (r : ClassRegs) (code : Code) :
    encode w (classify r code).instr = .word (wordBits w code.toNat) := by
  obtain ⟨h, -⟩ | ⟨h, -⟩ | ⟨h, -⟩ | ⟨h, -⟩ | h := Machine.classify_cases r code <;> rw [h] <;> rfl

theorem decode_wordBits (r : ClassRegs) {w : Nat} {code : Code} (h : code.toNat < 2 ^ w) :
    decode r (.word (wordBits w code.toNat)) = some (classify r code).instr := by
  rw [decode, bitsValue_wordBits, Nat.mod_eq_of_lt h, BitVec.ofNat_toNat, BitVec.setWidth_eq]

/-- The number of a bit string that `read_bits` takes is a code. -/
theorem toNat_ofNat_bitsValue {bits : List Bool} (h : bits.length ≤ 24) :
    (BitVec.ofNat 25 (bitsValue bits)).toNat = bitsValue bits := by
  rw [BitVec.toNat_ofNat]
  refine Nat.mod_eq_of_lt ((bitsValue_lt bits).trans_le (Nat.pow_le_pow_right ?_ ?_)) <;> omega

/-- A decoded word has the bits of its encoding. -/
theorem encode_of_decode_word {r : ClassRegs} {bits : List Bool} {i : Instr} (hw : bits.length ≤ 24)
    (h : decode r (.word bits) = some i) : encode bits.length i = .word bits := by
  obtain rfl := Option.some.inj h
  rw [encode_classify, toNat_ofNat_bitsValue hw, wordBits_bitsValue]

/-- Settles O2: a command keeps its code and operands, a word in its class is its code's bits, and these determine each
other. -/
theorem decodeEncodeAgree : Obligations.DecodeEncodeAgree := by
  intro r w _ hw
  refine ⟨?_, fun code hcode => ?_, ?_, fun i hi => by rw [hi]; rfl⟩
  · rintro i (rfl | ⟨entries, rfl⟩ | ⟨chunk, rfl⟩ | rfl) <;> rfl
  · rw [encode_classify, decode_wordBits r hcode]
  · rintro bits i rfl hi
    exact encode_of_decode_word hw hi

/-- Settles O1: each code, word and stream of the sample, evaluated. -/
theorem sampleWordsDecode : Obligations.SampleWordsDecode := by
  unfold Obligations.SampleWordsDecode
  decide

end Sys2Proof

namespace Sys2Proof.Machine

open Host.Outcome

/-! ## The words of a stream -/

theorem wordsBits_cons (x : CodeWord) (rest : List CodeWord) :
    wordsBits (x :: rest) = wordBits x.width x.value ++ wordsBits rest := rfl

/-- Step 1 on a stream that begins with a word of the width it reads: the word's value in its class, and what follows
the word left to be read. -/
theorem readWord_of_stream {s : State} {v : Nat} {bits : List Bool} (hw : s.codeWidth.toNat ≤ maxWidth)
    (hv : v < 2 ^ s.codeWidth.toNat)
    (hs : validBits s ++ streamBits (unreadBytes s) = wordBits s.codeWidth.toNat v ++ bits) :
    ∃ t, readWord s = some (classify (classRegs s) (BitVec.ofNat 25 v), t) ∧
      validBits t ++ streamBits (unreadBytes t) = bits ∧
      t = { s with acc := t.acc, bitCount := t.bitCount, inPos := t.inPos } := by
  obtain ⟨hlt, -⟩ | ⟨-, hread⟩ := readWord_spec s
  · omega
  obtain ⟨code, t, ht, -, hcode, hleft, -, hframe, -⟩ | ⟨t, -, hshort, -⟩ := readBits_spec s.codeWidth.toNat hw s
  · have hval : code = BitVec.ofNat 25 v := by
      rw [hs, List.take_left' (wordBits_length _ _), bitsValue_wordBits, Nat.mod_eq_of_lt hv] at hcode
      rw [← hcode, BitVec.ofNat_toNat, BitVec.setWidth_eq]
    obtain ⟨code', t', ht', hr⟩ | ⟨t', ht', -⟩ := hread <;> cases ht.symm.trans ht'
    have hregs : classRegs t = classRegs s := by rw [hframe]; rfl
    refine ⟨t, by rw [hr, hregs, hval], ?_, by rw [hframe]⟩
    rw [hleft, hs, List.drop_left' (wordBits_length _ _)]
  · rw [hs, List.length_append, wordBits_length] at hshort
    omega

/-- Settles O4: the stream ahead begins with the first word's bits, and packing appends zero bits alone. -/
theorem packedWordIsFetched : Obligations.PackedWordIsFetched := by
  constructor
  · intro s x rest more _ hw hv hwidth hs
    rw [wordsBits_cons, List.append_assoc, ← hwidth] at hs
    obtain ⟨t, hread, hleft, hframe⟩ := readWord_of_stream (hwidth ▸ hw) (hwidth ▸ hv) hs
    exact ⟨t, hread, hleft, hframe, fun hb => step_word hb hread⟩
  · intro words
    obtain ⟨pad, hpad, hbits⟩ := streamBits_packBits (wordsBits words) 0 0 (by decide) (by decide)
    exact ⟨pad, hpad, by rw [pack, hbits]; rfl⟩

/-! ## Instructions that a state gives no meaning -/

theorem whenClass_other {w : ReadWord} {code : Code} {s : State} (t : State) (h : classify (classRegs s) code ≠ w) :
    whenClass w code s t = refused .notOfThisClass := if_neg h

/-- Settles O25: each class rule asks first for its class, and NODATA for an exhausted chunk with too few bits buffered. -/
theorem wordOfAnotherClassStops : Obligations.WordOfAnotherClassStops := by
  intro w code s
  constructor
  · rintro (rfl | rfl | rfl | rfl | rfl) h <;> exact whenClass_other _ h
  · intro h
    refine if_neg fun hout => ?_
    obtain ⟨hnone, hcount⟩ := (outOfData_iff _ s).1 hout
    exact h.elim (fun hne => hne hnone) (fun hle => by omega)

/-- Settles O35: the reserved code is a step to the same state, and a busy block takes no command. -/
theorem commandsWhileBusy : Obligations.CommandsWhileBusy :=
  fun _ _ _ => ⟨rfl, fun hb => ⟨whenIdle_busy hb _, whenIdle_busy hb _, whenIdle_busy hb _⟩⟩

end Sys2Proof.Machine

/-! SUPPORT. The words of a Grow-mode epoch: what a completed word leaves in the registers of the next one, and the first
word of an epoch. -/

namespace Sys2Proof.Machine

open Host.Outcome

/-! ## A class rule that raises nothing -/

theorem bind_eq_ok {x : Except State State} {f : State → Except State State} {t : State} (h : (x >>= f) = .ok t) :
    ∃ u, x = .ok u ∧ f u = .ok t := by
  cases x with
  | ok u => exact ⟨u, rfl, h⟩
  | error u => cases h

/-- A word that leaves the command going on has completed its class rule. -/
theorem whenClass_busy {w : ReadWord} {code : Code} {s t : State} {x : Except State State}
    (hx : BodyKeeps KeepsReading s x) (h : whenClass w code s (settled x) = next t) (hb : t.busy = true) : x = .ok t := by
  obtain rfl := whenClass_eq_next h
  cases x with
  | ok u => rfl
  | error u =>
    obtain ⟨kind, v, -, rfl⟩ := hx
    simp [settled] at hb

/-- Delivering a string writes the sink, `first_char` and the scratch buffer. -/
theorem deliver_eq_ok {code : Code} {s t : State} (h : deliver code s = .ok t) :
    t = { s with out := t.out, firstChar := t.firstChar, scratch := t.scratch } := by
  unfold deliver at h
  split at h <;> cases h
  rename_i u hu
  rw [resolveToBytes_eq] at hu
  obtain rfl := congrArg Prod.snd hu
  rfl

/-- In a session the deferred add has room, and writes the new entry and `max_code`. -/
theorem addDeferred_eq_ok {s t : State} (h : addDeferred s = .ok t) (hr : InRange s) (hp : s.prevCode ≠ noCode s)
    (hroom : s.maxCode.toNat + 1 < s.params.capacity) :
    t = { s with maxCode := t.maxCode, dict := t.dict } ∧ t.maxCode.toNat = s.maxCode.toNat + 1 := by
  obtain ⟨u, hu, hmax, hframe, -⟩ := addDeferred_room hr hp hroom
  cases hu.symm.trans h
  exact ⟨by rw [hframe], hmax⟩

/-! ## Steps 4 to 6 of a word -/

/-- `max_code` after the class rule of a Grow word: one entry more, but none for the first word of an epoch
(`42_decode_engine.md` R188). -/
def maxAfterWord (s : State) : Nat := if s.prevCode = noCode s then s.maxCode.toNat else s.maxCode.toNat + 1

theorem maxAfterWord_of_fresh {s : State} (hp : s.prevCode = noCode s) : maxAfterWord s = s.maxCode.toNat := if_pos hp

theorem maxAfterWord_of_prev {s : State} (hp : s.prevCode ≠ noCode s) : maxAfterWord s = s.maxCode.toNat + 1 := if_neg hp

/-- Steps 4 to 6 act on the parameters, the mode and the width that the word was read with. -/
theorem completeWord_growStepsDone (code : Code) {s u : State} (hm : s.mode = .grow)
    (hu : u.params = s.params ∧ u.mode = s.mode ∧ u.codeWidth = s.codeWidth) :
    GrowStepsDone code u.maxCode.toNat s (completeWord code u) := by
  obtain ⟨hparams, hmode, hwidth⟩ := hu
  have h := (completeWord_grow code (hmode.trans hm)).1
  unfold GrowStepsDone at h ⊢
  rwa [hparams, hwidth, noCode_congr hparams] at h

theorem firstBody_growSteps {code : Code} {s t : State} (hm : s.mode = .grow) (h : firstBody code s = .ok t) :
    GrowStepsDone code s.maxCode.toNat s t := by
  obtain ⟨u, hu, ht⟩ := bind_eq_ok h
  rw [addEntry_noCode] at ht
  cases ht
  have hframe := deliver_eq_ok hu
  have hdone := completeWord_growStepsDone code hm (u := u) (by rw [hframe]; exact ⟨rfl, rfl, rfl⟩)
  rwa [show u.maxCode = s.maxCode by rw [hframe]] at hdone

theorem knownBody_growSteps {code : Code} {s t : State} (hr : InRange s) (hg : GrowInv s) (hm : s.mode = .grow)
    (hp : s.prevCode ≠ noCode s) (h : knownBody code s = .ok t) :
    GrowStepsDone code (s.maxCode.toNat + 1) s t := by
  obtain ⟨u, hu, h⟩ := bind_eq_ok h
  obtain ⟨v, hv, ht⟩ := bind_eq_ok h
  cases ht
  obtain ⟨out, first, scratch, rfl⟩ : ∃ out first scratch,
      u = { s with out := out, firstChar := first, scratch := scratch } := ⟨_, _, _, deliver_eq_ok hu⟩
  obtain ⟨hframe, hmax⟩ := addDeferred_eq_ok hv (hr.congr rfl rfl rfl rfl) hp hg.room
  have hdone := completeWord_growStepsDone code hm (u := v) (by rw [hframe]; exact ⟨rfl, rfl, rfl⟩)
  rwa [hmax] at hdone

theorem nextBody_growSteps {code : Code} {s t : State} (hr : InRange s) (hg : GrowInv s) (hm : s.mode = .grow)
    (hp : s.prevCode ≠ noCode s) (h : nextBody code s = .ok t) :
    GrowStepsDone code (s.maxCode.toNat + 1) s t := by
  obtain ⟨u, hu, h⟩ := bind_eq_ok h
  obtain ⟨v, hv, ht⟩ := bind_eq_ok h
  cases ht
  obtain ⟨hadd, hmax⟩ := addDeferred_eq_ok hu hr hp hg.room
  have hframe := deliver_eq_ok hv
  have hdone := completeWord_growStepsDone code hm (u := v) (by rw [hframe, hadd]; exact ⟨rfl, rfl, rfl⟩)
  rwa [show v.maxCode = u.maxCode by rw [hframe], hmax] at hdone

/-- A Grow word that leaves the command going on: a code that has an entry by then, and steps 4 to 6 done. -/
theorem runWord_growSteps {code : Code} {s t : State} (h : runWord (classify (classRegs s) code) s = next t)
    (hb : t.busy = true) (hr : InRange s) (hg : GrowInv s) (hm : s.mode = .grow) :
    code.toNat ≤ maxAfterWord s ∧ GrowStepsDone code (maxAfterWord s) s t := by
  have hk := keepsReading_keptByWords
  obtain ⟨-, -, hmode⟩ | ⟨hw, hc, -, hp⟩ | ⟨hw, hc, -, hp⟩ | ⟨hw, hc, -, hp⟩ | hw := classify_cases (classRegs s) code
  · cases hm.symm.trans hmode
  all_goals rw [hw] at h
  · rw [maxAfterWord_of_fresh hp]
    exact ⟨hc, firstBody_growSteps hm (whenClass_busy (hk.firstBody code s) h hb)⟩
  · rw [maxAfterWord_of_prev hp]
    exact ⟨Nat.le_succ_of_le hc, knownBody_growSteps hr hg hm hp (whenClass_busy (hk.knownBody code s) h hb)⟩
  · rw [maxAfterWord_of_prev hp]
    exact ⟨hc.le, nextBody_growSteps hr hg hm hp (whenClass_busy (hk.nextBody code s) h hb)⟩
  · rw [whenClass_eq_next h] at hb
    simp at hb

/-- A word read is below two to its width (`30_encoding.md` R91). -/
theorem readBits_code_lt {n : Nat} (hn : n ≤ 24) {s t : State} {code : Code} (h : readBits n s = (.code code, t)) :
    code.toNat < 2 ^ n := by
  obtain ⟨_, u, hu, hle, hcode, -⟩ | ⟨u, hu, -⟩ := readBits_spec n hn s <;> cases hu.symm.trans h
  have hlen := List.length_take_of_le hle
  have hlt := bitsValue_lt ((validBits s ++ streamBits (unreadBytes s)).take n)
  rwa [hlen, ← hcode] at hlt

/-- Everything an iteration runs: the word read, in its class, or NODATA. -/
theorem iteration_eq_next {s t : State} (h : iteration s = next t) :
    ∃ u, u = { s with acc := u.acc, inPos := u.inPos, bitCount := u.bitCount } ∧
      ((∃ code : Code, code.toNat < 2 ^ s.codeWidth.toNat ∧ runWord (classify (classRegs u) code) u = next t) ∨
        execNoData u = next t) := by
  unfold iteration at h
  obtain ⟨-, hr⟩ | ⟨hw, ⟨code, u, hbits, hr⟩ | ⟨u, -, hr⟩⟩ := readWord_spec s <;> rw [hr] at h
  · cases h
  · exact ⟨u, (readWord_reads hr).1, .inl ⟨code, readBits_code_lt hw hbits, h⟩⟩
  · exact ⟨u, (readWord_reads hr).1, .inr h⟩

/-- A completed iteration of a Grow session: steps 4 to 6 done, over the registers the iteration started with. -/
theorem iteration_growSteps {s t : State} (h : SessionInv s) (hm : s.mode = .grow) (hi : iteration s = next t)
    (hb : t.busy = true) : ∃ code, code.toNat ≤ maxAfterWord s ∧ GrowStepsDone code (maxAfterWord s) s t := by
  obtain ⟨u, hframe, ⟨code, -, hrun⟩ | hnone⟩ := iteration_eq_next hi
  · obtain ⟨acc, inPos, count, rfl⟩ : ∃ acc inPos count,
        u = { s with acc := acc, inPos := inPos, bitCount := count } := ⟨_, _, _, hframe⟩
    have hdone := runWord_growSteps hrun hb (h.ranges.congr rfl rfl rfl rfl)
      ((h.grow hm).congr rfl rfl rfl rfl rfl rfl) hm
    exact ⟨code, hdone⟩
  · rw [execNoData_eq_next hnone] at hb
    split at hb <;> simp at hb

/-! ## The width schedule -/

theorem SessionInv.width_eq {s : State} (h : SessionInv s) (hm : s.mode = .grow) :
    s.codeWidth.toNat = if s.prevCode = noCode s then 8 else Nat.log2 (s.maxCode.toNat + 1) + 1 := by
  have hg := h.grow hm
  split
  · rename_i hp
    rw [(hg.fresh hp).2]
    rfl
  · rename_i hp
    obtain ⟨h9, hlo, hhi⟩ := hg.width hp
    have hw : s.codeWidth.toNat - 1 + 1 = s.codeWidth.toNat := by omega
    rw [(Nat.log2_eq_iff (Nat.succ_ne_zero _)).2 ⟨hlo, hw.symm ▸ hhi⟩, hw]

theorem epochWord_of_fresh {s : State} (hp : s.prevCode = noCode s) : epochWord s = 1 := if_pos hp

theorem epochWord_of_prev {s : State} (hp : s.prevCode ≠ noCode s) : epochWord s = s.maxCode.toNat + 1 - 254 := if_neg hp

/-- The class rule of word `k` leaves `max_code` at `254 + k`. -/
theorem SessionInv.maxAfterWord_eq {s : State} (h : SessionInv s) (hm : s.mode = .grow) :
    maxAfterWord s = 254 + epochWord s := by
  have hge := h.ranges.max_ge
  unfold maxAfterWord
  split
  · rename_i hp
    rw [epochWord_of_fresh hp, ((h.grow hm).fresh hp).1]
    rfl
  · rename_i hp
    rw [epochWord_of_prev hp]
    omega

/-- An iteration that completes goes on to the next word of the epoch, or to word 1 of a new one. -/
theorem iteration_epochWord {s t : State} (h : SessionInv s) (hm : s.mode = .grow) (hi : iteration s = next t)
    (hb : t.busy = true) : epochWord t = if epochWord s = s.params.capacity - 255 then 1 else epochWord s + 1 := by
  obtain ⟨code, hcode, hdone⟩ := iteration_growSteps h hm hi hb
  have hcap := h.ranges.params.1
  have hnoCode := noCode_toNat h.ranges.params
  have hparams : noCode t = noCode s := noCode_congr (iteration_sameQueue hi).1
  have hmax := h.maxAfterWord_eq hm
  have hlt : maxAfterWord s < s.params.capacity := by
    have := (h.grow hm).room
    unfold maxAfterWord
    split <;> omega
  unfold GrowStepsDone at hdone
  split at hdone
  · obtain ⟨hprev, -⟩ := hdone
    rw [if_pos (by omega), epochWord_of_fresh (hprev.trans hparams.symm)]
  · obtain ⟨hprev, -, hmaxt, -⟩ := hdone
    have hne : t.prevCode ≠ noCode t := by
      rw [hprev, hparams]
      rintro rfl
      omega
    rw [if_neg (by omega), epochWord_of_prev hne]
    omega

/-- An iteration keeps the mode. -/
theorem iteration_mode {s t : State} (hi : iteration s = next t) : t.mode = s.mode := by
  obtain ⟨w, u, hr, hcases⟩ := iteration_cases keepsReading_keptByWords hi
  have hu : u.mode = s.mode := by rw [(readWord_reads hr).1]
  have hword {v} (hv : KeepsReading u v) : v.mode = s.mode := by
    obtain ⟨⟨-, -, -, -, hmode, -⟩, -⟩ := hv
    exact hmode.trans hu
  obtain ⟨-, hv | ⟨kind, v, hv, rfl⟩⟩ | ⟨-, rfl⟩ := hcases
  · exact hword hv
  · exact (raise_mode kind v).trans (hword hv)
  · split <;> exact hu

/-- Settles O44: the width and the first clause are the invariant's in the state a step leaves, and the word's number
follows from what an iteration leaves in `prev_code` and `max_code`. -/
theorem widthFollowsMaxCode : Obligations.WidthFollowsMaxCode := by
  intro s t h hs hm
  have ht := stepKeepsInvariant s t h hs
  refine ⟨ht.width_eq hm, fun hp => ((ht.grow hm).fresh hp).1, fun hb htb => ?_⟩
  rw [step_busy hb] at hs
  exact iteration_epochWord h ((iteration_mode hs).symm.trans hm) hs htb

/-! ## The first word of an epoch -/

theorem InRange.literal_ne_noCode {s : State} (h : InRange s) {code : Code} (hc : code.toNat ≤ 255) :
    code ≠ noCode s := by
  rintro rfl
  rw [noCode_toNat h.params] at hc
  have := h.params.1
  omega

/-- The string of a literal code is its byte. -/
theorem stringOf_literal {s : State} (hr : InRange s) {code : Code} (hc : code.toNat ≤ 255) :
    stringOf s code = some [BitVec.ofNat 8 code.toNat] := by
  have hcap := hr.params.1
  obtain ⟨k, hk⟩ : ∃ k, scratchSize s = k + 1 := Nat.exists_eq_add_one.2 (by unfold scratchSize; omega)
  rw [stringOf, hk, chainBytes, if_neg (hr.literal_ne_noCode hc), readEntry, if_pos hc]
  simp [chainBytes_noCode]

/-- What the first word of an epoch leaves: its byte emitted and remembered as the previous code, nothing learned, and the
width of the second word (`30_encoding.md` R95, R98). -/
structure LiteralEmitted (s t : State) : Prop where
  busy : t.busy = s.busy
  max : t.maxCode = 255
  out : t.out = s.out ++ [[t.firstChar]]
  prev : t.prevCode = t.firstChar.setWidth 25
  width : t.codeWidth = 9

theorem firstBody_literal {s : State} {code : Code} (hr : InRange s) (hm : s.mode = .grow) (hmax : s.maxCode = 255)
    (hwidth : s.codeWidth = 8) (hc : code.toNat ≤ 255) : ∃ t, firstBody code s = .ok t ∧ LiteralEmitted s t := by
  have hdeliver := deliver_spec code s (hr.literal_ne_noCode hc)
  rw [stringOf_literal hr hc] at hdeliver
  obtain ⟨u, hu, ⟨hout, hfirst, -⟩, hframe⟩ := hdeliver
  have hbody : firstBody code s = .ok (completeWord code u) := by
    rw [firstBody, hu]
    exact congrArg (Except.ok ∘ completeWord code) (congrArg Prod.snd (addEntry_noCode u.firstChar u))
  have hroom : s.maxCode.toNat + 1 ≠ s.params.capacity := by
    have := hr.params.1
    simp [hmax]
    omega
  have hdone := firstBody_growSteps hm hbody
  rw [GrowStepsDone, if_neg hroom] at hdone
  obtain ⟨hprev, -, hmaxt, hwidtht⟩ := hdone
  have hbyte : (completeWord code u).firstChar = BitVec.ofNat 8 code.toNat := by
    rw [completeWord_frame]
    exact (Option.some.inj hfirst).symm
  exact ⟨completeWord code u, hbody, {
    busy := by rw [completeWord_frame, hframe]
    max := BitVec.eq_of_toNat_eq (by rw [hmaxt, hmax])
    out := by rw [hbyte, completeWord_frame]; exact hout
    prev := BitVec.eq_of_toNat_eq (by rw [hprev, hbyte]; simp; omega)
    width := BitVec.eq_of_toNat_eq (by rw [hwidtht, hmax, hwidth]; rfl) }⟩

/-- A code of 8 bits at the start of an epoch is of class FIRST. -/
theorem runWord_literal {s : State} {code : Code} (hr : InRange s) (hm : s.mode = .grow) (hp : s.prevCode = noCode s)
    (hmax : s.maxCode = 255) (hwidth : s.codeWidth = 8) (hc : code.toNat ≤ 255) :
    ∃ t, runWord (classify (classRegs s) code) s = next t ∧ LiteralEmitted s t := by
  have hle : code.toNat ≤ (classRegs s).maxCode.toNat := hc.trans hr.max_ge
  have hclass : classify (classRegs s) code = .first code := by
    rw [classify_of_le hle, if_neg (by simp [classRegs, hm])]
    exact if_pos hp
  obtain ⟨t, ht, hlit⟩ := firstBody_literal hr hm hmax hwidth hc
  refine ⟨t, ?_, hlit⟩
  rw [hclass]
  exact (if_pos hclass).trans (by rw [ht]; rfl)

/-- Settles O45: 8 bits are a literal code, and a chunk that ends first leaves the dictionary and the sink alone. -/
theorem firstWordIsALiteral : Obligations.FirstWordIsALiteral := by
  intro s h hm hb hp
  obtain ⟨hmax, hwidth⟩ := (h.grow hm).fresh hp
  obtain ⟨t, ht⟩ := iteration_answers h.ranges.width_le
  refine ⟨hmax, hwidth, t, (step_busy hb).trans ht, ?_⟩
  obtain ⟨u, hframe, hcases⟩ := iteration_eq_next ht
  obtain ⟨acc, inPos, count, rfl⟩ : ∃ acc inPos count,
      u = { s with acc := acc, inPos := inPos, bitCount := count } := ⟨_, _, _, hframe⟩
  obtain ⟨code, hlt, hrun⟩ | hnone := hcases
  · have hc : code.toNat ≤ 255 := by
      rw [hwidth] at hlt
      exact Nat.le_of_lt_succ hlt
    obtain ⟨t', ht', hlit⟩ := runWord_literal (s := { s with acc := acc, inPos := inPos, bitCount := count })
      (h.ranges.congr rfl rfl rfl rfl) hm hp hmax hwidth hc
    cases hrun.symm.trans ht'
    have htb : t.busy = true := hlit.busy.trans hb
    exact ⟨hlit.max, fun _ => ⟨hlit.out, hlit.prev, hlit.width⟩, fun hf => by simp [htb] at hf⟩
  · rw [execNoData_eq_next hnone]
    have hfault := h.fault_of_busy hb
    split <;> simp [hmax, hp, hwidth, hfault]

end Sys2Proof.Machine

/-! SUPPORT. `read_bits` executed by itself: what it answers at a length within its contract, and the calls that take no
byte of the chunk. -/

namespace Sys2Proof.Machine

open Host.Outcome

/-! ## The answer of the instruction -/

/-- Within its contract the instruction leaves what `read_bits` leaves, and the result in the model's own field. -/
theorem exec_readBits {n : Nat} (hn : n ≤ 24) (s : State) :
    exec (.readBits n) s = next { (readBits n s).2 with returned := (readBits n s).1.returned } :=
  if_neg (Nat.not_lt_of_le hn)

theorem exec_readBits_tooWide {n : Nat} (hn : 24 < n) (s : State) :
    exec (.readBits n) s = refused .readBitsTooWide := if_pos hn

/-! ## The calls that take no byte -/

/-- Where the accumulator holds the bits asked for, they are taken from it alone (`40_bit_reader.md` R125 (d)). -/
theorem readBits_of_buffered {n : Nat} {s : State} (hn : n ≤ 24) (h : n ≤ s.bitCount.toNat) :
    readBits n s = (.code (BitVec.ofNat 25 (bitsValue ((validBits s).take n))),
      { s with bitCount := BitVec.ofNat 5 (s.bitCount.toNat - n) }) := by
  have hneeded : bytesNeeded n s = 0 := by unfold bytesNeeded; omega
  rw [readBits_eq n hn, hneeded, if_pos (Nat.zero_le _), List.take_zero, shiftAll_nil, ← (takeBits_spec n s h hn).1,
    BitVec.ofNat_toNat, BitVec.setWidth_eq]
  rfl

/-- Where the chunk is exhausted and too few bits are buffered, nothing changes (`40_bit_reader.md` R125 (c)). -/
theorem readBits_of_exhausted {n : Nat} {s : State} (hn : n ≤ 24) (h : s.bitCount.toNat < n)
    (hunread : unreadBytes s = []) : readBits n s = (.noData, s) := by
  have hneeded : ¬ bytesNeeded n s ≤ 0 := by unfold bytesNeeded; omega
  rw [readBits_eq n hn, hunread, List.length_nil, if_neg hneeded, shiftAll_nil]

theorem exec_readBits_of_buffered {n : Nat} {s : State} (hn : n ≤ 24) (h : n ≤ s.bitCount.toNat) :
    exec (.readBits n) s = next { s with
      bitCount := BitVec.ofNat 5 (s.bitCount.toNat - n),
      returned := .code (BitVec.ofNat 25 (bitsValue ((validBits s).take n))) } := by
  rw [exec_readBits hn, readBits_of_buffered hn h]
  rfl

/-! ## The statements -/

/-- Settles O6: the two results of `read_bits` are told apart by the number of bits ahead. -/
theorem readBitsReadsTheStream : Obligations.ReadBitsReadsTheStream := by
  intro n s hn hcursor
  refine ⟨_, exec_readBits hn s, ?_⟩
  obtain ⟨code, t, ht, hle, hcode, hleft, -, hframe, -⟩ | ⟨t, ht, hlt, hvalid, -, hframe⟩ := readBits_spec n hn s
  · rw [ht, if_pos hle, ← hcode, BitVec.ofNat_toNat, BitVec.setWidth_eq]
    exact ⟨by rw [hframe], rfl, hleft⟩
  · rw [ht, if_neg (Nat.not_le_of_lt hlt)]
    refine ⟨by rw [hframe], rfl, hvalid, ?_⟩
    rw [hframe]
    show s.inPos + (s.chunk.drop s.inPos).length = _
    rw [List.length_drop, Nat.add_sub_of_le hcursor]

/-- Settles O7: the bytes needed are in the chunk exactly where the bits ahead are enough. -/
theorem readBitsTakesBytesItNeeds : Obligations.ReadBitsTakesBytesItNeeds := by
  intro n s hn
  refine ⟨_, exec_readBits hn s, ?_⟩
  intro needed
  rw [show needed = bytesNeeded n s from rfl]
  obtain ⟨code, t, ht, -, -, -, hcount, hframe, hbytes⟩ | ⟨t, ht, hlt, -, hcount, hframe⟩ := readBits_spec n hn s
  · rw [ht, if_pos hbytes]
    refine ⟨by rw [hframe], hcount, fun hshort => hcount.trans_le ?_⟩
    unfold bytesNeeded
    omega
  · rw [streamAhead_length, bitsLeft] at hlt
    have hbytes : ¬ bytesNeeded n s ≤ (unreadBytes s).length := by unfold bytesNeeded; omega
    rw [ht, if_neg hbytes]
    exact ⟨by rw [hframe], hcount, hcount.trans_lt (by omega)⟩

/-- Settles O8: no bits, or no more than the accumulator holds, come from it alone; the widths of a session are those of
its invariant. -/
theorem readBitsCorners : Obligations.ReadBitsCorners := by
  intro n s
  refine ⟨?_, fun hn => exec_readBits_tooWide hn s, fun hn hshort hchunk _ => ?_, exec_readBits_of_buffered, fun h => ?_⟩
  · rw [exec_readBits_of_buffered (Nat.zero_le _) (Nat.zero_le _), Nat.sub_zero, BitVec.ofNat_toNat, BitVec.setWidth_eq]
    rfl
  · have hunread : unreadBytes s = [] := by rw [unreadBytes, hchunk, List.drop_nil]
    rw [exec_readBits hn, readBits_of_exhausted hn hshort hunread]
    rfl
  · have hmin : 8 ≤ s.codeWidth.toNat := h.ranges.width_ge
    exact ⟨by omega, h.ranges.width_le⟩

end Sys2Proof.Machine

/-! SUPPORT. The Dictionary's operations executed by themselves: what each leaves in every state, which chains have no
string, and the strings of a Grow-mode session. -/

namespace Sys2Proof.Machine

open Host.Outcome

/-! ## `resolve_to_bytes` -/

theorem exec_resolveToBytes (code : Code) (s : State) :
    exec (.resolveToBytes code) s =
      next { (resolveToBytes code s).2 with returned := resolvedReturned (resolveToBytes code s).1 } := rfl

/-- Where the chain has a string, the instruction leaves where it stands, and writes the scratch buffer alone. -/
theorem exec_resolveToBytes_of_string {code : Code} {s : State} {bytes : List Byte} (h : stringOf s code = some bytes) :
    exec (.resolveToBytes code) s = next { s with
      scratch := (resolveToBytes code s).2.scratch,
      returned := .string (scratchSize s - bytes.length) bytes.length } := by
  have hspec := resolveToBytes_spec code s
  simp only [h] at hspec
  obtain ⟨hfound, hframe, -⟩ := hspec
  rw [exec_resolveToBytes, hfound, hframe]
  rfl

/-- Where the chain has no string, the instruction fails, and writes the scratch buffer alone. -/
theorem exec_resolveToBytes_of_noString {code : Code} {s : State} (h : stringOf s code = none) :
    exec (.resolveToBytes code) s =
      next { s with scratch := (resolveToBytes code s).2.scratch, returned := .fail } := by
  have hspec := resolveToBytes_spec code s
  simp only [h] at hspec
  obtain ⟨hfail, hframe⟩ := hspec
  rw [exec_resolveToBytes, hfail, hframe]
  rfl

theorem resolveToBytes_scratchHolds {code : Code} {s : State} {bytes : List Byte} (h : stringOf s code = some bytes) :
    ScratchHolds bytes s (resolveToBytes code s).2 := by
  have hspec := resolveToBytes_spec code s
  simp only [h] at hspec
  obtain ⟨-, -, hholds⟩ := hspec
  exact hholds

/-- Settles O10: the walk succeeds exactly where the chain has a string that fits, and leaves it at the buffer's end. -/
theorem resolveLeavesTheString : Obligations.ResolveLeavesTheString := by
  intro code s
  cases hstring : stringOf s code with
  | none => exact ⟨_, exec_resolveToBytes_of_noString hstring, rfl, rfl⟩
  | some bytes =>
    obtain ⟨hlen, hne⟩ := chainBytes_length hstring
    exact ⟨_, exec_resolveToBytes_of_string hstring, rfl, rfl, hlen, fun hc => List.length_pos_iff.2 (hne hc),
      resolveToBytes_scratchHolds hstring⟩

/-! ## Corrupt chains -/

/-- One entry of a chain: its string is its `prefixCode`'s, with one entry less to walk, and its byte. -/
theorem chainBytes_succ {s : State} {c : Code} {e : Entry} (hc : c ≠ noCode s) (he : readEntry s c.toNat = some e)
    (k : Nat) : chainBytes s (k + 1) c = (chainBytes s k e.prefixCode).map (· ++ [e.byte]) := by
  rw [chainBytes, if_neg hc, he, Option.bind_some]

theorem chainBytes_zero {s : State} {c : Code} (hc : c ≠ noCode s) : chainBytes s 0 c = none := if_neg hc

/-- An entry that names itself as `prefixCode` has no string, however many entries are walked (`41_dictionary.md` R143 (a)). -/
theorem chainBytes_of_selfPrefix {s : State} {c : Code} {e : Entry} (hc : c ≠ noCode s)
    (he : readEntry s c.toNat = some e) (hself : e.prefixCode = c) (k : Nat) : chainBytes s k c = none := by
  induction k with
  | zero => exact chainBytes_zero hc
  | succ k ih => rw [chainBytes_succ hc he, hself, ih, Option.map_none]

/-- A code that holds no value has no string (`41_dictionary.md` R143 (b)). -/
theorem chainBytes_of_noValue {s : State} {c : Code} (hc : c ≠ noCode s) (he : readEntry s c.toNat = none) (k : Nat) :
    chainBytes s k c = none := by
  cases k with
  | zero => exact chainBytes_zero hc
  | succ k => rw [chainBytes, if_neg hc, he, Option.bind_none]

/-- An entry whose `prefixCode` holds no value has no string. -/
theorem chainBytes_of_danglingPrefix {s : State} {c : Code} {e : Entry} (hc : c ≠ noCode s)
    (he : readEntry s c.toNat = some e) (hp : e.prefixCode ≠ noCode s) (hnone : readEntry s e.prefixCode.toNat = none)
    (k : Nat) : chainBytes s k c = none := by
  cases k with
  | zero => exact chainBytes_zero hc
  | succ k => rw [chainBytes_succ hc he, chainBytes_of_noValue hp hnone, Option.map_none]

/-- Settles O12: neither chain has a string at any bound, and the walk fails where there is no string. -/
theorem corruptChainFails : Obligations.CorruptChainFails := by
  intro s c e hc he hcorrupt
  have hstring : stringOf s c = none := by
    obtain hself | ⟨hp, hnone⟩ := hcorrupt
    · exact chainBytes_of_selfPrefix hc he hself _
    · exact chainBytes_of_danglingPrefix hc he hp hnone _
  exact ⟨_, exec_resolveToBytes_of_noString hstring, rfl, rfl⟩

/-! ## The strings of a Grow-mode session -/

/-- A learned code up to `max_code` has an entry, and its `prefixCode` is lower (`10_state.md` R38 item 4). -/
theorem SessionInv.exists_learnedEntry {s : State} (h : SessionInv s) (hm : s.mode = .grow) {c : Code}
    (hlearned : 256 ≤ c.toNat) (hc : c.toNat ≤ s.maxCode.toNat) :
    ∃ e, readEntry s c.toNat = some e ∧ e.prefixCode.toNat < c.toNat := by
  obtain ⟨e, he⟩ := Option.isSome_iff_exists.1 (((entriesThatHoldAValue s h).2 _ hlearned).2 hc)
  have hfind : Memory.find s.dict c.toNat = some e := by
    rwa [readEntry, if_neg (by omega), if_pos hc] at he
  exact ⟨e, he, (h.grow hm).chains _ (memory_mem_of_find hfind)⟩

/-- The string of an entry is its `prefixCode`'s string and its byte, where that fits the scratch buffer. -/
theorem stringOf_entry {s : State} {c : Code} {e : Entry} {bytes : List Byte} (hc : c ≠ noCode s)
    (he : readEntry s c.toNat = some e) (hprefix : stringOf s e.prefixCode = some bytes)
    (hfits : bytes.length + 1 ≤ scratchSize s) : stringOf s c = some (bytes ++ [e.byte]) := by
  obtain ⟨k, hk⟩ : ∃ k, scratchSize s = k + 1 := Nat.exists_eq_add_one.2 (by omega)
  have hwalk : chainBytes s k e.prefixCode = some bytes := chainBytes_mono hprefix (by omega)
  rw [stringOf, hk, chainBytes_succ hc he, hwalk, Option.map_some]

/-- The string of a learned code, where its `prefixCode`'s string is as short as the learned codes below it allow. -/
theorem SessionInv.stringOf_learned {s : State} (h : SessionInv s) {c : Code} (hc : c.toNat ≤ s.maxCode.toNat) {e : Entry}
    (he : readEntry s c.toNat = some e) {bytes : List Byte} (hprefix : stringOf s e.prefixCode = some bytes)
    (hlen : bytes.length + 1 ≤ c.toNat - 254) : stringOf s c = some (bytes ++ [e.byte]) := by
  have hlt : c.toNat < s.params.capacity := hc.trans_lt h.ranges.max_lt
  refine stringOf_entry ?_ he hprefix (by unfold scratchSize; omega)
  rintro rfl
  rw [noCode_toNat h.ranges.params] at hlt
  exact lt_irrefl _ hlt

/-- Every code up to `max_code` has a string, of one byte for a literal and at most one more for each learned code up to
it. -/
theorem SessionInv.exists_stringOf_length {s : State} (h : SessionInv s) (hm : s.mode = .grow) (c : Code)
    (hc : c.toNat ≤ s.maxCode.toNat) :
    ∃ bytes, stringOf s c = some bytes ∧ bytes.length ≤ max 1 (c.toNat - 254) := by
  induction hn : c.toNat using Nat.strong_induction_on generalizing c with
  | h n ih =>
    subst hn
    by_cases hliteral : c.toNat ≤ 255
    · exact ⟨_, stringOf_literal h.ranges hliteral, le_max_left _ _⟩
    · obtain ⟨e, he, hdown⟩ := h.exists_learnedEntry hm (by omega) hc
      obtain ⟨bytes, hprefix, hlen⟩ := ih _ hdown e.prefixCode (by omega) rfl
      refine ⟨_, h.stringOf_learned hc he hprefix (by omega), ?_⟩
      rw [List.length_append, List.length_singleton]
      omega

/-- Settles O11: a literal's chain is its byte, and a learned entry's chain goes down to a code with a lower bound. -/
theorem stringByTheChain : Obligations.StringByTheChain := by
  intro s c h hm hc
  refine ⟨stringOf_literal h.ranges, fun hlearned => ?_⟩
  obtain ⟨e, he, hdown⟩ := h.exists_learnedEntry hm hlearned hc
  obtain ⟨bytes, hprefix, hbound⟩ := h.exists_stringOf_length hm e.prefixCode (by omega)
  have hlen : bytes.length + 1 ≤ c.toNat - 254 := by omega
  exact ⟨e, bytes, he, hprefix, h.stringOf_learned hc he hprefix hlen, hlen⟩

/-! ## `add` and `reset()` -/

theorem exec_add (p : Code) (b : Byte) (s : State) :
    exec (.add p b) s = next { (addEntry p b s).2 with returned := .newCode (addEntry p b s).1 } := rfl

theorem exec_add_noCode (b : Byte) (s : State) :
    exec (.add (noCode s) b) s = next { s with returned := .newCode (b.setWidth 25) } := by
  rw [exec_add, addEntry_noCode]

theorem exec_add_full {p : Code} (b : Byte) {s : State} (hp : p ≠ noCode s)
    (hfull : s.params.capacity ≤ s.maxCode.toNat + 1) :
    exec (.add p b) s = next { s with returned := .newCode (noCode s) } := by
  rw [exec_add, addEntry_full p b hp hfull]

/-- The allocating path of `add`: the next index is the result. -/
theorem exec_add_room {p : Code} (b : Byte) {s : State} (hr : InRange s) (hp : p ≠ noCode s)
    (hroom : s.maxCode.toNat + 1 < s.params.capacity) :
    exec (.add p b) s =
      next { (addEntry p b s).2 with returned := .newCode (BitVec.ofNat 25 (s.maxCode.toNat + 1)) } := by
  obtain ⟨hcode, -, -⟩ := addEntry_room p b hr hp hroom
  rw [exec_add, ← hcode, BitVec.ofNat_toNat, BitVec.setWidth_eq]

/-- Settles O13: the sentinel, the full dictionary, and the room left are the three paths of `add`. -/
theorem addThreePaths : Obligations.AddThreePaths := by
  intro p b s hr
  by_cases hp : p = noCode s
  · subst hp
    have hbyte : (b.setWidth 25).toNat ≤ 255 := by
      rw [BitVec.toNat_setWidth]
      omega
    refine ⟨_, exec_add_noCode b s, ?_⟩
    rw [if_pos rfl]
    exact ⟨rfl, hbyte, hr.literal_ne_noCode hbyte⟩
  · by_cases hfull : s.params.capacity ≤ s.maxCode.toNat + 1
    · refine ⟨_, exec_add_full b hp hfull, ?_⟩
      rw [if_neg hp, if_pos hfull]
    · have hroom := Nat.lt_of_not_le hfull
      obtain ⟨hcode, hstate, hread⟩ := addEntry_room p b hr hp hroom
      refine ⟨_, exec_add_room b hr hp hroom, ?_⟩
      rw [if_neg hp, if_neg hfull]
      refine ⟨by rw [hstate], ?_, fun i => ?_⟩
      · show (addEntry p b s).2.maxCode.toNat = _
        rw [hstate, ← hcode, BitVec.ofNat_toNat, BitVec.setWidth_eq]
      · rw [← hread i]
        exact readEntry_congr rfl rfl rfl i

/-- Settles O14: the registers are the ones `reset()` writes, and its empty list leaves the literals alone with a value. -/
theorem resetLeavesLiteralsAlone : Obligations.ResetLeavesLiteralsAlone := by
  intro s
  refine ⟨resetDictionary s, rfl, rfl, fun i => ?_⟩
  rw [readEntry_resetDictionary]
  by_cases hi : i ≤ 255
  · rw [if_neg (by omega), if_pos hi]
  · rw [if_pos (by omega), if_neg hi]

end Sys2Proof.Machine

/-! SUPPORT. The word classes executed by themselves: what each class rule leaves where its chain has a string, and the
faults it raises where there is none, where the dictionary is full, or where the word or the chunk is no good. -/

namespace Sys2Proof.Machine

open Host.Outcome

/-! ## A word in its class -/

theorem exec_string {s : State} {code : Code} (hm : s.mode = .stringOnly) (hc : code.toNat ≤ s.maxCode.toNat) :
    exec (.string code) s = next (settled (stringBody code s)) :=
  if_pos ((classify_of_le hc).trans (if_pos hm))

theorem exec_first {s : State} {code : Code} (hm : s.mode = .grow) (hp : s.prevCode = noCode s)
    (hc : code.toNat ≤ s.maxCode.toNat) : exec (.first code) s = next (settled (firstBody code s)) :=
  if_pos ((classify_of_le hc).trans ((if_neg (by simp [classRegs, hm])).trans (if_pos hp)))

theorem exec_known {s : State} {code : Code} (hm : s.mode = .grow) (hp : s.prevCode ≠ noCode s)
    (hc : code.toNat ≤ s.maxCode.toNat) : exec (.known code) s = next (settled (knownBody code s)) :=
  if_pos ((classify_of_le hc).trans ((if_neg (by simp [classRegs, hm])).trans (if_neg hp)))

theorem exec_next {s : State} {code : Code} (hm : s.mode = .grow) (hp : s.prevCode ≠ noCode s)
    (hc : code.toNat = s.maxCode.toNat + 1) : exec (.next code) s = next (settled (nextBody code s)) :=
  if_pos ((classify_of_eq_succ hc).trans (if_pos ⟨hm, hp⟩))

theorem InRange.code_ne_noCode {s : State} (hr : InRange s) {code : Code} (hc : code.toNat < s.params.capacity) :
    code ≠ noCode s := by
  rintro rfl
  rw [noCode_toNat hr.params] at hc
  exact lt_irrefl _ hc

/-! ## The class rules, by what their parts answer -/

theorem deliver_of_string {s : State} {code : Code} {run : List Byte} (hc : code ≠ noCode s)
    (hs : stringOf s code = some run) :
    ∃ u, deliver code s = .ok u ∧ RunEmitted run s u ∧
      u = { s with out := u.out, firstChar := u.firstChar, scratch := u.scratch } := by
  have h := deliver_spec code s hc
  rwa [hs] at h

theorem deliver_of_noString {s : State} {code : Code} (hc : code ≠ noCode s) (hs : stringOf s code = none) :
    ∃ u, deliver code s = .error (raise .invalidCode u) ∧ u = { s with scratch := u.scratch } := by
  have h := deliver_spec code s hc
  rwa [hs] at h

theorem firstBody_of_deliver {s u : State} {code : Code} (hu : deliver code s = .ok u) :
    firstBody code s = .ok (completeWord code u) := by
  rw [firstBody, hu]
  exact congrArg (Except.ok ∘ completeWord code) (congrArg Prod.snd (addEntry_noCode u.firstChar u))

theorem stringBody_of_deliver {s u : State} {code : Code} (hu : deliver code s = .ok u) :
    stringBody code s = .ok (completeWord code u) := by
  rw [stringBody, hu]
  rfl

/-- A KNOWN word that delivered its run goes on with the deferred add. -/
theorem knownBody_of_deliver {s u : State} {code : Code} (hu : deliver code s = .ok u) :
    knownBody code s = addDeferred u >>= fun v => .ok (completeWord code v) := by
  rw [knownBody, hu]
  rfl

/-- A NEXT word that added its entry goes on with its run. -/
theorem nextBody_of_addDeferred {s u : State} {code : Code} (hu : addDeferred s = .ok u) :
    nextBody code s = deliver code u >>= fun v => .ok (completeWord code v) := by
  rw [nextBody, hu]
  rfl

/-! ## What a completed word leaves -/

theorem BodyKeeps.of_ok {R : State → State → Prop} {s t : State} {x : Except State State} (h : BodyKeeps R s x)
    (hx : x = .ok t) : R s t := by
  subst hx
  exact h

/-- Two states with the same dictionary, and the same width and mode of the words that grow it. -/
structure SameTable (s t : State) : Prop where
  params : t.params = s.params
  max : t.maxCode = s.maxCode
  width : t.codeWidth = s.codeWidth
  mode : t.mode = s.mode
  dict : t.dict = s.dict

theorem SameTable.readEntry {s t : State} (h : SameTable s t) (i : Nat) : readEntry t i = readEntry s i :=
  readEntry_congr h.params h.max h.dict i

theorem deliver_sameTable {code : Code} {s u : State} (h : deliver code s = .ok u) : SameTable s u := by
  rw [deliver_eq_ok h]
  exact ⟨rfl, rfl, rfl, rfl, rfl⟩

theorem deliver_prevCode {code : Code} {s u : State} (h : deliver code s = .ok u) : u.prevCode = s.prevCode := by
  rw [deliver_eq_ok h]

theorem SameTable.inRange {s t : State} (h : SameTable s t) (hprev : t.prevCode = s.prevCode) (hr : InRange s) :
    InRange t :=
  hr.congr h.params hprev h.max h.width

theorem RunEmitted.congr {run : List Byte} {s u t : State} (h : RunEmitted run s u) (hout : t.out = u.out)
    (hfirst : t.firstChar = u.firstChar) (hscratch : t.scratch = u.scratch) : RunEmitted run s t := by
  have hread : readScratch t = readScratch u := by
    funext a
    rw [readScratch, hscratch, readScratch]
  unfold RunEmitted ScratchHolds scratchBytes
  rw [hout, hfirst, hread]
  exact h

/-- Steps 4 to 6 leave the sink, the remembered byte and the scratch buffer alone. -/
theorem RunEmitted.completeWord {run : List Byte} {s u : State} (h : RunEmitted run s u) (code : Code) :
    RunEmitted run s (completeWord code u) := by
  rw [completeWord_frame]
  exact h.congr rfl rfl rfl

/-- The entry added is there after steps 4 to 6, but for the overflow reset. -/
theorem entryAdded_completeWord (code : Code) {e : Entry} {s v : State} (hm : v.mode = .grow)
    (hparams : v.params = s.params) (hmax : v.maxCode.toNat = s.maxCode.toNat + 1)
    (hread : ∀ i, readEntry v i = if i = s.maxCode.toNat + 1 then some e else readEntry s i) :
    EntryAdded e s (completeWord code v) := by
  intro i
  rw [(completeWord_grow code hm).2 i, hparams, hmax, hread]

/-- Settles O16: the run is delivered, `add` with the sentinel creates nothing, and steps 4 to 6 follow. -/
theorem firstWordEffect : Obligations.FirstWordEffect := by
  intro code s run hr hm hp hc hs
  obtain ⟨u, hu, hrun, -⟩ := deliver_of_string (hr.code_ne_noCode (hc.trans_lt hr.max_lt)) hs
  have hbody := firstBody_of_deliver hu
  have hsame := deliver_sameTable hu
  refine ⟨completeWord code u, by rw [exec_first hm hp hc, hbody]; rfl, hrun.completeWord code,
    firstBody_growSteps hm hbody, fun i => ?_, ((keepsReading_keptByWords.firstBody code s).of_ok hbody).1⟩
  rw [(completeWord_grow code (hsame.mode.trans hm)).2 i, hsame.max, hsame.params, hsame.readEntry]

/-- Settles O17: the run is delivered, the deferred add has room, and steps 4 to 6 follow. -/
theorem knownWordEffect : Obligations.KnownWordEffect := by
  intro code s b rest hr hm hp hc hroom hs
  obtain ⟨u, hu, hrun, -⟩ := deliver_of_string (hr.code_ne_noCode (hc.trans_lt hr.max_lt)) hs
  have hsame := deliver_sameTable hu
  have hprev := deliver_prevCode hu
  have hfirst : b = u.firstChar := by
    obtain ⟨-, hhead, -⟩ := hrun
    exact Option.some.inj hhead
  subst hfirst
  obtain ⟨v, hv, hmax, hadd, hread⟩ := addDeferred_room (hsame.inRange hprev hr)
    (by rwa [hprev, noCode_congr hsame.params]) (by rwa [hsame.max, hsame.params])
  simp only [hsame.max, hsame.readEntry, hprev] at hmax hread
  have hbody : knownBody code s = .ok (completeWord code v) := by rw [knownBody_of_deliver hu, hv]; rfl
  obtain ⟨hparams, hmode, hwidth⟩ : v.params = s.params ∧ v.mode = s.mode ∧ v.codeWidth = s.codeWidth := by
    rw [hadd]
    exact ⟨hsame.params, hsame.mode, hsame.width⟩
  have hsteps := completeWord_growStepsDone code hm ⟨hparams, hmode, hwidth⟩
  rw [hmax] at hsteps
  exact ⟨completeWord code v, by rw [exec_known hm hp hc, hbody]; rfl,
    (hrun.congr (by rw [hadd]) (by rw [hadd]) (by rw [hadd])).completeWord code, hsteps,
    entryAdded_completeWord code (hmode.trans hm) hparams hmax hread,
    ((keepsReading_keptByWords.knownBody code s).of_ok hbody).1⟩

/-! ## The string of the entry a NEXT word adds -/

section

variable {s t : State} {e : Entry} {new : Code} (hparams : t.params = s.params)
  (hread : ∀ i, readEntry t i = if i = new.toNat then some e else readEntry s i)

include hparams hread

/-- An entry at an index that held no value changes no string there was. -/
theorem chainBytes_of_added (hnone : readEntry s new.toNat = none) {k : Nat} {c : Code} {bytes : List Byte}
    (h : chainBytes s k c = some bytes) : chainBytes t k c = some bytes := by
  refine chainBytes_of_more hparams (fun i e' he => ?_) h
  have hi : i ≠ new.toNat := by
    rintro rfl
    cases hnone.symm.trans he
  rw [hread, if_neg hi, he]

/-- A chain without a string gets one only by way of the entry added. -/
theorem chainBytes_added_eq_none {k : Nat} (hnew : ∀ j ≤ k, chainBytes t j new = none) {c : Code}
    (h : chainBytes s k c = none) : chainBytes t k c = none := by
  induction k generalizing c with
  | zero => simpa only [chainBytes, noCode_congr hparams] using h
  | succ k ih =>
    by_cases hc : c = new
    · exact hc ▸ hnew _ le_rfl
    · have hi : c.toNat ≠ new.toNat := fun h => hc (BitVec.eq_of_toNat_eq h)
      simp only [chainBytes, noCode_congr hparams, hread, if_neg hi] at h ⊢
      split at h
      · cases h
      · rename_i hne
        rw [if_neg hne]
        cases he : readEntry s c.toNat with
        | none => rfl
        | some e' =>
          simp only [he, Option.bind_some, Option.map_eq_none_iff] at h ⊢
          exact ih (fun j hj => hnew j (Nat.le_succ_of_le hj)) h

/-- The entry added has no string where its `prefixCode` had none: a chain that dangled at its index now comes back to it. -/
theorem stringOf_added_eq_none (hne : new ≠ noCode s) (h : stringOf s e.prefixCode = none) : stringOf t new = none := by
  have hget : readEntry t new.toNat = some e := by rw [hread, if_pos rfl]
  have hne' : new ≠ noCode t := noCode_congr hparams ▸ hne
  suffices hall : ∀ k ≤ scratchSize s, chainBytes t k new = none by
    rw [stringOf, show scratchSize t = scratchSize s by rw [scratchSize, hparams, scratchSize]]
    exact hall _ le_rfl
  intro k
  induction k using Nat.strong_induction_on with
  | h k ih =>
    intro hk
    cases k with
    | zero => exact chainBytes_zero hne'
    | succ k =>
      have hprefix : chainBytes s k e.prefixCode = none := by
        rw [Option.eq_none_iff_forall_not_mem]
        intro bytes hbytes
        have hlen := (chainBytes_length hbytes).1
        rw [stringOf, chainBytes_mono hbytes (by omega)] at h
        cases h
      rw [chainBytes_succ hne' hget,
        chainBytes_added_eq_none hparams hread (fun j hj => ih j (by omega) (by omega)) hprefix, Option.map_none]

end

/-- An index above `max_code` holds no value. -/
theorem readEntry_above {s : State} {i : Nat} (h255 : 255 < i) (hmax : s.maxCode.toNat < i) : readEntry s i = none := by
  rw [readEntry, if_neg (by omega), if_neg (by omega)]

/-- Settles O18: the deferred add has room, the new entry's string is the previous one and its byte, and steps 4 to 6
follow. -/
theorem nextWordEffect : Obligations.NextWordEffect := by
  intro code s last hr hm hp hc hroom hs hlen
  have hge := hr.max_ge
  obtain ⟨u, hu, hmax, hadd, hread⟩ := addDeferred_room hr hp hroom
  obtain ⟨hparams, hmode, hwidth⟩ : u.params = s.params ∧ u.mode = s.mode ∧ u.codeWidth = s.codeWidth := by
    rw [hadd]
    exact ⟨rfl, rfl, rfl⟩
  have hcode : code ≠ noCode u := by
    rw [noCode_congr hparams]
    exact hr.code_ne_noCode (by omega)
  have hprefix : stringOf u s.prevCode = some last := by
    rw [stringOf, scratchSize, hparams]
    exact chainBytes_of_added hparams (hc ▸ hread) (readEntry_above (by omega) (by omega)) hs
  have hstring : stringOf u code = some (last ++ [s.firstChar]) :=
    stringOf_entry hcode (by rw [hread, if_pos hc]) hprefix (by rw [scratchSize, hparams]; omega)
  obtain ⟨v, hv, hrun, -⟩ := deliver_of_string hcode hstring
  have hsame := deliver_sameTable hv
  have hbody : nextBody code s = .ok (completeWord code v) := by rw [nextBody_of_addDeferred hu, hv]; rfl
  have hsteps := completeWord_growStepsDone code hm (u := v)
    ⟨hsame.params.trans hparams, hsame.mode.trans hmode, hsame.width.trans hwidth⟩
  rw [hsame.max, hmax] at hsteps
  refine ⟨completeWord code v, by rw [exec_next hm hp hc, hbody]; rfl, ?_, hsteps, ?_,
    ((keepsReading_keptByWords.nextBody code s).of_ok hbody).1⟩
  · rw [hadd] at hrun
    exact hrun.completeWord code
  · exact entryAdded_completeWord code (hsame.mode.trans (hmode.trans hm)) (hsame.params.trans hparams)
      (hsame.max ▸ hmax) fun i => (hsame.readEntry i).trans (hread i)

/-- Settles O19: the run is delivered, and in StringOnly mode steps 4 to 6 are step 4. -/
theorem stringWordEffect : Obligations.StringWordEffect := by
  intro code s run hr hm hc hs
  obtain ⟨u, hu, hrun, hframe⟩ := deliver_of_string (hr.code_ne_noCode (hc.trans_lt hr.max_lt)) hs
  refine ⟨completeWord code u, by rw [exec_string hm hc, stringBody_of_deliver hu]; rfl, hrun.completeWord code, ?_⟩
  rw [completeWord_stringOnly code ((deliver_sameTable hu).mode.trans hm), hframe]

/-! ## The faults of a word, and the end of the chunk -/

theorem raise_faultEnds (kind : FaultKind) (u : State) : FaultEnds kind u (raise kind u) := rfl

/-- Settles O20: the code is in class INVALID, whose rule raises and does nothing else. -/
theorem invalidWordRaises : Obligations.InvalidWordRaises := by
  intro code s h
  have hclass : classify (classRegs s) code = .invalid code := by
    obtain habove | ⟨hc, hregs⟩ := h
    · exact classify_of_above habove
    · refine (classify_of_eq_succ hc).trans (if_neg ?_)
      rintro ⟨hgrow, hprev⟩
      obtain hm | hp := hregs
      · cases hgrow.symm.trans hm
      · exact hprev hp
  exact ⟨_, if_pos hclass, raise_faultEnds _ s⟩

/-- Settles O21: NODATA asks the strict build's test, and ends the command either way. -/
theorem noDataEndsTheCommand : Obligations.NoDataEndsTheCommand := by
  intro s hunread hcount
  refine ⟨_, if_pos ((outOfData_iff _ s).2 ⟨hunread, hcount⟩), ?_⟩
  by_cases h : s.params.strictEof = true ∧ s.bitCount ≠ 0
  · rw [if_pos h, if_pos ((truncated_iff s).2 h)]
    exact raise_faultEnds _ s
  · rw [if_neg h, if_neg fun ht => h ((truncated_iff s).1 ht)]
    rfl

/-- Settles O22: a KNOWN word's deferred add comes after its run, a NEXT word's before it, and neither finds room. -/
theorem fullDictionaryRaises : Obligations.FullDictionaryRaises := by
  intro code s run hr hm hp hfull
  constructor
  · intro hc hs
    obtain ⟨u, hu, hrun, hframe⟩ := deliver_of_string (hr.code_ne_noCode (hc.trans_lt hr.max_lt)) hs
    have hsame := deliver_sameTable hu
    have hadd : addDeferred u = .error (raise .dictionaryFull u) :=
      addDeferred_full (by rwa [deliver_prevCode hu, noCode_congr hsame.params]) (by rwa [hsame.params, hsame.max])
    refine ⟨u, raise .dictionaryFull u, ?_, hrun, hframe, raise_faultEnds _ u⟩
    rw [exec_known hm hp hc, knownBody_of_deliver hu, hadd]
    rfl
  · intro hc
    refine ⟨raise .dictionaryFull s, ?_, raise_faultEnds _ s⟩
    rw [exec_next hm hp hc, nextBody, addDeferred_full hp hfull]
    rfl

/-- Settles O23: each of the three class rules begins with the run, which has no string to deliver. -/
theorem corruptChainRaises : Obligations.CorruptChainRaises := by
  intro code s i hr hc hs hclass
  obtain ⟨u, hu, hframe⟩ := deliver_of_noString (hr.code_ne_noCode (hc.trans_lt hr.max_lt)) hs
  refine ⟨raise .invalidCode u, u, ?_, hframe, raise_faultEnds _ u⟩
  obtain ⟨hm, rfl⟩ | ⟨hm, hp, rfl⟩ | ⟨hm, hp, rfl⟩ := hclass
  · rw [exec_string hm hc, stringBody, hu]
    rfl
  · rw [exec_first hm hp hc, firstBody, hu]
    rfl
  · rw [exec_known hm hp hc, knownBody, hu]
    rfl

/-- Settles O24: the deferred add has room, and the entry it adds has no string, even where the previous code's chain
dangled at its index. -/
theorem corruptChainInNextRaises : Obligations.CorruptChainInNextRaises := by
  intro code s hr hm hp hc hroom hs
  have hcode : code ≠ noCode s := hr.code_ne_noCode (by omega)
  obtain ⟨u, hu, -, hadd, hread⟩ := addDeferred_room hr hp hroom
  rw [← hc] at hread
  have hparams : u.params = s.params := by rw [hadd]
  obtain ⟨v, hv, hframe⟩ := deliver_of_noString (noCode_congr hparams ▸ hcode)
    (stringOf_added_eq_none hparams hread hcode hs)
  refine ⟨raise .invalidCode v, v, ?_, raise_faultEnds _ v, ?_, fun i => ?_⟩
  · rw [exec_next hm hp hc, nextBody_of_addDeferred hu, hv]
    rfl
  · rw [hframe, hadd, ← hc, BitVec.ofNat_toNat, BitVec.setWidth_eq]
  · rw [← hread i, hframe]
    exact readEntry_congr rfl rfl rfl i

end Sys2Proof.Machine

/-! SUPPORT. The iterations of a command, by mode: a command completes at every width from 1 to 24, a StringOnly iteration
leaves the dictionary alone, a completed Grow iteration emits one run and adds one entry, and the phases they leave. -/

namespace Sys2Proof.Machine

open Host.Outcome

/-! ## The widths an iteration leaves -/

/-- A relation that delivering a string keeps, because it does not look at what that writes. -/
theorem deliver_keeps {R : State → State → Prop} (code : Code) {s : State}
    (hR : ∀ out first scratch, R s { s with out := out, firstChar := first, scratch := scratch }) :
    BodyKeeps R s (deliver code s) := by
  unfold deliver
  rw [resolveToBytes_eq]
  cases (walk s (scratchSize s) code s.scratch).1 with
  | none => exact ⟨.invalidCode, _, hR s.out s.firstChar _, rfl⟩
  | some start => exact hR _ _ _

/-- A width that `read_bits` takes and that reads at least one bit. -/
def ReadableWidth (s : State) : Prop := s.codeWidth ≠ 0 ∧ s.codeWidth.toNat ≤ maxWidth

theorem ReadableWidth.congr {s t : State} (h : ReadableWidth s) (hw : t.codeWidth = s.codeWidth) : ReadableWidth t := by
  unfold ReadableWidth
  rwa [hw]

/-- If a word can be read in the first state, one can be read in the second. -/
def KeepsReadableWidth (s t : State) : Prop := ReadableWidth s → ReadableWidth t

theorem addEntry_codeWidth (p : Code) (b : Byte) (s : State) : (addEntry p b s).2.codeWidth = s.codeWidth := by
  unfold addEntry
  split
  · rfl
  · split <;> rfl

/-- Step 5 grows the width below 24 bits only. -/
theorem growWidth_codeWidth_le {s : State} (h : s.codeWidth.toNat ≤ maxWidth) :
    (growWidth s).codeWidth.toNat ≤ maxWidth := by
  unfold growWidth
  split
  · rename_i hgrows
    obtain ⟨-, -, hlt⟩ := (widthGrows_iff s).1 hgrows
    unfold maxWidth at hlt ⊢
    simp only [BitVec.toNat_ofNat]
    omega
  · exact h

theorem completeWord_keepsReadableWidth (code : Code) (s : State) : KeepsReadableWidth s (completeWord code s) := by
  rintro ⟨h0, h24⟩
  refine ⟨completeWord_codeWidth_ne_zero code h0, ?_⟩
  unfold completeWord handleOverflow
  split
  · simp [maxWidth]
  · exact growWidth_codeWidth_le h24

theorem keepsReadableWidth_keptByWords : KeptByWords KeepsReadableWidth where
  trans := fun hst htu h => htu (hst h)
  deliver := fun code _ => deliver_keeps code fun _ _ _ h => h
  add := fun p b s h => h.congr (addEntry_codeWidth p b s)
  complete := completeWord_keepsReadableWidth

theorem iteration_readableWidth {s t : State} (hi : iteration s = next t) (h : ReadableWidth s) : ReadableWidth t := by
  obtain ⟨w, u, hr, hcases⟩ := iteration_cases keepsReadableWidth_keptByWords hi
  have hu : ReadableWidth u := h.congr (by rw [(readWord_reads hr).1])
  obtain ⟨-, ht | ⟨kind, v, hv, rfl⟩⟩ | ⟨-, rfl⟩ := hcases
  · exact ht hu
  · exact (hv hu).congr rfl
  · split <;> exact hu.congr rfl

/-! ## A command completes -/

theorem exec_decodeChunk_of_running (chunk : List Byte) {s : State} (hb : s.busy = false) (hp : s.phase ≠ .faulted) :
    exec (.decodeChunk chunk) s = engineLoop (enoughIterations (beginChunk chunk s)) (beginChunk chunk s) :=
  (whenIdle_idle hb _).trans (if_neg hp)

/-- A loop that answers has ended its command. -/
theorem engineLoop_not_busy {fuel : Nat} {s t : State} (h : engineLoop fuel s = next t) : t.busy = false := by
  obtain ⟨_, -, -, hidle, -⟩ := (engineLoop_eq_next_iff fuel s t).1 h
  exact hidle

theorem iteration_tooWide {s : State} (h : maxWidth < s.codeWidth.toNat) : iteration s = refused .readBitsTooWide := by
  rw [iteration, readWord, if_pos h]

/-- Settles O34: each iteration leaves a readable width again and takes at least one bit, which bounds the loop; a width
above 24 stops the first iteration. -/
theorem chunkCompletesAtEveryWidth : Obligations.ChunkCompletesAtEveryWidth := by
  intro chunk s hb hp
  rw [exec_decodeChunk_of_running chunk hb hp]
  constructor
  · intro h1 h24
    have hwidth : ReadableWidth (beginChunk chunk s) := by
      refine ⟨fun h0 => ?_, h24⟩
      rw [beginChunk_codeWidth] at h0
      simp [h0] at h1
    obtain ⟨t, ht⟩ := engineLoop_answers (P := ReadableWidth) (fuel := enoughIterations (beginChunk chunk s))
      (fun _ => iteration_readableWidth) id hwidth (by unfold bitsLeft enoughIterations; omega)
    exact ⟨t, ht, engineLoop_not_busy ht⟩
  · intro h24
    rw [enoughIterations, engineLoop, if_pos (beginChunk_busy chunk s),
      iteration_tooWide (s := beginChunk chunk s) h24]

/-! ## StringOnly iterations -/

theorem SameTable.raise {s t : State} (h : SameTable s t) (kind : FaultKind) : SameTable s (raise kind t) :=
  ⟨h.params, h.max, h.width, h.mode, h.dict⟩

theorem SameTable.trans {s t u : State} (hst : SameTable s t) (htu : SameTable t u) : SameTable s u :=
  ⟨htu.params.trans hst.params, htu.max.trans hst.max, htu.width.trans hst.width, htu.mode.trans hst.mode,
    htu.dict.trans hst.dict⟩

theorem stringBody_sameTable (code : Code) {s : State} (hm : s.mode = .stringOnly) :
    BodyKeeps SameTable s (stringBody code s) := by
  have hd : BodyKeeps SameTable s (deliver code s) := deliver_keeps code fun _ _ _ => ⟨rfl, rfl, rfl, rfl, rfl⟩
  cases hu : deliver code s with
  | error u =>
    rw [hu] at hd
    rw [stringBody, hu]
    exact hd
  | ok u =>
    have hsame := hd.of_ok hu
    rw [stringBody_of_deliver hu, completeWord_stringOnly code (hsame.mode.trans hm)]
    exact ⟨hsame.params, hsame.max, hsame.width, hsame.mode, hsame.dict⟩

/-- A word in StringOnly mode is of class STRING or INVALID. -/
theorem classify_stringOnly {r : ClassRegs} (hm : r.mode = .stringOnly) (code : Code) :
    classify r code = .string code ∨ classify r code = .invalid code := by
  obtain ⟨hw, -⟩ | ⟨-, -, hgrow, -⟩ | ⟨-, -, hgrow, -⟩ | ⟨-, -, hgrow, -⟩ | hw := classify_cases r code
  · exact .inl hw
  · cases hm.symm.trans hgrow
  · cases hm.symm.trans hgrow
  · cases hm.symm.trans hgrow
  · exact .inr hw

theorem iteration_stringOnly_sameTable {s t : State} (hm : s.mode = .stringOnly) (hi : iteration s = next t) :
    SameTable s t := by
  obtain ⟨u, hframe, hcases⟩ := iteration_eq_next hi
  have hu : SameTable s u := by
    rw [hframe]
    exact ⟨rfl, rfl, rfl, rfl, rfl⟩
  have hmu := hu.mode.trans hm
  refine hu.trans ?_
  obtain ⟨code, -, hrun⟩ | hnone := hcases
  · obtain hw | hw := classify_stringOnly (r := classRegs u) hmu code
    all_goals rw [hw] at hrun
    · obtain ht | ⟨kind, v, hv, rfl⟩ := KeptByWords.whenClass_settled (stringBody_sameTable code hmu) hrun
      · exact ht
      · exact hv.raise kind
    · rw [whenClass_eq_next hrun]
      exact ⟨rfl, rfl, rfl, rfl, rfl⟩
  · rw [execNoData_eq_next hnone]
    split <;> exact ⟨rfl, rfl, rfl, rfl, rfl⟩

/-- Settles O47: every iteration leaves the dictionary, the width and the mode, and so the next one is StringOnly again. -/
theorem stringOnlyNeverGrows : Obligations.StringOnlyNeverGrows := by
  intro chunk s t hm hd
  obtain ⟨-, hd⟩ := whenIdle_eq_next hd
  split at hd
  · cases hd
    exact ⟨rfl, rfl, rfl, rfl⟩
  · have hsame : SameTable s t := engineLoop_induction (P := SameTable s) (s := beginChunk chunk s)
      (fun hi hu => hu.trans (iteration_stringOnly_sameTable (hu.mode.trans hm) hi)) ⟨rfl, rfl, rfl, rfl, rfl⟩ hd
    exact ⟨hsame.max, hsame.width, hsame.mode, hsame.dict⟩

/-! ## Grow iterations -/

/-- An iteration that does not end the command has run a word, over a state of the session again. -/
theorem SessionInv.iteration_completed {s t : State} (h : SessionInv s) (hb : s.busy = true) (hi : iteration s = next t)
    (htb : t.busy = true) :
    ∃ u code, SessionInv u ∧ u = { s with acc := u.acc, inPos := u.inPos, bitCount := u.bitCount } ∧
      runWord (classify (classRegs u) code) u = next t := by
  unfold iteration at hi
  obtain ⟨-, hr⟩ | ⟨hw, ⟨code, u, hbits, hr⟩ | ⟨u, -, hr⟩⟩ := readWord_spec s <;> rw [hr] at hi
  · cases hi
  · obtain ⟨hframe, hu7, hcursor⟩ := readBits_code_left hw hbits h.count h.cursor.1
    refine ⟨u, code, ?_, hframe, hi⟩
    rw [hframe]
    exact h.of_control rfl { h.control with
      count := Nat.lt_of_le_of_lt hu7 h.ranges.width_ge
      count_iter := fun _ _ => hu7
      cursor := ⟨hcursor, by simp [hb]⟩ }
  · rw [execNoData_eq_next hi] at htb
    split at htb <;> simp at htb

theorem RunEmitted.exists_run {run : List Byte} {s t : State} (h : RunEmitted run s t) :
    ∃ run, run ≠ [] ∧ t.out = s.out ++ [run] := by
  obtain ⟨hout, hhead, -⟩ := h
  refine ⟨run, ?_, hout⟩
  rintro rfl
  cases hhead

/-- The run a completed Grow word emits, and the entries it keeps (`42_decode_engine.md` R188, `20_memory.md` R64). -/
structure RunAndEntries (s t : State) : Prop where
  run : ∃ run, run ≠ [] ∧ t.out = s.out ++ [run]
  kept : maxAfterWord s + 1 ≠ s.params.capacity → ∀ i, i ≤ s.maxCode.toNat → readEntry t i = readEntry s i

/-- An entry added keeps the entries there were, but for the overflow reset. -/
theorem EntryAdded.kept {e : Entry} {s t : State} (h : EntryAdded e s t) (hp : s.prevCode ≠ noCode s)
    (hroom : maxAfterWord s + 1 ≠ s.params.capacity) {i : Nat} (hi : i ≤ s.maxCode.toNat) :
    readEntry t i = readEntry s i := by
  rw [maxAfterWord_of_prev hp] at hroom
  rw [h i, if_neg fun hov => hroom hov.1, if_neg (by omega)]

/-- In a Grow session every code up to `max_code` has a string that leaves room in the scratch buffer for one byte more. -/
theorem SessionInv.exists_string {s : State} (h : SessionInv s) (hm : s.mode = .grow) {code : Code}
    (hc : code.toNat ≤ s.maxCode.toNat) :
    ∃ b rest, stringOf s code = some (b :: rest) ∧ (b :: rest).length < s.params.capacity := by
  obtain ⟨bytes, hs, hlen⟩ := h.exists_stringOf_length hm code hc
  have hlt := h.ranges.max_lt
  have hcap := h.ranges.params.1
  have hne := (chainBytes_length hs).2 (h.ranges.code_ne_noCode (hc.trans_lt hlt))
  obtain ⟨b, rest, rfl⟩ := List.exists_cons_of_ne_nil hne
  exact ⟨b, rest, hs, by omega⟩

/-- A Grow word of a session that leaves the command going on, by its class: each class that completes emits a run. -/
theorem SessionInv.runWord_runAndEntries {s t : State} {code : Code} (h : SessionInv s) (hm : s.mode = .grow)
    (hrun : runWord (classify (classRegs s) code) s = next t) (htb : t.busy = true) : RunAndEntries s t := by
  have hg := h.grow hm
  obtain ⟨-, -, hmode⟩ | ⟨hw, hc, -, hp⟩ | ⟨hw, hc, -, hp⟩ | ⟨hw, hc, -, hp⟩ | hw := classify_cases (classRegs s) code
  · cases hm.symm.trans hmode
  all_goals rw [hw] at hrun
  · obtain ⟨b, rest, hs, -⟩ := h.exists_string hm hc
    obtain ⟨t', ht', hemit, -, hread, -⟩ := firstWordEffect code s _ h.ranges hm hp hc hs
    cases hrun.symm.trans ht'
    refine ⟨hemit.exists_run, fun hroom i _ => ?_⟩
    rw [maxAfterWord_of_fresh hp] at hroom
    rw [hread, if_neg fun hov => hroom hov.1]
  · obtain ⟨b, rest, hs, -⟩ := h.exists_string hm hc
    obtain ⟨t', ht', hemit, -, hadded, -⟩ := knownWordEffect code s b rest h.ranges hm hp hc hg.room hs
    cases hrun.symm.trans ht'
    exact ⟨hemit.exists_run, fun hroom _ => hadded.kept hp hroom⟩
  · obtain ⟨b, rest, hs, hlen⟩ := h.exists_string hm (hg.prev_valid hp)
    obtain ⟨t', ht', hemit, -, hadded, -⟩ := nextWordEffect code s _ h.ranges hm hp hc hg.room hs hlen
    cases hrun.symm.trans ht'
    exact ⟨hemit.exists_run, fun hroom _ => hadded.kept hp hroom⟩
  · rw [whenClass_eq_next hrun] at htb
    simp at htb

theorem SessionInv.iteration_runAndEntries {s t : State} (h : SessionInv s) (hm : s.mode = .grow) (hb : s.busy = true)
    (hi : iteration s = next t) (htb : t.busy = true) : RunAndEntries s t := by
  obtain ⟨u, code, hu, hframe, hrun⟩ := h.iteration_completed hb hi htb
  obtain ⟨acc, inPos, count, rfl⟩ : ∃ acc inPos count,
      u = { s with acc := acc, inPos := inPos, bitCount := count } := ⟨_, _, _, hframe⟩
  obtain ⟨hemit, hkept⟩ := hu.runWord_runAndEntries hm hrun htb
  exact ⟨hemit, hkept⟩

/-- Settles O43: the word's class gives the run and the entries kept, and steps 4 to 6 the registers. -/
theorem iterationEmitsOneRun : Obligations.IterationEmitsOneRun := by
  intro s t h hm hb hs htb
  rw [step_busy hb] at hs
  obtain ⟨hemit, hkept⟩ := h.iteration_runAndEntries hm hb hs htb
  obtain ⟨code, -, hsteps⟩ := iteration_growSteps h hm hs htb
  refine ⟨hemit, ?_⟩
  intro m
  rw [show m = maxAfterWord s from rfl]
  unfold GrowStepsDone at hsteps
  by_cases hov : maxAfterWord s + 1 = s.params.capacity
  · rw [if_pos hov] at hsteps ⊢
    obtain ⟨hprev, -, hmax, -⟩ := hsteps
    exact ⟨hmax, hprev⟩
  · rw [if_neg hov] at hsteps ⊢
    obtain ⟨-, -, hmax, -⟩ := hsteps
    exact ⟨hmax, hkept hov⟩

/-! ## The phases -/

/-- A completed Grow word leaves Running, or AwaitingFirstCode on the overflow reset. -/
theorem GrowStepsDone.phase_eq {code : Code} {m : Nat} {s t : State} (h : GrowStepsDone code m s t) :
    t.phase = if m + 1 = s.params.capacity then .awaitingFirstCode else .running := by
  unfold GrowStepsDone at h
  split at h
  · obtain ⟨-, hphase, -⟩ := h
    rw [hphase, if_pos ‹_›]
  · obtain ⟨-, hphase, -⟩ := h
    rw [hphase, if_neg ‹_›]

theorem stringBody_phase {code : Code} {s t : State} (hm : s.mode = .stringOnly) (h : stringBody code s = .ok t) :
    t.phase = .running := by
  obtain ⟨u, hu, ht⟩ := bind_eq_ok h
  cases ht
  rw [completeWord_stringOnly code ((deliver_sameTable hu).mode.trans hm)]

theorem SessionInv.iteration_stringOnly_phase {s t : State} (h : SessionInv s) (hm : s.mode = .stringOnly)
    (hb : s.busy = true) (hi : iteration s = next t) (htb : t.busy = true) : t.phase = .running := by
  obtain ⟨u, code, -, hframe, hrun⟩ := h.iteration_completed hb hi htb
  have hmu : u.mode = .stringOnly := by rw [hframe]; exact hm
  obtain hw | hw := classify_stringOnly (r := classRegs u) hmu code
  all_goals rw [hw] at hrun
  · exact stringBody_phase hmu (whenClass_busy (keepsReading_keptByWords.stringBody code u) hrun htb)
  · rw [whenClass_eq_next hrun] at htb
    simp at htb

/-- An iteration that ends the command leaves a terminal phase. -/
theorem iteration_ended_phase {s t : State} (hb : s.busy = true) (hi : iteration s = next t) (htb : t.busy = false) :
    t.phase = .exhausted ∨ t.phase = .faulted := by
  obtain ⟨w, u, hr, ⟨-, ⟨hframe, -⟩ | ⟨kind, v, -, rfl⟩⟩ | ⟨-, rfl⟩⟩ := iteration_cases keepsReading_keptByWords hi
  · obtain ⟨-, -, -, -, -, hbusy, -⟩ := hframe
    have hub : u.busy = s.busy := by rw [(readWord_reads hr).1]
    rw [hbusy, hub, hb] at htb
    cases htb
  · exact .inr rfl
  · split
    · exact .inr rfl
    · exact .inl rfl

/-- A completed iteration, by mode: with no previous code the overflow is out of reach, for the capacity is above 256. -/
theorem SessionInv.iteration_phase {s t : State} (h : SessionInv s) (hb : s.busy = true) (hi : iteration s = next t)
    (htb : t.busy = true) :
    t.phase = if s.prevCode ≠ noCode s ∧ s.mode = .grow ∧ s.maxCode.toNat + 2 = s.params.capacity then
      .awaitingFirstCode else .running := by
  cases hm : s.mode with
  | stringOnly =>
    rw [h.iteration_stringOnly_phase hm hb hi htb]
    simp
  | grow =>
    obtain ⟨code, -, hsteps⟩ := iteration_growSteps h hm hi htb
    rw [hsteps.phase_eq]
    by_cases hp : s.prevCode = noCode s
    · have hcap := h.ranges.params.1
      rw [maxAfterWord_of_fresh hp, ((h.grow hm).fresh hp).1, if_neg (by simp; omega),
        if_neg fun hov => hov.1 hp]
    · rw [maxAfterWord_of_prev hp]
      simp [hp]

/-- Settles O52: a session awaits its first code exactly without a previous code, and a command that ends is exhausted or
faulted. -/
theorem iterationPhases : Obligations.IterationPhases := by
  intro s t h hb hs
  rw [step_busy hb] at hs
  refine ⟨fun htb => ?_, iteration_ended_phase hb hs⟩
  rw [h.iteration_phase hb hs htb]
  refine ⟨fun hph => if_neg fun hov => hov.1 (h.awaiting hph), fun hph => ?_⟩
  simp [h.running hph]

end Sys2Proof.Machine

/-! SUPPORT. The Output Sink: what `emit` appends, which steps emit, and that no step takes a run back. -/

namespace Sys2Proof.Machine

open Host.Outcome

/-! ## `emit` -/

theorem exec_emit {run : List Byte} (h : run ≠ []) (s : State) : exec (.emit run) s = next (emitRun run s) :=
  if_neg (mt List.isEmpty_iff.1 h)

/-- The decoded output grows by the run's bytes (`43_output_sink.md` R221). -/
theorem flatOut_emitRun (run : List Byte) (s : State) : flatOut (emitRun run s) = flatOut s ++ run := by
  simp [flatOut]

/-- Settles O15: a run of at least one byte is appended, and an empty one meets the check of the operand's range. -/
theorem emitAppendsOneRun : Obligations.EmitAppendsOneRun :=
  fun run s => ⟨fun h => ⟨exec_emit h s, flatOut_emitRun run s⟩, rfl⟩

/-! ## Inside a command, runs are only appended -/

/-- The sink of the second state has the runs of the first, in order, and perhaps more after them. -/
def OutGrows (s t : State) : Prop := s.out <+: t.out

theorem OutGrows.of_eq {s t : State} (h : t.out = s.out) : OutGrows s t := by
  rw [OutGrows, h]

theorem OutGrows.trans {s t u : State} (hst : OutGrows s t) (htu : OutGrows t u) : OutGrows s u :=
  List.IsPrefix.trans hst htu

/-- Delivering a string appends its run, and a chain with no string emits nothing. -/
theorem deliver_outGrows (code : Code) (s : State) : BodyKeeps OutGrows s (deliver code s) := by
  unfold deliver
  rw [resolveToBytes_eq]
  cases (walk s (scratchSize s) code s.scratch).1 with
  | none =>
    refine ⟨.invalidCode, _, ?_, rfl⟩
    exact .of_eq rfl
  | some start => exact List.prefix_append s.out _

theorem addEntry_out (p : Code) (b : Byte) (s : State) : (addEntry p b s).2.out = s.out := by
  unfold addEntry
  split
  · rfl
  · split <;> rfl

theorem completeWord_out (code : Code) (s : State) : (completeWord code s).out = s.out := by
  rw [completeWord_frame]

theorem outGrows_keptByWords : KeptByWords OutGrows where
  trans := OutGrows.trans
  deliver := deliver_outGrows
  add := fun p b s => .of_eq (addEntry_out p b s)
  complete := fun code s => .of_eq (completeWord_out code s)

/-- Reading a word emits nothing, its class rule only appends, and a fault or the chunk's end keeps what was emitted. -/
theorem iteration_outGrows {s t : State} (h : iteration s = next t) : OutGrows s t := by
  obtain ⟨w, u, hr, hcases⟩ := iteration_cases outGrows_keptByWords h
  have hu : OutGrows s u := .of_eq (by rw [(readWord_reads hr).1])
  refine hu.trans ?_
  obtain ⟨-, ht | ⟨kind, v, hv, rfl⟩⟩ | ⟨-, rfl⟩ := hcases
  · exact ht
  · exact hv
  · split <;> exact .of_eq rfl

/-! ## The host commands -/

/-- The instruction of each command code (`30_encoding.md` R107). -/
theorem decodeCommand_cases (c : HostCommand) :
    (c.code = 0 ∧ decodeCommand c = .init) ∨ (c.code = 1 ∧ decodeCommand c = .restore c.entries) ∨
      (c.code = 2 ∧ decodeCommand c = .decodeChunk c.chunk) ∨ (c.code = 3 ∧ decodeCommand c = .reservedCmd3) := by
  have hcode : ∀ code : BitVec 2, code = 0 ∨ code = 1 ∨ code = 2 ∨ code = 3 := by decide
  unfold decodeCommand
  obtain h | h | h | h := hcode c.code <;> simp [h]

/-- DECODE_CHUNK in phase Faulted only reports (`44_host_commands.md` R249). -/
theorem exec_decodeChunk_of_faulted {chunk : List Byte} {s t : State} (hp : s.phase = .faulted)
    (h : exec (.decodeChunk chunk) s = next t) : t = reportFault s := by
  obtain ⟨-, h⟩ := whenIdle_eq_next h
  rw [if_pos hp] at h
  cases h
  rfl

theorem exec_decodeChunk_outGrows {chunk : List Byte} {s t : State} (h : exec (.decodeChunk chunk) s = next t) :
    OutGrows s t := by
  by_cases hp : s.phase = .faulted
  · rw [exec_decodeChunk_of_faulted hp h]
    exact .of_eq rfl
  · obtain ⟨hb, -⟩ := whenIdle_eq_next h
    rw [exec_decodeChunk_of_running chunk hb hp] at h
    exact engineLoop_induction (P := OutGrows s) (s := beginChunk chunk s)
      (fun hi hu => hu.trans (iteration_outGrows hi)) (.of_eq rfl) h

/-- The only command that emits is DECODE_CHUNK in a phase other than Faulted. -/
theorem execCommand_out {c : HostCommand} {s t : State} (hc : c.code = 2 → s.phase = .faulted)
    (h : exec (decodeCommand c) s = next t) : t.out = s.out := by
  obtain ⟨-, hi⟩ | ⟨-, hi⟩ | ⟨hcode, hi⟩ | ⟨-, hi⟩ := decodeCommand_cases c <;> rw [hi] at h
  · obtain ⟨-, h⟩ := whenIdle_eq_next h
    cases h
    rfl
  · obtain ⟨-, h⟩ := whenIdle_eq_next h
    cases h
    split <;> rfl
  · rw [exec_decodeChunk_of_faulted (hc hcode) h, reportFault_out]
  · cases h
    rfl

theorem execCommand_outGrows {c : HostCommand} {s t : State} (h : exec (decodeCommand c) s = next t) :
    OutGrows s t := by
  by_cases hcode : c.code = 2
  · have hi : decodeCommand c = .decodeChunk c.chunk := by simp [decodeCommand, hcode]
    exact exec_decodeChunk_outGrows (hi ▸ h)
  · exact .of_eq (execCommand_out (fun h2 => absurd h2 hcode) h)

/-- Only INIT and RESTORE leave phase Faulted (`60_exceptions.md` R280). -/
theorem execCommand_faulted {c : HostCommand} {s t : State} (hp : s.phase = .faulted)
    (h : exec (decodeCommand c) s = next t) :
    (t.phase = .faulted ∧ t.faultKind = s.faultKind) ∨ c.code = 0 ∨ c.code = 1 := by
  obtain ⟨hcode, -⟩ | ⟨hcode, -⟩ | ⟨-, hi⟩ | ⟨-, hi⟩ := decodeCommand_cases c
  · exact .inr (.inl hcode)
  · exact .inr (.inr hcode)
  · rw [hi] at h
    rw [exec_decodeChunk_of_faulted hp h]
    exact .inl ⟨hp, rfl⟩
  · rw [hi] at h
    cases h
    exact .inl ⟨hp, rfl⟩

/-! ## The step -/

/-- An idle block emits only where it takes a DECODE_CHUNK in a phase other than Faulted. -/
theorem step_idle_out {s t : State} (hb : s.busy = false)
    (hc : ∀ c rest, s.commands = c :: rest → c.code = 2 → s.phase = .faulted) (h : step s = next t) :
    t.out = s.out := by
  cases hq : s.commands with
  | nil =>
    rw [step_no_command hb hq] at h
    cases h
    rfl
  | cons c rest =>
    rw [step_command hb hq] at h
    exact execCommand_out (s := { s with commands := rest }) (hc c rest hq) h

theorem step_outGrows {s t : State} (h : step s = next t) : OutGrows s t := by
  cases hb : s.busy with
  | true => exact iteration_outGrows (step_busy hb ▸ h)
  | false =>
    cases hq : s.commands with
    | nil =>
      rw [step_no_command hb hq] at h
      cases h
      exact .of_eq rfl
    | cons c rest =>
      rw [step_command hb hq] at h
      exact execCommand_outGrows (s := { s with commands := rest }) h

/-- Settles O49: what a step appends is the rest of a list that begins with the runs received, and nothing where no
DECODE_CHUNK is taken. -/
theorem outputOnlyGrows : Obligations.OutputOnlyGrows := by
  intro s t h
  obtain ⟨runs, hruns⟩ := step_outGrows h
  refine ⟨runs, hruns.symm, fun hb hc => ?_⟩
  have hout := step_idle_out hb (fun c rest hq hcode => absurd hcode (hc c rest hq)) h
  exact List.append_right_eq_self.1 (hruns.trans hout)

/-- Settles O48: a command taken in phase Faulted emits nothing, and one that is not INIT or RESTORE keeps the fault. -/
theorem faultedIsSilent : Obligations.FaultedIsSilent := by
  intro s t hp hb h
  refine ⟨step_idle_out hb (fun _ _ _ _ => hp) h, ?_⟩
  cases hq : s.commands with
  | nil =>
    rw [step_no_command hb hq] at h
    cases h
    exact .inl ⟨hp, rfl⟩
  | cons c rest =>
    rw [step_command hb hq] at h
    exact (execCommand_faulted (s := { s with commands := rest }) hp h).imp_right fun hcode => ⟨c, rest, rfl, hcode⟩

end Sys2Proof.Machine

/-! SUPPORT. DECODE_CHUNK as the run of its iterations: the state the run ends in, what step 1 finds in a session, and
the faults a word can raise. -/

namespace Sys2Proof.Machine

open Host.Outcome

/-! ## The state a command's run ends in -/

/-- The command in progress in `s` ends in `t`. -/
def EndsIn (s t : State) : Prop := ∃ k, FirstIdle k s t

theorem EndsIn.not_busy {s t : State} (h : EndsIn s t) : t.busy = false := by
  obtain ⟨_, -, hb, -⟩ := h
  exact hb

theorem endsIn_of_idle {s t : State} (hb : s.busy = false) : EndsIn s t ↔ s = t := by
  simp [EndsIn, firstIdle_of_idle hb]

theorem endsIn_of_busy {s t : State} (hb : s.busy = true) :
    EndsIn s t ↔ ∃ u, iteration s = next u ∧ EndsIn u t := by
  constructor
  · rintro ⟨_ | k, hk⟩
    · obtain ⟨rfl, ht⟩ := (firstIdle_zero s t).1 hk
      simp [hb] at ht
    · obtain ⟨-, u, hu, hk⟩ := (firstIdle_succ k s t).1 hk
      exact ⟨u, hu, k, hk⟩
  · rintro ⟨u, hu, k, hk⟩
    exact ⟨k + 1, (firstIdle_succ k s t).2 ⟨hb, u, hu, hk⟩⟩

theorem EndsIn.of_idle {t : State} (hb : t.busy = false) : EndsIn t t := (endsIn_of_idle hb).2 rfl

theorem EndsIn.of_iteration {s u t : State} (hb : s.busy = true) (hi : iteration s = next u) (he : EndsIn u t) :
    EndsIn s t :=
  (endsIn_of_busy hb).2 ⟨u, hi, he⟩

/-- Two states whose iterations answer the same end their command in the same state. -/
theorem endsIn_congr {s s' t : State} (hb : s.busy = true) (hb' : s'.busy = true) (h : iteration s = iteration s') :
    EndsIn s t ↔ EndsIn s' t := by
  rw [endsIn_of_busy hb, endsIn_of_busy hb', h]

/-- Induction on a command's run, from its end. -/
theorem EndsIn.head_induction {t : State} {P : State → Prop} (hend : t.busy = false → P t)
    (hstep : ∀ s u, s.busy = true → iteration s = next u → EndsIn u t → P u → P s) {s : State} (h : EndsIn s t) :
    P s := by
  obtain ⟨k, hk⟩ := h
  induction k generalizing s with
  | zero =>
    obtain ⟨rfl, ht⟩ := (firstIdle_zero s t).1 hk
    exact hend ht
  | succ k ih =>
    obtain ⟨hb, u, hu, hk⟩ := (firstIdle_succ k s t).1 hk
    exact hstep s u hb hu ⟨k, hk⟩ (ih hk)

theorem EndsIn.unique {s t t' : State} (h : EndsIn s t) (h' : EndsIn s t') : t = t' := by
  refine h.head_induction (P := fun s => EndsIn s t' → t = t') (fun hb h' => (endsIn_of_idle hb).1 h') ?_ h'
  intro s u hb hu _ ih h'
  obtain ⟨v, hv, h'⟩ := (endsIn_of_busy hb).1 h'
  cases hu.symm.trans hv
  exact ih h'

/-- DECODE_CHUNK of a session answers the state its run ends in. -/
theorem SessionInv.exec_decodeChunk_iff {s t : State} (h : SessionInv s) (hb : s.busy = false) (hp : s.phase ≠ .faulted)
    (chunk : List Byte) : exec (.decodeChunk chunk) s = next t ↔ EndsIn (beginChunk chunk s) t :=
  chunkIsItsIterations chunk s t hb hp h.width.1

/-! ## What step 1 finds -/

/-- Step 1 has read a word: at least one byte more of the chunk is used. -/
structure WordRead (s u : State) : Prop where
  frame : u = { s with acc := u.acc, inPos := u.inPos, bitCount := u.bitCount }
  inv : SessionInv u
  taken : s.inPos < u.inPos

/-- Step 1 has found no whole word: the chunk is used up, and its bits are buffered. -/
structure ChunkUsedUp (s u : State) : Prop where
  frame : u = { s with acc := u.acc, inPos := s.chunk.length, bitCount := u.bitCount }
  count : u.bitCount.toNat < s.codeWidth.toNat

theorem ChunkUsedUp.unreadBytes_eq {s u : State} (h : ChunkUsedUp s u) : unreadBytes u = [] := by
  rw [h.frame]
  exact List.drop_length

theorem SessionInv.wordRead {s u : State} {code : Code} (h : SessionInv s) (hb : s.busy = true)
    (hbits : readBits s.codeWidth.toNat s = (.code code, u)) : WordRead s u := by
  have hcount := h.count
  obtain ⟨hframe, hu7, hcursor⟩ := readBits_code_left h.ranges.width_le hbits hcount h.cursor.1
  refine ⟨hframe, ?_, ?_⟩
  · rw [hframe]
    exact h.of_control rfl { h.control with
      count := Nat.lt_of_le_of_lt hu7 h.ranges.width_ge
      count_iter := fun _ _ => hu7
      cursor := ⟨hcursor, by simp [hb]⟩ }
  · obtain ⟨_, v, hv, -, -, -, -, htaken, -⟩ | ⟨v, hv, -⟩ := readBits_spec _ h.ranges.width_le s
    all_goals cases hv.symm.trans hbits
    rw [htaken]
    show s.inPos < s.inPos + bytesNeeded _ s
    unfold bytesNeeded
    omega

theorem SessionInv.chunkUsedUp {s u : State} (h : SessionInv s) (hbits : readBits s.codeWidth.toNat s = (.noData, u)) :
    ChunkUsedUp s u := by
  obtain ⟨-, hcount, -⟩ := readBits_noData_left h.ranges.width_le hbits
  refine ⟨?_, hcount⟩
  obtain ⟨_, v, hv, -⟩ | ⟨v, hv, -, -, -, hframe⟩ := readBits_spec _ h.ranges.width_le s
  all_goals cases hv.symm.trans hbits
  have hlength : s.inPos + (unreadBytes s).length = s.chunk.length := by
    rw [unreadBytes, List.length_drop, Nat.add_sub_of_le h.cursor.1]
  rw [hframe, hlength]

/-- Everything step 1 of an iteration in a session can find, with what is executed then. -/
theorem SessionInv.iteration_reads {s t : State} (h : SessionInv s) (hb : s.busy = true) (hi : iteration s = next t) :
    (∃ code u, readBits s.codeWidth.toNat s = (.code code, u) ∧ WordRead s u ∧
      runWord (classify (classRegs u) code) u = next t) ∨
    ∃ u, readBits s.codeWidth.toNat s = (.noData, u) ∧ ChunkUsedUp s u ∧ execNoData u = next t := by
  unfold iteration at hi
  obtain ⟨-, hr⟩ | ⟨-, ⟨code, u, hbits, hr⟩ | ⟨u, hbits, hr⟩⟩ := readWord_spec s <;> rw [hr] at hi
  · cases hi
  · exact .inl ⟨code, u, hbits, h.wordRead hb hbits, hi⟩
  · exact .inr ⟨u, hbits, h.chunkUsedUp hbits, hi⟩

/-! ## The faults of a word -/

theorem bind_eq_error {x : Except State State} {f : State → Except State State} {t : State}
    (h : (x >>= f) = .error t) : x = .error t ∨ ∃ u, x = .ok u ∧ f u = .error t := by
  cases x with
  | ok u => exact .inr ⟨u, rfl, h⟩
  | error u => exact .inl h

theorem deliver_eq_error {code : Code} {s t : State} (h : deliver code s = .error t) :
    t.faultKind = some .invalidCode := by
  unfold deliver at h
  split at h <;> cases h
  rfl

theorem addDeferred_eq_error {s t : State} (h : addDeferred s = .error t) : t.faultKind = some .dictionaryFull := by
  unfold addDeferred at h
  split at h <;> cases h
  rfl

/-- The faults a word can raise (`60_exceptions.md` R271): the third kind is that of a chunk's end. -/
def WordFault (t : State) : Prop := t.faultKind = some .invalidCode ∨ t.faultKind = some .dictionaryFull

theorem firstBody_eq_error {code : Code} {s t : State} (h : firstBody code s = .error t) : WordFault t := by
  obtain h | ⟨u, -, h⟩ := bind_eq_error h
  · exact .inl (deliver_eq_error h)
  · cases h

theorem knownBody_eq_error {code : Code} {s t : State} (h : knownBody code s = .error t) : WordFault t := by
  obtain h | ⟨u, -, h⟩ := bind_eq_error h
  · exact .inl (deliver_eq_error h)
  · obtain h | ⟨v, -, h⟩ := bind_eq_error h
    · exact .inr (addDeferred_eq_error h)
    · cases h

theorem nextBody_eq_error {code : Code} {s t : State} (h : nextBody code s = .error t) : WordFault t := by
  obtain h | ⟨u, -, h⟩ := bind_eq_error h
  · exact .inr (addDeferred_eq_error h)
  · obtain h | ⟨v, -, h⟩ := bind_eq_error h
    · exact .inl (deliver_eq_error h)
    · cases h

theorem stringBody_eq_error {code : Code} {s t : State} (h : stringBody code s = .error t) : WordFault t := by
  obtain h | ⟨u, -, h⟩ := bind_eq_error h
  · exact .inl (deliver_eq_error h)
  · cases h

/-- A class rule that is executed and ends the command has raised. -/
theorem whenClass_ended {w : ReadWord} {code : Code} {s t : State} {x : Except State State}
    (hx : BodyKeeps KeepsReading s x) (h : whenClass w code s (settled x) = next t) (hb : s.busy = true)
    (hbt : t.busy = false) : x = .error t := by
  obtain rfl := whenClass_eq_next h
  cases x with
  | error u => rfl
  | ok u =>
    obtain ⟨⟨-, -, -, -, -, hbusy, -⟩, -⟩ := hx
    cases hbt.symm.trans (hbusy.trans hb)

/-- A word that ends the command has raised a fault of its own. -/
theorem runWord_ended {w : ReadWord} {s t : State} (hw : w ≠ .noData) (h : runWord w s = next t) (hb : s.busy = true)
    (hbt : t.busy = false) : WordFault t := by
  have hk := keepsReading_keptByWords
  cases w with
  | first code => exact firstBody_eq_error (whenClass_ended (hk.firstBody code s) h hb hbt)
  | known code => exact knownBody_eq_error (whenClass_ended (hk.knownBody code s) h hb hbt)
  | next code => exact nextBody_eq_error (whenClass_ended (hk.nextBody code s) h hb hbt)
  | string code => exact stringBody_eq_error (whenClass_ended (hk.stringBody code s) h hb hbt)
  | invalid code => rw [whenClass_eq_next h]; exact .inl rfl
  | noData => exact absurd rfl hw

theorem classify_ne_noData (r : ClassRegs) (code : Code) : classify r code ≠ .noData := by
  obtain ⟨h, -⟩ | ⟨h, -⟩ | ⟨h, -⟩ | ⟨h, -⟩ | h := classify_cases r code <;> simp [h]

end Sys2Proof.Machine

/-! SUPPORT. A chunk inside a longer one: a command does with a chunk what it does with the same bytes further on in a
longer stream, up to the end of the chunk. -/

namespace Sys2Proof.Machine

open Host.Outcome

/-! ## A state in a longer chunk -/

/-- The same state with the bytes `pre` before its chunk, already used, and the bytes `post` after it. The outcome is
that of the command before, which no iteration reads. -/
def inStream (pre post : List Byte) (o : CommandResult) (s : State) : State :=
  { s with chunk := pre ++ s.chunk ++ post, inPos := pre.length + s.inPos, outcome := o }

/-- Two states in which a command has ended alike, the second with a count higher by `k`. -/
def EndsFurther (k : Nat) (t t' : State) : Prop :=
  ∃ status count, t.outcome = .chunk status count ∧ t' = { t with outcome := .chunk status (k + count) }

theorem endsFurther_zero {t t' : State} (h : EndsFurther 0 t t') : t' = t := by
  obtain ⟨status, count, hout, rfl⟩ := h
  rw [Nat.zero_add, ← hout]

section

variable {pre post : List Byte} {o : CommandResult}

theorem raise_inStream (kind : FaultKind) (s : State) :
    EndsFurther pre.length (raise kind s) (raise kind (inStream pre post o s)) :=
  ⟨.fault kind, s.inPos, rfl, rfl⟩

theorem unreadBytes_inStream {s : State} (h : s.inPos ≤ s.chunk.length) :
    unreadBytes (inStream pre post o s) = unreadBytes s ++ post := by
  show List.drop (pre.length + s.inPos) (pre ++ s.chunk ++ post) = _
  rw [List.append_assoc, List.drop_length_add_append, List.drop_append_of_le_length h]
  rfl

/-! ## Step 1 -/

/-- The loop of `read_bits` over bytes that come in two parts: where the first part runs out it goes on with the
second. -/
theorem fill_append (n : Nat) (x y : List Byte) (s : State) :
    fill n (x ++ y) s = if (fill n x s).1 then fill n x s else fill n y (fill n x s).2 := by
  induction x generalizing s with
  | nil =>
    by_cases h : n ≤ s.bitCount.toNat
    · cases y <;> simp [fill, h]
    · simp [fill, h]
  | cons b rest ih =>
    by_cases h : n ≤ s.bitCount.toNat
    · simp [fill, h]
    · simp only [List.cons_append, fill, if_neg h]
      exact ih (shiftIn b s)

theorem fill_inStream (n : Nat) (bytes : List Byte) (s : State) :
    fill n bytes (inStream pre post o s) = ((fill n bytes s).1, inStream pre post o (fill n bytes s).2) := by
  induction bytes generalizing s with
  | nil => rfl
  | cons b rest ih =>
    by_cases h : n ≤ s.bitCount.toNat
    · simp only [fill, if_pos h, if_pos (show n ≤ (inStream pre post o s).bitCount.toNat from h)]
    · simp only [fill, if_neg h, if_neg (show ¬ n ≤ (inStream pre post o s).bitCount.toNat from h)]
      exact ih (shiftIn b s)

/-- `read_bits` in a longer chunk is the loop over the chunk's unread bytes and, where these run out, over the bytes
after the chunk. -/
theorem readBits_inStream_code {n : Nat} {s u : State} {code : Code} (hcursor : s.inPos ≤ s.chunk.length)
    (h : readBits n s = (.code code, u)) :
    readBits n (inStream pre post o s) = (.code code, inStream pre post o u) := by
  unfold readBits at h ⊢
  rw [unreadBytes_inStream hcursor, fill_append, fill_inStream]
  generalize fill n (unreadBytes s) s = p at h ⊢
  obtain ⟨_ | _, v⟩ := p <;> cases h
  rfl

theorem readBits_inStream_noData {n : Nat} {s u : State} (hcursor : s.inPos ≤ s.chunk.length)
    (h : readBits n s = (.noData, u)) (hucursor : u.inPos ≤ u.chunk.length) (hunread : unreadBytes u = []) :
    readBits n (inStream pre post o s) = readBits n (inStream pre post o u) := by
  unfold readBits at h ⊢
  rw [unreadBytes_inStream hcursor, unreadBytes_inStream hucursor, hunread, List.nil_append, fill_append, fill_inStream]
  generalize fill n (unreadBytes s) s = p at h ⊢
  obtain ⟨_ | _, v⟩ := p <;> cases h
  rfl

/-! ## The parts of a class rule -/

theorem resolveToBytes_inStream (code : Code) (s : State) :
    resolveToBytes code (inStream pre post o s) =
      ((resolveToBytes code s).1, inStream pre post o (resolveToBytes code s).2) := by
  have hwalk : walk (inStream pre post o s) = walk s := by
    funext k c m
    exact walk_congr (by rfl) (fun _ => by rfl) k c m
  rw [resolveToBytes_eq, resolveToBytes_eq, hwalk]
  rfl

theorem addEntry_inStream (p : Code) (b : Byte) (s : State) :
    addEntry p b (inStream pre post o s) = ((addEntry p b s).1, inStream pre post o (addEntry p b s).2) := by
  unfold addEntry
  rw [show noCode (inStream pre post o s) = noCode s from rfl,
    show dictionaryFull (inStream pre post o s) = dictionaryFull s from rfl]
  split
  · rfl
  · split <;> rfl

theorem completeWord_inStream (code : Code) (s : State) :
    completeWord code (inStream pre post o s) = inStream pre post o (completeWord code s) := by
  have hgrow (u : State) : growWidth (inStream pre post o u) = inStream pre post o (growWidth u) := by
    unfold growWidth
    rw [show widthGrows (inStream pre post o u) = widthGrows u from rfl]
    split <;> rfl
  have hoverflow (u : State) : handleOverflow (inStream pre post o u) = inStream pre post o (handleOverflow u) := by
    unfold handleOverflow
    rw [show overflows (inStream pre post o u) = overflows u from rfl]
    split <;> rfl
  rw [completeWord, show setPrevious code (inStream pre post o s) = inStream pre post o (setPrevious code s) from rfl,
    hgrow, hoverflow]
  rfl

/-- Two answers of a part of a class rule: both go on, the second in the longer chunk, or both raised alike. -/
def SameInStream (pre post : List Byte) (o : CommandResult) : Except State State → Except State State → Prop
  | .ok t, .ok t' => t' = inStream pre post o t
  | .error t, .error t' => EndsFurther pre.length t t'
  | _, _ => False

theorem SameInStream.bind {x y : Except State State} {f : State → Except State State}
    (h : SameInStream pre post o x y) (hf : ∀ s, SameInStream pre post o (f s) (f (inStream pre post o s))) :
    SameInStream pre post o (x >>= f) (y >>= f) := by
  cases x <;> cases y
  · exact h
  · exact h.elim
  · exact h.elim
  · obtain rfl := h
    exact hf _

theorem deliver_inStream (code : Code) (s : State) :
    SameInStream pre post o (deliver code s) (deliver code (inStream pre post o s)) := by
  unfold deliver
  rw [resolveToBytes_inStream]
  obtain ⟨_ | r, u⟩ := resolveToBytes code s
  · exact raise_inStream _ u
  · rfl

theorem addDeferred_inStream (s : State) :
    SameInStream pre post o (addDeferred s) (addDeferred (inStream pre post o s)) := by
  have hadd : addEntry (inStream pre post o s).prevCode (inStream pre post o s).firstChar (inStream pre post o s) =
      _ := addEntry_inStream s.prevCode s.firstChar s
  unfold addDeferred
  rw [hadd, show noCode (inStream pre post o s) = noCode s from rfl]
  split
  · exact raise_inStream _ _
  · rfl

/-! ## The class rules -/

theorem firstBody_inStream (code : Code) (s : State) :
    SameInStream pre post o (firstBody code s) (firstBody code (inStream pre post o s)) :=
  (deliver_inStream code s).bind fun u => by
    rw [addEntry_noCode, addEntry_noCode]
    exact completeWord_inStream code u

theorem knownBody_inStream (code : Code) (s : State) :
    SameInStream pre post o (knownBody code s) (knownBody code (inStream pre post o s)) :=
  (deliver_inStream code s).bind fun u => (addDeferred_inStream u).bind fun v => completeWord_inStream code v

theorem nextBody_inStream (code : Code) (s : State) :
    SameInStream pre post o (nextBody code s) (nextBody code (inStream pre post o s)) :=
  (addDeferred_inStream s).bind fun u => (deliver_inStream code u).bind fun v => completeWord_inStream code v

theorem stringBody_inStream (code : Code) (s : State) :
    SameInStream pre post o (stringBody code s) (stringBody code (inStream pre post o s)) :=
  (deliver_inStream code s).bind fun u => completeWord_inStream code u

/-- What a word leaves in a longer chunk, next to what it leaves in the chunk: the command going on from the same
state, or ended alike. -/
def FollowsInStream (pre post : List Byte) (o : CommandResult) (t t' : State) : Prop :=
  (t.busy = true ∧ t' = inStream pre post o t) ∨ (t.busy = false ∧ EndsFurther pre.length t t')

theorem whenClass_inStream {w : ReadWord} {code : Code} {s t : State} {x y : Except State State}
    (hx : BodyKeeps KeepsReading s x) (hxy : SameInStream pre post o x y) (hb : s.busy = true)
    (h : whenClass w code s (settled x) = next t) :
    ∃ t', whenClass w code (inStream pre post o s) (settled y) = next t' ∧ FollowsInStream pre post o t t' := by
  have hclass : classify (classRegs s) code = w := by
    by_contra hc
    cases (whenClass_other (settled x) hc).symm.trans h
  obtain rfl := whenClass_eq_next h
  refine ⟨settled y, if_pos hclass, ?_⟩
  cases x <;> cases y
  · obtain ⟨kind, u, -, rfl⟩ := hx
    exact .inr ⟨rfl, hxy⟩
  · exact hxy.elim
  · exact hxy.elim
  · obtain ⟨⟨-, -, -, -, -, hbusy, -⟩, -⟩ := hx
    exact .inl ⟨hbusy.trans hb, hxy⟩

/-- Executing a word looks at the chunk for the count of a fault alone. -/
theorem runWord_inStream {w : ReadWord} {s t : State} (hw : w ≠ .noData) (hb : s.busy = true)
    (h : runWord w s = next t) :
    ∃ t', runWord w (inStream pre post o s) = next t' ∧ FollowsInStream pre post o t t' := by
  have hk := keepsReading_keptByWords
  cases w with
  | first code => exact whenClass_inStream (hk.firstBody code s) (firstBody_inStream code s) hb h
  | known code => exact whenClass_inStream (hk.knownBody code s) (knownBody_inStream code s) hb h
  | next code => exact whenClass_inStream (hk.nextBody code s) (nextBody_inStream code s) hb h
  | string code => exact whenClass_inStream (hk.stringBody code s) (stringBody_inStream code s) hb h
  | invalid code =>
    have hx : BodyKeeps KeepsReading s (.error (raise .invalidCode s)) := ⟨_, s, hk.refl s, rfl⟩
    exact whenClass_inStream (y := .error (raise .invalidCode (inStream pre post o s))) hx (raise_inStream _ s) hb h
  | noData => exact absurd rfl hw

end

end Sys2Proof.Machine

/-! SUPPORT. DECODE_CHUNK: how it ends, and chunk-boundary invariance. -/

namespace Sys2Proof.Machine

open Host.Outcome

/-! ## The end of a chunk -/

/-- What a command leaves at the end of its chunk, from the state in which the chunk is used up. -/
def atChunkEnd (u : State) : State :=
  if truncated u then raise .inputTruncated u else endCommand .needMoreInput { u with phase := .exhausted }

theorem atChunkEnd_of_truncated {u : State} (h : u.params.strictEof = true ∧ u.bitCount ≠ 0) :
    atChunkEnd u = raise .inputTruncated u := if_pos ((truncated_iff u).2 h)

theorem atChunkEnd_of_clean {u : State} (h : ¬ (u.params.strictEof = true ∧ u.bitCount ≠ 0)) :
    atChunkEnd u = endCommand .needMoreInput { u with phase := .exhausted } :=
  if_neg fun ht => h ((truncated_iff u).1 ht)

theorem atChunkEnd_busy (u : State) : (atChunkEnd u).busy = false := by
  unfold atChunkEnd
  split <;> rfl

theorem atChunkEnd_bitCount (u : State) : (atChunkEnd u).bitCount = u.bitCount := by
  unfold atChunkEnd
  split <;> rfl

theorem atChunkEnd_inStream (pre post : List Byte) (o : CommandResult) (u : State) :
    EndsFurther pre.length (atChunkEnd u) (atChunkEnd (inStream pre post o u)) := by
  unfold atChunkEnd
  rw [show truncated (inStream pre post o u) = truncated u from rfl]
  split
  · exact raise_inStream _ u
  · exact ⟨.needMoreInput, u.inPos, rfl, rfl⟩

/-- An iteration that finds the chunk exhausted and too few bits buffered ends the command over an unchanged state. -/
theorem iteration_of_exhausted {s : State} (hw : s.codeWidth.toNat ≤ maxWidth)
    (hc : s.bitCount.toNat < s.codeWidth.toNat) (hu : unreadBytes s = []) : iteration s = next (atChunkEnd s) := by
  rw [iteration, readWord, if_neg (Nat.not_lt_of_le hw), readBits_of_exhausted hw hc hu]
  exact if_pos ((outOfData_iff _ s).2 ⟨hu, hc⟩)

/-! ## What an iteration does, in its chunk and in a longer one -/

/-- A word ended the command by one of its faults, with a count of at least one byte. -/
structure EndedByWord (chunk : List Byte) (t : State) : Prop where
  idle : t.busy = false
  phase : t.phase = .faulted
  kind : WordFault t
  outcome : ∃ kind count, t.faultKind = some kind ∧ t.outcome = .chunk (.fault kind) count ∧ 1 ≤ count ∧
    count ≤ chunk.length

theorem EndedByWord.faultKind_ne {chunk : List Byte} {t : State} (h : EndedByWord chunk t) :
    t.faultKind ≠ some .inputTruncated := by
  obtain hk | hk := h.kind <;> simp [hk]

theorem iteration_of_word {s u : State} {code : Code} (hw : s.codeWidth.toNat ≤ maxWidth)
    (h : readBits s.codeWidth.toNat s = (.code code, u)) :
    iteration s = runWord (classify (classRegs u) code) u := by
  rw [iteration, readWord, if_neg (Nat.not_lt_of_le hw), h]

/-- Step 1 leaves the same word where `read_bits` gives the same. -/
theorem iteration_congr {s u : State} (hw : u.codeWidth = s.codeWidth)
    (h : readBits s.codeWidth.toNat s = readBits s.codeWidth.toNat u) : iteration s = iteration u := by
  rw [iteration, iteration, readWord, readWord, hw, h]

/-- Everything an iteration of a session can do to its command, in its chunk and in a longer one: go on from the same
state, end it by the same fault of a word, or find the chunk used up, where the longer one goes on with the bytes
after it. -/
theorem SessionInv.iteration_inStream {s t : State} (h : SessionInv s) (hb : s.busy = true) (hi : iteration s = next t)
    (pre post : List Byte) (o : CommandResult) :
    (t.busy = true ∧ t.chunk = s.chunk ∧ iteration (inStream pre post o s) = next (inStream pre post o t)) ∨
    (EndedByWord s.chunk t ∧ ∃ t', iteration (inStream pre post o s) = next t' ∧ EndsFurther pre.length t t') ∨
    ∃ u, ChunkUsedUp s u ∧ t = atChunkEnd u ∧
      iteration (inStream pre post o s) = iteration (inStream pre post o u) := by
  have hcursor := h.cursor.1
  obtain ⟨code, u, hbits, hread, hrun⟩ | ⟨u, hbits, hused, hnone⟩ := h.iteration_reads hb hi
  · have hw := classify_ne_noData (classRegs u) code
    have hub : u.busy = true := by rw [hread.frame]; exact hb
    have huchunk : u.chunk = s.chunk := by rw [hread.frame]
    have hstream : iteration (inStream pre post o s) = runWord _ (inStream pre post o u) :=
      iteration_of_word (s := inStream pre post o s) h.ranges.width_le (readBits_inStream_code hcursor hbits)
    obtain ⟨t', ht', hfollows⟩ := runWord_inStream (pre := pre) (post := post) (o := o) hw hub hrun
    rw [hstream]
    obtain ⟨⟨-, -, -, -, -, hbusy, hchunk, -⟩, -⟩ | ⟨kind, v, ⟨⟨-, -, -, -, -, -, -, hpos, -⟩, -⟩, rfl⟩ :=
      keepsReading_keptByWords.runWord hw hrun
    · obtain ⟨htb, rfl⟩ | ⟨htb, -⟩ := hfollows
      · exact .inl ⟨htb, hchunk.trans huchunk, ht'⟩
      · cases htb.symm.trans (hbusy.trans hub)
    · obtain ⟨htb, -⟩ | ⟨-, hends⟩ := hfollows
      · simp at htb
      · have htaken := hread.taken
        have hucursor := hread.inv.cursor.1
        rw [huchunk] at hucursor
        exact .inr (.inl ⟨{
          idle := rfl
          phase := rfl
          kind := runWord_ended hw hrun hub rfl
          outcome := ⟨kind, v.inPos, rfl, rfl, by omega, by omega⟩ }, t', ht', hends⟩)
  · have hwidth : u.codeWidth = s.codeWidth := by rw [hused.frame]
    have hucursor : u.inPos ≤ u.chunk.length := by rw [hused.frame]
    exact .inr (.inr ⟨u, hused, execNoData_eq_next hnone,
      iteration_congr (s := inStream pre post o s) (u := inStream pre post o u) hwidth
        (readBits_inStream_noData hcursor hbits hucursor hused.unreadBytes_eq)⟩)

/-! ## What a command does, in its chunk and in a longer one -/

/-- The state of a session's command in which its chunk is used up. -/
structure AtEnd (s u : State) : Prop where
  busy : u.busy = true
  params : u.params = s.params
  fault : u.faultKind = none
  chunk : u.chunk = s.chunk
  cursor : u.inPos = s.chunk.length
  phase : (u.phase = .awaitingFirstCode ∧ u.prevCode = noCode u) ∨ (u.phase = .running ∧ u.prevCode ≠ noCode u)

theorem SessionInv.atEnd {s u : State} (h : SessionInv s) (hb : s.busy = true) (hu : ChunkUsedUp s u) : AtEnd s u := by
  rw [hu.frame]
  exact ⟨hb, rfl, h.fault_of_busy hb, rfl, rfl,
    (h.busy_phase hb).imp (fun hp => ⟨hp, h.awaiting hp⟩) (fun hp => ⟨hp, h.running hp⟩)⟩

theorem AtEnd.congr {s v u : State} (h : AtEnd v u) (hparams : v.params = s.params) (hchunk : v.chunk = s.chunk) :
    AtEnd s u :=
  { h with
    params := h.params.trans hparams
    chunk := h.chunk.trans hchunk
    cursor := hchunk ▸ h.cursor }

/-- A command ends by a word's fault, which more bytes after the chunk do not change, or at the end of its chunk,
where more bytes are gone on with. -/
theorem SessionInv.endsIn_extended {s t : State} (h : SessionInv s) (hb : s.busy = true) (he : EndsIn s t)
    (post : List Byte) (o : CommandResult) :
    (EndedByWord s.chunk t ∧ EndsIn (inStream [] post o s) t) ∨
    ∃ u, AtEnd s u ∧ t = atChunkEnd u ∧ ∀ t', EndsIn (inStream [] post o s) t' ↔ EndsIn (inStream [] post o u) t' := by
  refine he.head_induction (P := fun s => SessionInv s → s.busy = true →
    (EndedByWord s.chunk t ∧ EndsIn (inStream [] post o s) t) ∨
    ∃ u, AtEnd s u ∧ t = atChunkEnd u ∧ ∀ t', EndsIn (inStream [] post o s) t' ↔ EndsIn (inStream [] post o u) t')
    (fun hidle _ hb => by simp [hidle] at hb) ?_ h hb
  intro s v hb hi he ih h _
  obtain ⟨hvb, hchunk, hstream⟩ | ⟨hended, v', hstream, hends⟩ | ⟨u, hused, rfl, hstream⟩ :=
    h.iteration_inStream hb hi [] post o
  · have hgo (t' : State) : EndsIn (inStream [] post o s) t' ↔ EndsIn (inStream [] post o v) t' := by
      simp [endsIn_of_busy (s := inStream [] post o s) hb, hstream]
    obtain ⟨hended, hword⟩ | ⟨u, hu, ht, hiff⟩ := ih (iteration_keepsInv h hb hi) hvb
    · exact .inl ⟨hchunk ▸ hended, (hgo t).2 hword⟩
    · exact .inr ⟨u, hu.congr (iteration_sameQueue hi).1 hchunk, ht, fun t' => (hgo t').trans (hiff t')⟩
  · obtain rfl := (endsIn_of_idle hended.idle).1 he
    obtain rfl := endsFurther_zero hends
    exact .inl ⟨hended, .of_iteration (s := inStream [] post o s) hb hstream (.of_idle hended.idle)⟩
  · obtain rfl := (endsIn_of_idle (atChunkEnd_busy u)).1 he
    have hu := h.atEnd hb hused
    refine .inr ⟨u, hu, rfl, fun t' => ?_⟩
    exact endsIn_congr (s := inStream [] post o s) (s' := inStream [] post o u) hb hu.busy hstream

/-- A command does with its chunk what it does with it after bytes already used, but for the count. -/
theorem SessionInv.endsIn_after {s t : State} (h : SessionInv s) (hb : s.busy = true) (he : EndsIn s t)
    (pre : List Byte) (o : CommandResult) : ∃ t', EndsIn (inStream pre [] o s) t' ∧ EndsFurther pre.length t t' := by
  refine he.head_induction (P := fun s => SessionInv s → s.busy = true →
    ∃ t', EndsIn (inStream pre [] o s) t' ∧ EndsFurther pre.length t t')
    (fun hidle _ hb => by simp [hidle] at hb) ?_ h hb
  intro s v hb hi he ih h _
  have hgo {v' t' : State} (hv : iteration (inStream pre [] o s) = next v') (he : EndsIn v' t') :
      EndsIn (inStream pre [] o s) t' := .of_iteration (s := inStream pre [] o s) hb hv he
  obtain ⟨hvb, -, hstream⟩ | ⟨hended, v', hstream, hends⟩ | ⟨u, hused, rfl, hstream⟩ :=
    h.iteration_inStream hb hi pre [] o
  · obtain ⟨t', ht', hends⟩ := ih (iteration_keepsInv h hb hi) hvb
    exact ⟨t', hgo hstream ht', hends⟩
  · obtain rfl := (endsIn_of_idle hended.idle).1 he
    have hidle : v'.busy = false := by
      obtain ⟨_, _, -, rfl⟩ := hends
      exact hended.idle
    exact ⟨v', hgo hstream (.of_idle hidle), hends⟩
  · obtain rfl := (endsIn_of_idle (atChunkEnd_busy u)).1 he
    have hwidth : u.codeWidth = s.codeWidth := by rw [hused.frame]
    have hunread : unreadBytes (inStream pre [] o u) = [] := by
      rw [unreadBytes_inStream (by rw [hused.frame]), hused.unreadBytes_eq, List.append_nil]
    have hend : iteration (inStream pre [] o u) = next (atChunkEnd (inStream pre [] o u)) :=
      iteration_of_exhausted (s := inStream pre [] o u) (hwidth ▸ h.ranges.width_le) (hwidth ▸ hused.count) hunread
    exact ⟨_, hgo (hstream.trans hend) (.of_idle (atChunkEnd_busy _)), atChunkEnd_inStream pre [] o u⟩

/-! ## The statements -/

/-- Settles O33: the run ends by a word's fault, after at least one byte, or with the whole chunk used up. -/
theorem chunkAlwaysEnds : Obligations.ChunkAlwaysEnds := by
  intro chunk s h hb hp
  obtain ⟨t, ht⟩ := execDecodeChunk_answers chunk h hb
  have hend : EndsIn (beginChunk chunk s) t := (h.exec_decodeChunk_iff hb hp chunk).1 ht
  refine ⟨t, ht, hend.not_busy, ?_⟩
  obtain ⟨hended, -⟩ | ⟨u, hu, rfl, -⟩ := (beginChunk_keepsInv chunk h hp).endsIn_extended rfl hend [] .none
  · right
    obtain ⟨kind, count, hfault, hout, hpos, hle⟩ := hended.outcome
    refine ⟨kind, count, hout, hended.phase, hfault, hle, fun hk => ?_, fun _ => hpos⟩
    exact absurd (hk ▸ hfault) hended.faultKind_ne
  · have hlen : u.inPos = chunk.length := hu.cursor
    by_cases htr : u.params.strictEof = true ∧ u.bitCount ≠ 0
    · right
      rw [atChunkEnd_of_truncated htr]
      have hstrict : s.params.strictEof = true := hu.params ▸ htr.1
      exact ⟨.inputTruncated, chunk.length, congrArg _ hlen, rfl, rfl, le_rfl, fun _ => ⟨hstrict, rfl⟩,
        fun hk => absurd rfl hk⟩
    · left
      rw [atChunkEnd_of_clean htr]
      exact ⟨congrArg _ hlen, rfl, hu.fault⟩

/-- Settles O31: the first iteration finds the chunk exhausted, and a session buffers fewer bits than a word has. -/
theorem emptyChunkEnds : Obligations.EmptyChunkEnds := by
  intro s h hb hp
  obtain ⟨hchunk, hpos⟩ := h.cursor.2 hb
  have hi : iteration (beginChunk [] s) = next (atChunkEnd (beginChunk [] s)) :=
    iteration_of_exhausted h.ranges.width_le h.count rfl
  have hend : EndsIn (beginChunk [] s) (atChunkEnd (beginChunk [] s)) :=
    .of_iteration rfl hi (.of_idle (atChunkEnd_busy _))
  refine ⟨_, (h.exec_decodeChunk_iff hb hp []).2 hend, ?_⟩
  rw [hb, hchunk, hpos]
  split
  · exact atChunkEnd_of_truncated (u := beginChunk [] s) ‹_›
  · exact atChunkEnd_of_clean (u := beginChunk [] s) ‹_›

/-- A command begun after a chunk that ended cleanly goes on from the state in which that chunk was used up. -/
theorem AtEnd.beginChunk_next {s u : State} (hu : AtEnd s u)
    (hclean : ¬ (u.params.strictEof = true ∧ u.bitCount ≠ 0)) (y : List Byte) (o : CommandResult) :
    inStream s.chunk [] o (beginChunk y (atChunkEnd u)) = inStream [] y o u := by
  have hphase : resumedPhase (atChunkEnd u) = u.phase := by
    rw [atChunkEnd_of_clean hclean]
    obtain ⟨hp, hprev⟩ | ⟨hp, hprev⟩ := hu.phase <;> rw [hp]
    · exact (if_pos rfl).trans (if_pos hprev)
    · exact (if_pos rfl).trans (if_neg hprev)
  rw [beginChunk, hphase, atChunkEnd_of_clean hclean]
  simp [inStream, endCommand, hu.chunk, hu.cursor, hu.busy]

/-- Settles O41: up to the end of the first chunk the two runs are one, and from there the second chunk's run is the
rest of the concatenation's. -/
theorem chunkBoundaryInvariance : Obligations.ChunkBoundaryInvariance := by
  intro x y s t1 t2 t h hb hp hx hy hxy
  have h1 : SessionInv t1 := execDecodeChunk_keepsInv h hx
  have hreports : t1.phase = .faulted → t2 = { t1 with outcome := .chunk (statusOf t1.faultKind) 0 } :=
    fun hf => exec_decodeChunk_of_faulted hf hy
  rw [h.exec_decodeChunk_iff hb hp] at hx hxy
  change EndsIn (inStream [] y s.outcome (beginChunk x s)) t at hxy
  obtain ⟨hended, hword⟩ | ⟨u, hu, rfl, hiff⟩ := (beginChunk_keepsInv x h hp).endsIn_extended rfl hx y s.outcome
  · have hphase := hended.phase
    exact ⟨fun hk => absurd hk hended.faultKind_ne, fun _ hne => absurd hphase hne,
      fun hf => ⟨hreports hf, fun _ => hxy.unique hword⟩, fun hne => absurd hphase hne⟩
  · have hparams : u.params = s.params := hu.params
    by_cases htr : u.params.strictEof = true ∧ u.bitCount ≠ 0
    · have hend := atChunkEnd_of_truncated htr
      have hphase : (atChunkEnd u).phase = .faulted := by rw [hend]; rfl
      have hkind : (atChunkEnd u).faultKind = some .inputTruncated := by rw [hend]; rfl
      refine ⟨fun _ => ?_, fun _ hne => absurd hphase hne, fun hf => ⟨hreports hf, fun hne => absurd hkind hne⟩,
        fun hne => absurd hphase hne⟩
      rw [atChunkEnd_bitCount, ← hparams]
      exact htr
    · have hend := atChunkEnd_of_clean htr
      have hphase : (atChunkEnd u).phase ≠ .faulted := by rw [hend]; simp
      have hkind : (atChunkEnd u).faultKind = none := by rw [hend]; exact hu.fault
      refine ⟨fun hk => ?_, fun hstrict _ => ?_, fun hf => absurd hf hphase, fun _ => ?_⟩
      · rw [hkind] at hk
        cases hk
      · rw [atChunkEnd_bitCount]
        by_contra hne
        exact htr ⟨hparams ▸ hstrict, hne⟩
      · rw [h1.exec_decodeChunk_iff (atChunkEnd_busy u) hphase] at hy
        obtain ⟨t', ht', hfurther⟩ := (beginChunk_keepsInv y h1 hphase).endsIn_after rfl hy x s.outcome
        have hnext : inStream x [] s.outcome (beginChunk y (atChunkEnd u)) = _ := hu.beginChunk_next htr y s.outcome
        rw [hnext, ← hiff] at ht'
        obtain rfl := hxy.unique ht'
        obtain ⟨status, count, hout, rfl⟩ := hfurther
        exact ⟨rfl, status, count, hout, rfl⟩

end Sys2Proof.Machine

/-! SUPPORT. The commands INIT and RESTORE, the phases a command finds, and the status port. -/

namespace Sys2Proof.Machine

open Host.Outcome

/-! ## INIT -/

theorem exec_init {s : State} (hb : s.busy = false) : exec .init s = next { initRegs s with outcome := .none } :=
  whenIdle_idle hb _

/-- Where `max_code` is 255, no learned index holds a value. -/
theorem readEntry_of_fresh {s : State} (hmax : s.maxCode = 255) {i : Nat} (hi : 256 ≤ i) : readEntry s i = none :=
  readEntry_above hi (by rw [hmax]; exact hi)

/-- Settles O26: the registers INIT writes are those of a hardware reset, and `max_code` 255 leaves the literals alone
with a value. -/
theorem initEffect : Obligations.InitEffect := by
  intro s hb
  refine ⟨_, exec_init hb, rfl, fun i => readEntry_of_fresh rfl, ?_⟩
  rw [initRegs, hb]
  rfl

/-! ## RESTORE -/

theorem exec_restore_of_fits {entries : List Entry} {s : State} (hb : s.busy = false)
    (hfits : entries.length ≤ s.params.capacity - 256) : exec (.restore entries) s = next (loadTable entries s) :=
  (whenIdle_idle hb _).trans (congrArg next (if_pos (decide_eq_true hfits)))

theorem exec_restore_of_large {entries : List Entry} {s : State} (hb : s.busy = false)
    (hlarge : s.params.capacity - 256 < entries.length) : exec (.restore entries) s = next (refuseTable s) :=
  (whenIdle_idle hb _).trans (congrArg next (if_neg (by simpa [tableFits] using hlarge)))

theorem loadTable_maxCode_toNat {entries : List Entry} {s : State} (hp : s.params.WF)
    (hfits : entries.length ≤ s.params.capacity - 256) :
    (loadTable entries s).maxCode.toNat = 255 + entries.length := by
  obtain ⟨hlo, hhi, -, -⟩ := hp
  rw [loadTable_maxCode, BitVec.toNat_ofNat]
  omega

theorem loadTable_codeWidth_toNat (entries : List Entry) {s : State} (hp : s.params.WF) :
    (loadTable entries s).codeWidth.toNat = s.params.restoreWidth := by
  obtain ⟨-, -, -, hle⟩ := hp
  unfold maxWidth at hle
  rw [loadTable_codeWidth, BitVec.toNat_ofNat]
  omega

/-- Settles O28: the table's entries are listed from index 256 on, and `max_code` is the last of them. -/
theorem restoreAccepted : Obligations.RestoreAccepted := by
  intro entries s hb hp hfits
  have hmax := loadTable_maxCode_toNat hp hfits
  refine ⟨_, exec_restore_of_fits hb hfits, rfl, hmax, loadTable_codeWidth_toNat entries hp, fun j hj => ?_,
    fun i hi => ?_⟩
  · rw [readEntry, if_neg (by omega), if_pos (by omega)]
    exact tableEntries_find 256 j entries
  · exact readEntry_above (by omega) (by omega)

/-- Settles O29: a table that does not fit leaves the state of INIT, but for the phase and the fault kind. -/
theorem restoreRefused : Obligations.RestoreRefused := by
  intro entries s hb hlarge
  exact ⟨_, exec_restore_of_large hb hlarge, rfl, fun i => readEntry_of_fresh rfl⟩

/-! ## Saving a dictionary -/

theorem readStatusEntry_of_idle {s : State} (hb : s.busy = false) (i : Nat) : readStatusEntry i s = readEntry s i :=
  if_neg (by simp [hb])

/-- The values listed at consecutive indices, read in order and listed again from the first index, give the list back.
-/
theorem tableEntries_filterMap_find {m : List (Nat × Entry)} {i n : Nat} (h : m.map Prod.fst = List.range' i n) :
    tableEntries i ((List.range' i n).filterMap (Memory.find m)) = m := by
  induction m generalizing i n with
  | nil =>
    rw [← h]
    rfl
  | cons x rest ih =>
    obtain ⟨k, e⟩ := x
    cases n with
    | zero => cases h
    | succ n =>
      obtain ⟨rfl, hrest⟩ := List.cons.inj (h.trans List.range'_succ)
      have hread : (List.range' (k + 1) n).filterMap (Memory.find ((k, e) :: rest)) =
          (List.range' (k + 1) n).filterMap (Memory.find rest) := by
        refine List.filterMap_congr fun j hj => ?_
        rw [List.mem_range'_1] at hj
        rw [Memory.find, if_neg (by omega)]
      rw [List.range'_succ, List.filterMap_cons_some (b := e) (by simp [Memory.find]), hread, tableEntries, ih hrest]

/-- The table an idle session saves lists the same entries again. -/
theorem SessionInv.tableEntries_savedTable {s : State} (h : SessionInv s) (hb : s.busy = false) :
    tableEntries 256 (savedTable s) = s.dict := by
  have hread : savedTable s = (List.range' 256 (s.maxCode.toNat - 255)).filterMap (Memory.find s.dict) := by
    refine List.filterMap_congr fun i hi => ?_
    rw [List.mem_range'_1] at hi
    rw [readStatusEntry_of_idle hb, readEntry, if_neg (by omega), if_pos (by omega)]
  rw [hread, tableEntries_filterMap_find h.learned]

theorem SessionInv.savedTable_length {s : State} (h : SessionInv s) (hb : s.busy = false) :
    (savedTable s).length = s.maxCode.toNat - 255 := by
  have hkeys := tableEntries_keys 256 (savedTable s)
  rw [h.tableEntries_savedTable hb, h.learned] at hkeys
  simpa using (congrArg List.length hkeys).symm

/-- Settles O51: the saved table fits, and loading it lists the same entries up to the same `max_code`. -/
theorem savedTableRestores : Obligations.SavedTableRestores := by
  intro s h hb
  have hge := h.ranges.max_ge
  have hlt := h.ranges.max_lt
  have hlen := h.savedTable_length hb
  have hfits : (savedTable s).length ≤ s.params.capacity - 256 := by omega
  have hmax : (loadTable (savedTable s) s).maxCode = s.maxCode := by
    apply BitVec.eq_of_toNat_eq
    rw [loadTable_maxCode_toNat h.ranges.params hfits]
    omega
  have hread (i : Nat) : readEntry (loadTable (savedTable s) s) i = readEntry s i :=
    readEntry_congr (loadTable_params _ s) hmax ((loadTable_dict _ s).trans (h.tableEntries_savedTable hb)) i
  exact ⟨_, exec_restore_of_fits hb hfits, rfl, rfl, hmax, hread, stringOf_congr rfl hread⟩

/-! ## The phase a command finds -/

/-- Settles O30: in phase Faulted DECODE_CHUNK reports, and INIT and an empty table leave the phase of a fresh
session. -/
theorem faultedChunkReports : Obligations.FaultedChunkReports := by
  intro chunk s kind hb hp hk
  refine ⟨?_, ⟨_, exec_init hb, rfl⟩, ⟨_, exec_restore_of_fits hb (Nat.zero_le _), rfl⟩⟩
  refine (whenIdle_idle hb _).trans ((if_pos hp).trans ?_)
  rw [reportFault, hk]
  rfl

/-- DECODE_CHUNK does not tell phase Exhausted from the phase it resumes. -/
theorem exec_decodeChunk_of_exhausted (chunk : List Byte) {s : State} (hp : s.phase = .exhausted) :
    exec (.decodeChunk chunk) s = exec (.decodeChunk chunk) { s with phase := resumedPhase s } := by
  have hresumed : resumedPhase s ≠ .exhausted ∧ resumedPhase s ≠ .faulted := by
    rw [resumedPhase, if_pos hp]
    split <;> simp
  have hbegin : beginChunk chunk { s with phase := resumedPhase s } = beginChunk chunk s := by
    have hagain : resumedPhase { s with phase := resumedPhase s } = resumedPhase s := if_neg hresumed.1
    rw [beginChunk, hagain]
    rfl
  have hrun {u : State} (hu : u.phase ≠ .faulted) : exec (.decodeChunk chunk) u =
      whenIdle u (engineLoop (enoughIterations (beginChunk chunk u)) (beginChunk chunk u)) :=
    congrArg (whenIdle u) (if_neg hu)
  rw [hrun (by simp [hp]), hrun (u := { s with phase := resumedPhase s }) hresumed.2, hbegin]
  rfl

/-- An accepted RESTORE was of a table that fits. -/
theorem exec_restore_accepted {entries : List Entry} {s t : State} (h : exec (.restore entries) s = next t)
    (ha : t.outcome = .accepted) : t = loadTable entries s := by
  obtain ⟨-, h⟩ := whenIdle_eq_next h
  split at h <;> cases h
  · rfl
  · cases ha

/-- Settles O32: a command begins by resuming phase Exhausted, and INIT and an accepted RESTORE leave
AwaitingFirstCode. -/
theorem exhaustedResumes : Obligations.ExhaustedResumes := by
  intro chunk s
  refine ⟨fun hp => ?_, ?_⟩
  · rw [exec_decodeChunk_of_exhausted chunk hp, resumedPhase, if_pos hp]
  · rintro t (h | ⟨entries, h, ha⟩)
    · obtain ⟨-, h⟩ := whenIdle_eq_next h
      cases h
      rfl
    · rw [exec_restore_accepted h ha, loadTable_phase]

/-! ## The status port -/

theorem readStatus_of_idle {s : State} (hb : s.busy = false) :
    readStatus s = some
      { phase := s.phase, faultKind := s.faultKind, mode := s.mode, maxCode := s.maxCode, codeWidth := s.codeWidth,
        bitCount := s.bitCount, valid := validBits s, prevCode := s.prevCode, firstChar := s.firstChar } :=
  if_neg (by simp [hb])

/-- A status read sees the accumulator by its valid bits alone. -/
theorem readStatus_sameButStale {s t : State} (h : SameButStale s t) : readStatus t = readStatus s := by
  obtain ⟨acc, rfl, hv⟩ := sameButStale_iff.1 h
  unfold readStatus
  rw [hv]

theorem readStatusEntry_sameButStale {s t : State} (h : SameButStale s t) (i : Nat) :
    readStatusEntry i t = readStatusEntry i s := by
  obtain ⟨acc, rfl, -⟩ := sameButStale_iff.1 h
  rfl

/-- Settles O54: an idle block answers both reads, and neither depends on a stale bit. -/
theorem statusReadsTheRegisters : Obligations.StatusReadsTheRegisters :=
  fun _ hb => ⟨readStatus_of_idle hb, readStatusEntry_of_idle hb,
    fun _ h => ⟨readStatus_sameButStale h, readStatusEntry_sameButStale h⟩⟩

end Sys2Proof.Machine

/-! SUPPORT. The faults a word of a session can raise, and a command with it. -/

namespace Sys2Proof.Machine

open Host.Outcome

/-! ## A session's word raises no DictionaryFull -/

/-- The deferred add raises nothing where there is room for one entry. -/
theorem addDeferred_ne_error {s : State} (hr : InRange s) (hp : s.prevCode ≠ noCode s)
    (hroom : s.maxCode.toNat + 1 < s.params.capacity) (t : State) : addDeferred s ≠ .error t := by
  obtain ⟨u, hu, -⟩ := addDeferred_room hr hp hroom
  simp [hu]

/-- A rule that delivers a string and then raises nothing can fail by its chain alone. -/
theorem deliver_bind_eq_error {code : Code} {f : State → Except State State} {s t : State}
    (h : (deliver code s >>= f) = .error t)
    (hf : ∀ out first scratch, f { s with out := out, firstChar := first, scratch := scratch } ≠ .error t) :
    t.faultKind = some .invalidCode := by
  obtain h | ⟨u, hu, h⟩ := bind_eq_error h
  · exact deliver_eq_error h
  · rw [deliver_eq_ok hu] at h
    exact absurd h (hf _ _ _)

theorem firstBody_raises_invalidCode {code : Code} {s t : State} (h : firstBody code s = .error t) :
    t.faultKind = some .invalidCode :=
  deliver_bind_eq_error h fun _ _ _ => nofun

theorem stringBody_raises_invalidCode {code : Code} {s t : State} (h : stringBody code s = .error t) :
    t.faultKind = some .invalidCode :=
  deliver_bind_eq_error h fun _ _ _ => nofun

/-- Delivering a KNOWN word's string leaves the room its deferred entry needs (`10_state.md` R38 item 1). -/
theorem knownBody_raises_invalidCode {code : Code} {s t : State} (hr : InRange s) (hp : s.prevCode ≠ noCode s)
    (hroom : s.maxCode.toNat + 1 < s.params.capacity) (h : knownBody code s = .error t) :
    t.faultKind = some .invalidCode := by
  refine deliver_bind_eq_error h fun out first scratch herr => ?_
  have hdelivered : InRange { s with out := out, firstChar := first, scratch := scratch } :=
    hr.congr rfl rfl rfl rfl
  obtain herr | ⟨v, -, herr⟩ := bind_eq_error herr
  · exact addDeferred_ne_error hdelivered hp hroom t herr
  · cases herr

theorem nextBody_raises_invalidCode {code : Code} {s t : State} (hr : InRange s) (hp : s.prevCode ≠ noCode s)
    (hroom : s.maxCode.toNat + 1 < s.params.capacity) (h : nextBody code s = .error t) :
    t.faultKind = some .invalidCode := by
  obtain h | ⟨u, -, h⟩ := bind_eq_error h
  · exact absurd h (addDeferred_ne_error hr hp hroom t)
  · exact deliver_bind_eq_error h fun _ _ _ => nofun

/-- A word that ends the command of a session has raised InvalidCode (`60_exceptions.md` R271). -/
theorem SessionInv.runWord_raises_invalidCode {s t : State} {code : Code} (h : SessionInv s)
    (hrun : runWord (classify (classRegs s) code) s = next t) (hb : s.busy = true) (hbt : t.busy = false) :
    t.faultKind = some .invalidCode := by
  have hk := keepsReading_keptByWords
  have hr := h.ranges
  obtain ⟨hw, -⟩ | ⟨hw, -⟩ | ⟨hw, -, hm, hp⟩ | ⟨hw, -, hm, hp⟩ | hw := classify_cases (classRegs s) code
  all_goals rw [hw] at hrun
  · exact stringBody_raises_invalidCode (whenClass_ended (hk.stringBody code s) hrun hb hbt)
  · exact firstBody_raises_invalidCode (whenClass_ended (hk.firstBody code s) hrun hb hbt)
  · exact knownBody_raises_invalidCode hr hp (h.grow hm).room (whenClass_ended (hk.knownBody code s) hrun hb hbt)
  · exact nextBody_raises_invalidCode hr hp (h.grow hm).room (whenClass_ended (hk.nextBody code s) hrun hb hbt)
  · rw [whenClass_eq_next hrun, raise_faultKind]

/-! ## Nor does its command -/

theorem atChunkEnd_faultKind_ne {u : State} (hu : u.faultKind = none) :
    (atChunkEnd u).faultKind ≠ some .dictionaryFull := by
  unfold atChunkEnd
  split <;> simp [hu]

theorem SessionInv.iteration_faultKind_ne {s t : State} (h : SessionInv s) (hb : s.busy = true)
    (hi : iteration s = next t) : t.faultKind ≠ some .dictionaryFull := by
  cases htb : t.busy with
  | true => simp [(iteration_keepsInv h hb hi).fault_of_busy htb]
  | false =>
    obtain ⟨code, u, -, hread, hrun⟩ | ⟨u, -, hused, hnone⟩ := h.iteration_reads hb hi
    · have hub : u.busy = true := by rw [hread.frame]; exact hb
      simp [hread.inv.runWord_raises_invalidCode hrun hub htb]
    · rw [execNoData_eq_next hnone]
      exact atChunkEnd_faultKind_ne (h.atEnd hb hused).fault

/-- Settles O46: the command begins with no fault, and no iteration of a session leaves DictionaryFull. -/
theorem engineNeverFindsFull : Obligations.EngineNeverFindsFull := by
  intro chunk s t h hp hx
  obtain ⟨hb, -⟩ := whenIdle_eq_next hx
  obtain ⟨k, hk⟩ := (h.exec_decodeChunk_iff hb hp chunk).1 hx
  have hbegin := beginChunk_keepsInv chunk h hp
  have hstart : (beginChunk chunk s).faultKind ≠ some .dictionaryFull := by
    rw [hbegin.fault_of_busy (beginChunk_busy chunk s)]
    simp
  obtain ⟨-, ht⟩ := hk.induction (P := fun u => SessionInv u ∧ u.faultKind ≠ some .dictionaryFull)
    (fun hub hi ⟨hu, _⟩ => ⟨iteration_keepsInv hu hub hi, hu.iteration_faultKind_ne hub hi⟩) ⟨hbegin, hstart⟩
  exact ht

end Sys2Proof.Machine

/-! SUPPORT. Hardware reset: INIT finds nothing to change in the state it leaves, and a session begins there. -/

namespace Sys2Proof.Machine

open Host.Outcome

/-- INIT right after a reset changes nothing, the scratch buffer included. -/
theorem exec_init_resetWith (p : Params) : exec .init (State.resetWith p) = next (State.resetWith p) :=
  exec_init rfl

/-- Settles O27: INIT changes nothing right after a reset, no command is to come, `max_code` 255 leaves the literals alone
with a value, and the registers are the ones written. -/
theorem resetIsInit : Obligations.ResetIsInit := by
  intro p
  have hinit : ∃ t, exec .init (State.resetWith p) = next t ∧ t = { State.resetWith p with scratch := t.scratch } :=
    ⟨_, exec_init_resetWith p, rfl⟩
  have hstep : step (State.resetWith p) = next (State.resetWith p) := step_no_command rfl rfl
  exact ⟨hinit, hstep, rfl, rfl, rfl, rfl, rfl, rfl, rfl, rfl, rfl, rfl, rfl, fun i => readEntry_of_fresh rfl⟩

/-- Right after a reset no bit is buffered, no fault is held, and no command is in progress. -/
theorem resetWith_control (p : Params) : ControlInv (State.resetWith p) where
  count := (by decide : 0 < 8)
  count_iter := nofun
  fault := ⟨nofun, fun h => absurd rfl h⟩
  awaiting := fun _ => rfl
  running := nofun
  busy_phase := nofun
  cursor := ⟨Nat.le_refl 0, fun _ => ⟨rfl, rfl⟩⟩

/-- Settles O38: the dictionary is fresh, the scratch buffer and the sink are empty, and no command is in progress. -/
theorem resetMeetsInvariant : Obligations.ResetMeetsInvariant := fun p hp =>
  { resetWith_control p with
    ranges := .of_fresh hp rfl rfl rfl
    learned := by simp [State.resetWith]
    scratch := ⟨⟨.nil, nofun⟩, nofun⟩
    runs := nofun
    restored := nofun
    grow := fun _ => .of_fresh hp rfl rfl rfl rfl }

end Sys2Proof.Machine
